-- ==== Sys2Proof/Word.lean ====
section
/-! DEFINITION. The word type of the device: binary64 values with one abstract NaN (rules R7, R14),
and the small containers (two channels, chains of filters) the units are built from. -/

namespace Sys2Proof

/-- A 64-bit word of a port (rule R82). -/
abbrev Word := BitVec 64

/-- The 32-bit command word (rule R83). -/
abbrev CmdWord := BitVec 32

/-- One more than the largest magnitude of a finite binary64 value, a magnitude being the low 63 bits
of the pattern read as a number: 2047 exponent codes of 2^52 fractions each. It is also the magnitude
of an infinity. -/
abbrev magLimit : Nat := 9218868437227405312

/-- `F` (rule R7): a binary64 value. A finite value is its sign and its magnitude bits; all NaN
patterns are one value `nan` (rule R14, entry U6). -/
inductive F where
  | nan
  | inf (neg : Bool)
  | fin (neg : Bool) (mag : Fin magLimit)
  deriving DecidableEq, Repr, Inhabited

/-- A pair of values, one per channel `L`, `R` (rule R13). -/
structure Stereo (α : Type) where
  left : α
  right : α
  deriving DecidableEq, Repr, Inhabited

/-- Two like things in order: the comb filters of a channel, the modulators of a channel (rule R13). -/
structure Pair (α : Type) where
  first : α
  second : α
  deriving DecidableEq, Repr, Inhabited

/-- The four allpass filters of a channel of block 3 (rule R186). -/
structure Chain4 (α : Type) where
  f1 : α
  f2 : α
  f3 : α
  f4 : α
  deriving DecidableEq, Repr, Inhabited

/-- The six allpass filters of a channel of block 4 (rule R190). -/
structure Chain6 (α : Type) where
  f1 : α
  f2 : α
  f3 : α
  f4 : α
  f5 : α
  f6 : α
  deriving DecidableEq, Repr, Inhabited

/-- An index `1 .. 6` into a `Chain6`: the `target` of a modulator of block 4 (rule R11). -/
inductive Tap where
  | t1 | t2 | t3 | t4 | t5 | t6
  deriving DecidableEq, Repr, Inhabited

/-- A legal block index `1 .. 4` (rule R86). -/
inductive BlockIdx where
  | b1 | b2 | b3 | b4
  deriving DecidableEq, Repr, Inhabited

end Sys2Proof
end

