-- ==== Sys2Proof/Syntax.lean ====
section
/-! DEFINITION. The commands of the device (rule R85), one constructor per row of the opcode table,
with the operands each row reads; the command as the port carries it (rules R80, R82); unit classes. -/

namespace Sys2Proof

/-- What the command port carries for one command: the command word and the two operand words
(rules R80, R82). Rule R90 calls this triple the encoding of a line. -/
structure Command where
  word : CmdWord
  a : Word
  b : Word
  deriving DecidableEq, Repr, Inhabited

/-- The unit classes of rule R84. -/
inductive UnitClass where
  | rv | dl | cf | ap | bq | lfo | rm | bk
  deriving DecidableEq, Repr, Inhabited

/-- The rows of the opcode map (rule R85), without operands. -/
inductive Opcode where
  | rvRun | rvSetsr | rvSetwet | rvSetlpf | rvSetmode | rvClear
  | rvGetsr | rvGetwet | rvGetlpf | rvGetmode | rvGetout
  | dlRun | dlSetsr | dlSettime | dlSetmax | dlClear
  | cfRun | cfSetsr | cfSettime | cfClear
  | apRun | apSetsr | apSettime | apClear
  | bqRun | bqSetsr | bqSetcut | bqSetq | bqSetgain | bqSettype | bqClear
  | lfoRun | lfoSetsr
  | rmRun | rmSetsr
  | bkRun | bkSetsr | bkClear
  deriving DecidableEq, Repr, Inhabited

/-- One constructor per row of rule R85, carrying the operands the row reads: `a`, `b` the operand
words, `idx` the block index of the command word, `c` the clear flag. An operand word a command does
not use is ignored (rule R82) and is no argument of its constructor. -/
inductive Instr where
  /-- `RV.RUN inL, inR` (rule R201). -/
  | rvRun (a b : Word)
  /-- `RV.SETSR sr` (rule R210). -/
  | rvSetsr (a : Word)
  /-- `RV.SETWET idx, wet` (rule R211). -/
  | rvSetwet (idx : Nat) (a : Word)
  /-- `RV.SETLPF cutoff` (rule R212). -/
  | rvSetlpf (a : Word)
  /-- `RV.SETMODE mode` (rule R213). -/
  | rvSetmode (a : Word)
  /-- `RV.CLEAR` (rule R214). -/
  | rvClear
  /-- `RV.GETSR` (rule R215). -/
  | rvGetsr
  /-- `RV.GETWET idx` (rule R216). -/
  | rvGetwet (idx : Nat)
  /-- `RV.GETLPF` (rule R217). -/
  | rvGetlpf
  /-- `RV.GETMODE` (rule R218). -/
  | rvGetmode
  /-- `RV.GETOUT` (rule R219). -/
  | rvGetout
  /-- `DL.RUN x` (rule R101). -/
  | dlRun (a : Word)
  /-- `DL.SETSR sr` (rule R104). -/
  | dlSetsr (a : Word)
  /-- `DL.SETTIME t` (rule R102). -/
  | dlSettime (a : Word)
  /-- `DL.SETMAX c, new_max` (rule R103). -/
  | dlSetmax (c : Bool) (a : Word)
  /-- `DL.CLEAR` (rule R105). -/
  | dlClear
  /-- `CF.RUN x` (rule R121). -/
  | cfRun (a : Word)
  /-- `CF.SETSR sr` (rule R123). -/
  | cfSetsr (a : Word)
  /-- `CF.SETTIME t` (rule R122). -/
  | cfSettime (a : Word)
  /-- `CF.CLEAR` (rule R124). -/
  | cfClear
  /-- `AP.RUN x` (rule R125). -/
  | apRun (a : Word)
  /-- `AP.SETSR sr` (rule R127). -/
  | apSetsr (a : Word)
  /-- `AP.SETTIME t` (rule R126). -/
  | apSettime (a : Word)
  /-- `AP.CLEAR` (rule R128). -/
  | apClear
  /-- `BQ.RUN x` (rule R142). -/
  | bqRun (a : Word)
  /-- `BQ.SETSR sr` (rule R143). -/
  | bqSetsr (a : Word)
  /-- `BQ.SETCUT cutoff` (rule R144). -/
  | bqSetcut (a : Word)
  /-- `BQ.SETQ q` (rule R145). -/
  | bqSetq (a : Word)
  /-- `BQ.SETGAIN gain` (rule R146). -/
  | bqSetgain (a : Word)
  /-- `BQ.SETTYPE type` (rule R147). -/
  | bqSettype (a : Word)
  /-- `BQ.CLEAR` (rule R148). -/
  | bqClear
  /-- `LFO.RUN` (rule R161). -/
  | lfoRun
  /-- `LFO.SETSR sr` (rule R162). -/
  | lfoSetsr (a : Word)
  /-- `RM.RUN` (rule R165). -/
  | rmRun
  /-- `RM.SETSR sr` (rule R166). -/
  | rmSetsr (a : Word)
  /-- `BK.RUN inL, inR` (rules R183, R186, R190). -/
  | bkRun (a b : Word)
  /-- `BK.SETSR sr` (rule R194). -/
  | bkSetsr (a : Word)
  /-- `BK.CLEAR` (rule R193). -/
  | bkClear
  deriving DecidableEq, Repr, Inhabited

end Sys2Proof
end

