-- ==== Sys2Proof/WellFormed.lean ====
section
/-! DEFINITION. Which terms of `Instr` an encoding exists for: the one field whose type is wider than
its encoding is the block index (rule R86). -/

namespace Sys2Proof

/-- `idx` is the unsigned byte `cmd_word[23:16]`, `0 .. 255` (rules R83, R86). All 256 values are legal
encodings (rule R89). -/
def idxFits (idx : Nat) : Bool := decide (idx < 256)

/-- A well-formed instruction: every field fits its place in the command. Operand words and the flag
`c` fit by their types. -/
def Instr.wellFormed : Instr → Bool
  | .rvSetwet idx _ => idxFits idx
  | .rvGetwet idx => idxFits idx
  | .rvRun _ _ | .rvSetsr _ | .rvSetlpf _ | .rvSetmode _ | .rvClear | .rvGetsr | .rvGetlpf
  | .rvGetmode | .rvGetout
  | .dlRun _ | .dlSetsr _ | .dlSettime _ | .dlSetmax _ _ | .dlClear
  | .cfRun _ | .cfSetsr _ | .cfSettime _ | .cfClear
  | .apRun _ | .apSetsr _ | .apSettime _ | .apClear
  | .bqRun _ | .bqSetsr _ | .bqSetcut _ | .bqSetq _ | .bqSetgain _ | .bqSettype _ | .bqClear
  | .lfoRun | .lfoSetsr _ | .rmRun | .rmSetsr _
  | .bkRun _ _ | .bkSetsr _ | .bkClear => true

end Sys2Proof
end

