-- ==== Sys2Proof/Decode.lean ====
section
/-! DEFINITION. Decoding and encoding of commands (rules R83 to R89), total on all words, the opcode
map of rule R85 as a list of rows, and the assembler of rules R90 and R91. -/

namespace Sys2Proof

/-- Why a command word is illegal, in the order of the list of rule R87. (The last ground of that rule,
a class other than the device's, is no property of the word: `Machine/Ops.lean`.) -/
inductive Illegal where
  /-- `class` 8 to 15. -/
  | reservedClass
  /-- an `op` value with no row in its class. -/
  | reservedOp
  /-- a nonzero bit in `zero`. -/
  | zeroField
  /-- a nonzero `idx` in a command other than `RV.SETWET` and `RV.GETWET`. -/
  | idxField
  /-- `c = 1` in a command other than `DL.SETMAX`. -/
  | clearFlag
  deriving DecidableEq, Repr

/-! ### Fields of the command word (rule R83) -/

/-- bits `31:28`. -/
def classField (w : CmdWord) : Nat := w.toNat / 2 ^ 28

/-- bits `27:24`. -/
def opField (w : CmdWord) : Nat := w.toNat / 2 ^ 24 % 16

/-- bits `23:16`. -/
def idxField (w : CmdWord) : Nat := w.toNat / 2 ^ 16 % 256

/-- bits `15:1`. -/
def zeroField (w : CmdWord) : Nat := w.toNat / 2 % 2 ^ 15

/-- bit `0`. -/
def clearField (w : CmdWord) : Bool := w.toNat % 2 == 1

/-- A command word laid out from its fields (rule R83), the `zero` field zero. -/
def wordOf (cls op idx : Nat) (c : Bool) : CmdWord :=
  BitVec.ofNat 32 (cls * 2 ^ 28 + op * 2 ^ 24 + idx * 2 ^ 16 + c.toNat)

/-! ### The opcode map (rules R84, R85) -/

/-- The value of the `class` field of each unit class (rule R84). -/
def UnitClass.code : UnitClass → Nat
  | .rv => 0 | .dl => 1 | .cf => 2 | .ap => 3 | .bq => 4 | .lfo => 5 | .rm => 6 | .bk => 7

/-- The class of each row. -/
def Opcode.cls : Opcode → UnitClass
  | .rvRun | .rvSetsr | .rvSetwet | .rvSetlpf | .rvSetmode | .rvClear
  | .rvGetsr | .rvGetwet | .rvGetlpf | .rvGetmode | .rvGetout => .rv
  | .dlRun | .dlSetsr | .dlSettime | .dlSetmax | .dlClear => .dl
  | .cfRun | .cfSetsr | .cfSettime | .cfClear => .cf
  | .apRun | .apSetsr | .apSettime | .apClear => .ap
  | .bqRun | .bqSetsr | .bqSetcut | .bqSetq | .bqSetgain | .bqSettype | .bqClear => .bq
  | .lfoRun | .lfoSetsr => .lfo
  | .rmRun | .rmSetsr => .rm
  | .bkRun | .bkSetsr | .bkClear => .bk

/-- The value of the `op` field of each row (rule R85). -/
def Opcode.op : Opcode → Nat
  | .rvRun => 0 | .rvSetsr => 1 | .rvSetwet => 2 | .rvSetlpf => 3 | .rvSetmode => 4 | .rvClear => 5
  | .rvGetsr => 6 | .rvGetwet => 7 | .rvGetlpf => 8 | .rvGetmode => 9 | .rvGetout => 10
  | .dlRun => 0 | .dlSetsr => 1 | .dlSettime => 2 | .dlSetmax => 3 | .dlClear => 7
  | .cfRun => 0 | .cfSetsr => 1 | .cfSettime => 2 | .cfClear => 7
  | .apRun => 0 | .apSetsr => 1 | .apSettime => 2 | .apClear => 7
  | .bqRun => 0 | .bqSetsr => 1 | .bqSetcut => 2 | .bqSetq => 3 | .bqSetgain => 4 | .bqSettype => 5
  | .bqClear => 7
  | .lfoRun => 0 | .lfoSetsr => 1
  | .rmRun => 0 | .rmSetsr => 1
  | .bkRun => 0 | .bkSetsr => 1 | .bkClear => 7

/-- The row that a `class` and an `op` value select (rule R85). -/
def opcodeAt (cls op : Nat) : Option Opcode :=
  match cls with
  | 0 => match op with
    | 0 => some .rvRun | 1 => some .rvSetsr | 2 => some .rvSetwet | 3 => some .rvSetlpf
    | 4 => some .rvSetmode | 5 => some .rvClear | 6 => some .rvGetsr | 7 => some .rvGetwet
    | 8 => some .rvGetlpf | 9 => some .rvGetmode | 10 => some .rvGetout | _ => none
  | 1 => match op with
    | 0 => some .dlRun | 1 => some .dlSetsr | 2 => some .dlSettime | 3 => some .dlSetmax
    | 7 => some .dlClear | _ => none
  | 2 => match op with
    | 0 => some .cfRun | 1 => some .cfSetsr | 2 => some .cfSettime | 7 => some .cfClear | _ => none
  | 3 => match op with
    | 0 => some .apRun | 1 => some .apSetsr | 2 => some .apSettime | 7 => some .apClear | _ => none
  | 4 => match op with
    | 0 => some .bqRun | 1 => some .bqSetsr | 2 => some .bqSetcut | 3 => some .bqSetq
    | 4 => some .bqSetgain | 5 => some .bqSettype | 7 => some .bqClear | _ => none
  | 5 => match op with
    | 0 => some .lfoRun | 1 => some .lfoSetsr | _ => none
  | 6 => match op with
    | 0 => some .rmRun | 1 => some .rmSetsr | _ => none
  | 7 => match op with
    | 0 => some .bkRun | 1 => some .bkSetsr | 7 => some .bkClear | _ => none
  | _ => none

/-- Only `RV.SETWET` and `RV.GETWET` read `idx` (rule R83). -/
def Opcode.usesIdx : Opcode → Bool
  | .rvSetwet | .rvGetwet => true
  | _ => false

/-- Only `DL.SETMAX` reads `c` (rule R83). -/
def Opcode.usesClear : Opcode → Bool
  | .dlSetmax => true
  | _ => false

/-- The instruction of a row with its operands (rules R85, R86). -/
def Opcode.build (o : Opcode) (idx : Nat) (c : Bool) (a b : Word) : Instr :=
  match o with
  | .rvRun => .rvRun a b | .rvSetsr => .rvSetsr a | .rvSetwet => .rvSetwet idx a
  | .rvSetlpf => .rvSetlpf a | .rvSetmode => .rvSetmode a | .rvClear => .rvClear
  | .rvGetsr => .rvGetsr | .rvGetwet => .rvGetwet idx | .rvGetlpf => .rvGetlpf
  | .rvGetmode => .rvGetmode | .rvGetout => .rvGetout
  | .dlRun => .dlRun a | .dlSetsr => .dlSetsr a | .dlSettime => .dlSettime a
  | .dlSetmax => .dlSetmax c a | .dlClear => .dlClear
  | .cfRun => .cfRun a | .cfSetsr => .cfSetsr a | .cfSettime => .cfSettime a | .cfClear => .cfClear
  | .apRun => .apRun a | .apSetsr => .apSetsr a | .apSettime => .apSettime a | .apClear => .apClear
  | .bqRun => .bqRun a | .bqSetsr => .bqSetsr a | .bqSetcut => .bqSetcut a | .bqSetq => .bqSetq a
  | .bqSetgain => .bqSetgain a | .bqSettype => .bqSettype a | .bqClear => .bqClear
  | .lfoRun => .lfoRun | .lfoSetsr => .lfoSetsr a
  | .rmRun => .rmRun | .rmSetsr => .rmSetsr a
  | .bkRun => .bkRun a b | .bkSetsr => .bkSetsr a | .bkClear => .bkClear

/-- Decoding of a command (rules R83 to R87): the row the fields select, or why there is none. -/
def decodeCommand (k : Command) : Except Illegal Instr :=
  match opcodeAt (classField k.word) (opField k.word) with
  | none => .error (if 8 ≤ classField k.word then .reservedClass else .reservedOp)
  | some o =>
    if zeroField k.word ≠ 0 then .error .zeroField
    else if idxField k.word ≠ 0 ∧ o.usesIdx = false then .error .idxField
    else if clearField k.word = true ∧ o.usesClear = false then .error .clearFlag
    else .ok (o.build (idxField k.word) (clearField k.word) k.a k.b)

/-! ### Encoding -/

/-- The row an instruction stands in. -/
def Instr.opcode : Instr → Opcode
  | .rvRun _ _ => .rvRun | .rvSetsr _ => .rvSetsr | .rvSetwet _ _ => .rvSetwet
  | .rvSetlpf _ => .rvSetlpf | .rvSetmode _ => .rvSetmode | .rvClear => .rvClear
  | .rvGetsr => .rvGetsr | .rvGetwet _ => .rvGetwet | .rvGetlpf => .rvGetlpf
  | .rvGetmode => .rvGetmode | .rvGetout => .rvGetout
  | .dlRun _ => .dlRun | .dlSetsr _ => .dlSetsr | .dlSettime _ => .dlSettime
  | .dlSetmax _ _ => .dlSetmax | .dlClear => .dlClear
  | .cfRun _ => .cfRun | .cfSetsr _ => .cfSetsr | .cfSettime _ => .cfSettime | .cfClear => .cfClear
  | .apRun _ => .apRun | .apSetsr _ => .apSetsr | .apSettime _ => .apSettime | .apClear => .apClear
  | .bqRun _ => .bqRun | .bqSetsr _ => .bqSetsr | .bqSetcut _ => .bqSetcut | .bqSetq _ => .bqSetq
  | .bqSetgain _ => .bqSetgain | .bqSettype _ => .bqSettype | .bqClear => .bqClear
  | .lfoRun => .lfoRun | .lfoSetsr _ => .lfoSetsr
  | .rmRun => .rmRun | .rmSetsr _ => .rmSetsr
  | .bkRun _ _ => .bkRun | .bkSetsr _ => .bkSetsr | .bkClear => .bkClear

/-- The `idx` byte of an instruction's command word: zero where the row does not read it. -/
def Instr.idx : Instr → Nat
  | .rvSetwet i _ => i
  | .rvGetwet i => i
  | _ => 0

/-- The `c` bit of an instruction's command word: zero where the row does not read it. -/
def Instr.clearFlag : Instr → Bool
  | .dlSetmax c _ => c
  | _ => false

/-- Operand `A`: zeros where the command does not use it (rule R90). -/
def Instr.operandA : Instr → Word
  | .rvRun a _ | .rvSetsr a | .rvSetwet _ a | .rvSetlpf a | .rvSetmode a => a
  | .dlRun a | .dlSetsr a | .dlSettime a | .dlSetmax _ a => a
  | .cfRun a | .cfSetsr a | .cfSettime a => a
  | .apRun a | .apSetsr a | .apSettime a => a
  | .bqRun a | .bqSetsr a | .bqSetcut a | .bqSetq a | .bqSetgain a | .bqSettype a => a
  | .lfoSetsr a | .rmSetsr a => a
  | .bkRun a _ | .bkSetsr a => a
  | .rvClear | .rvGetsr | .rvGetwet _ | .rvGetlpf | .rvGetmode | .rvGetout | .dlClear | .cfClear
  | .apClear | .bqClear | .lfoRun | .rmRun | .bkClear => 0

/-- Operand `B`: zeros where the command does not use it. -/
def Instr.operandB : Instr → Word
  | .rvRun _ b | .bkRun _ b => b
  | _ => 0

/-- The class whose devices accept the instruction (rule R84). -/
def Instr.cls (i : Instr) : UnitClass := i.opcode.cls

/-- The command of a well-formed instruction (rules R83, R85, R90). -/
def encode (i : Instr) : Command :=
  { word := wordOf i.cls.code i.opcode.op i.idx i.clearFlag, a := i.operandA, b := i.operandB }

/-! ### The table of rule R85, row by row -/

/-- A row of the opcode map: a word `w` selects it when `w AND mask = pattern` (rule R85). -/
structure OpcodeRow where
  opcode : Opcode
  mnemonic : String
  pattern : CmdWord
  mask : CmdWord
  deriving DecidableEq, Repr

/-- The rows of class `RV`. -/
def rvRows : List OpcodeRow :=
  [ ⟨.rvRun, "RV.RUN", 0x00000000, 0xFFFFFFFF⟩, ⟨.rvSetsr, "RV.SETSR", 0x01000000, 0xFFFFFFFF⟩,
    ⟨.rvSetwet, "RV.SETWET", 0x02000000, 0xFF00FFFF⟩, ⟨.rvSetlpf, "RV.SETLPF", 0x03000000, 0xFFFFFFFF⟩,
    ⟨.rvSetmode, "RV.SETMODE", 0x04000000, 0xFFFFFFFF⟩, ⟨.rvClear, "RV.CLEAR", 0x05000000, 0xFFFFFFFF⟩,
    ⟨.rvGetsr, "RV.GETSR", 0x06000000, 0xFFFFFFFF⟩, ⟨.rvGetwet, "RV.GETWET", 0x07000000, 0xFF00FFFF⟩,
    ⟨.rvGetlpf, "RV.GETLPF", 0x08000000, 0xFFFFFFFF⟩, ⟨.rvGetmode, "RV.GETMODE", 0x09000000, 0xFFFFFFFF⟩,
    ⟨.rvGetout, "RV.GETOUT", 0x0A000000, 0xFFFFFFFF⟩ ]

/-- The rows of classes `DL`, `CF`, `AP`. -/
def lineRows : List OpcodeRow :=
  [ ⟨.dlRun, "DL.RUN", 0x10000000, 0xFFFFFFFF⟩, ⟨.dlSetsr, "DL.SETSR", 0x11000000, 0xFFFFFFFF⟩,
    ⟨.dlSettime, "DL.SETTIME", 0x12000000, 0xFFFFFFFF⟩, ⟨.dlSetmax, "DL.SETMAX", 0x13000000, 0xFFFFFFFE⟩,
    ⟨.dlClear, "DL.CLEAR", 0x17000000, 0xFFFFFFFF⟩,
    ⟨.cfRun, "CF.RUN", 0x20000000, 0xFFFFFFFF⟩, ⟨.cfSetsr, "CF.SETSR", 0x21000000, 0xFFFFFFFF⟩,
    ⟨.cfSettime, "CF.SETTIME", 0x22000000, 0xFFFFFFFF⟩, ⟨.cfClear, "CF.CLEAR", 0x27000000, 0xFFFFFFFF⟩,
    ⟨.apRun, "AP.RUN", 0x30000000, 0xFFFFFFFF⟩, ⟨.apSetsr, "AP.SETSR", 0x31000000, 0xFFFFFFFF⟩,
    ⟨.apSettime, "AP.SETTIME", 0x32000000, 0xFFFFFFFF⟩, ⟨.apClear, "AP.CLEAR", 0x37000000, 0xFFFFFFFF⟩ ]

/-- The rows of classes `BQ`, `LFO`, `RM`, `BK`. -/
def otherRows : List OpcodeRow :=
  [ ⟨.bqRun, "BQ.RUN", 0x40000000, 0xFFFFFFFF⟩, ⟨.bqSetsr, "BQ.SETSR", 0x41000000, 0xFFFFFFFF⟩,
    ⟨.bqSetcut, "BQ.SETCUT", 0x42000000, 0xFFFFFFFF⟩, ⟨.bqSetq, "BQ.SETQ", 0x43000000, 0xFFFFFFFF⟩,
    ⟨.bqSetgain, "BQ.SETGAIN", 0x44000000, 0xFFFFFFFF⟩, ⟨.bqSettype, "BQ.SETTYPE", 0x45000000, 0xFFFFFFFF⟩,
    ⟨.bqClear, "BQ.CLEAR", 0x47000000, 0xFFFFFFFF⟩,
    ⟨.lfoRun, "LFO.RUN", 0x50000000, 0xFFFFFFFF⟩, ⟨.lfoSetsr, "LFO.SETSR", 0x51000000, 0xFFFFFFFF⟩,
    ⟨.rmRun, "RM.RUN", 0x60000000, 0xFFFFFFFF⟩, ⟨.rmSetsr, "RM.SETSR", 0x61000000, 0xFFFFFFFF⟩,
    ⟨.bkRun, "BK.RUN", 0x70000000, 0xFFFFFFFF⟩, ⟨.bkSetsr, "BK.SETSR", 0x71000000, 0xFFFFFFFF⟩,
    ⟨.bkClear, "BK.CLEAR", 0x77000000, 0xFFFFFFFF⟩ ]

/-- The whole opcode map of rule R85, 38 rows in its order. -/
def opcodeRows : List OpcodeRow := rvRows ++ lineRows ++ otherRows

/-- The row selects the word (rule R85). -/
def OpcodeRow.selects (r : OpcodeRow) (w : CmdWord) : Bool := w &&& r.mask == r.pattern

/-! ### The bits of a table row (the host's numbering) -/

/-- A command from one number: bits `31:0` the command word, `95:32` operand `A`, `159:96` operand `B`. -/
def Command.ofBits (w : Nat) : Command :=
  { word := BitVec.ofNat 32 w, a := BitVec.ofNat 64 (w / 2 ^ 32), b := BitVec.ofNat 64 (w / 2 ^ 96) }

/-- The instruction the decoder reads from the `nbits` bits `w`, the bits above them zero. -/
def decodeTableWord (nbits w : Nat) : Option Instr :=
  (decodeCommand (Command.ofBits (w % 2 ^ nbits))).toOption

/-! ### Assembler (rules R90, R91) -/

/-- A line of the assembler of rule R90, its literals already read as 64-bit operand words: a decimal
binary64 literal as its pattern, a decimal integer as two's complement, an absent operand as `none`. -/
structure AsmLine where
  opcode : Opcode
  idx : Option Nat
  c : Option Bool
  a : Option Word
  b : Option Word
  deriving DecidableEq, Repr

/-- How many operand words a row reads (rule R85, columns `A` and `B`). -/
def Opcode.operands : Opcode → Nat
  | .rvRun | .bkRun => 2
  | .rvClear | .rvGetsr | .rvGetwet | .rvGetlpf | .rvGetmode | .rvGetout | .dlClear | .cfClear
  | .apClear | .bqClear | .lfoRun | .rmRun | .bkClear => 0
  | _ => 1

/-- How many result words a row produces (rule R85, columns `R0` and `R1`). -/
def Opcode.results : Opcode → Nat
  | .rvRun | .rvGetout | .bkRun => 2
  | .rvGetsr | .rvGetwet | .rvGetlpf | .rvGetmode | .dlRun | .cfRun | .apRun | .bqRun | .lfoRun | .rmRun => 1
  | .rvSetsr | .rvSetwet | .rvSetlpf | .rvSetmode | .rvClear
  | .dlSetsr | .dlSettime | .dlSetmax | .dlClear
  | .cfSetsr | .cfSettime | .cfClear | .apSetsr | .apSettime | .apClear
  | .bqSetsr | .bqSetcut | .bqSetq | .bqSetgain | .bqSettype | .bqClear
  | .lfoSetsr | .rmSetsr | .bkSetsr | .bkClear => 0

/-- A line assembles when it gives exactly the operands its row reads: `idx` and `c` where the row uses
them, `A` and `B` as many as the row has (rule R90). -/
def AsmLine.accepted (l : AsmLine) : Bool :=
  (l.idx.isSome == l.opcode.usesIdx) && l.idx.all idxFits && (l.c.isSome == l.opcode.usesClear)
    && (l.a.isSome == decide (1 ≤ l.opcode.operands)) && (l.b.isSome == decide (2 ≤ l.opcode.operands))

/-- The instruction of a line (rule R90); unused operands are driven to zeros. -/
def AsmLine.assemble (l : AsmLine) : Option Instr :=
  if l.accepted then some (l.opcode.build (l.idx.getD 0) (l.c.getD false) (l.a.getD 0) (l.b.getD 0))
  else none

/-- The pseudo-instruction `RV.INIT sr, w1, w2, w3, w4, cutoff, mode` (rule R91): seven commands, in this
order. -/
def rvInit (sr w1 w2 w3 w4 cutoff mode : Word) : List Instr :=
  [.rvSetsr sr, .rvSetwet 1 w1, .rvSetwet 2 w2, .rvSetwet 3 w3, .rvSetwet 4 w4, .rvSetlpf cutoff,
    .rvSetmode mode]

end Sys2Proof
end

