-- ==== Sys2Proof/Config.lean ====
section
/-! DEFINITION. What the spec leaves open, as constants with no body (rules R8 to R12, R170; entries
U2, U3, U6, U10, U11), and the reset parameters that have defaults (rule R12). The constants here are RAW:
`Machine/Environment.lean` gives each the form its rule fixes, and only that form is used. -/

namespace Sys2Proof

/-- The eight biquad types of rule R141, in its order. -/
inductive BiquadType where
  | lowpass | highpass | bandpass | bandreject | allpass | lowShelf | highShelf | peak
  deriving DecidableEq, Repr, Inhabited

/-- The five derived coefficients of a biquad (rule R30). -/
structure Coefs where
  a1 : F
  a2 : F
  b0 : F
  b1 : F
  b2 : F
  deriving DecidableEq, Repr, Inhabited

/-- The record of a comb filter (rule R11), times in milliseconds. -/
structure CombRec where
  maxTime : F
  time : F
  gain : F
  feedforward : F
  feedback : F
  deriving DecidableEq, Repr, Inhabited

/-- The record of an allpass filter (rule R11), times in milliseconds. -/
structure AllpassRec where
  maxTime : F
  time : F
  gain : F
  deriving DecidableEq, Repr, Inhabited

/-- The record of a block's lowpass (rule R11). -/
structure LowpassRec where
  cutoff : F
  q : F
  deriving DecidableEq, Repr, Inhabited

/-- The binding of a modulator of block 3; its target is filter 3 of its channel (rule R11). -/
structure LfoRec where
  frequency : F
  k : F
  baseOffset : F
  deriving DecidableEq, Repr, Inhabited

/-- The binding of a modulator of block 4 (rule R11). -/
structure RmRec where
  frequency : F
  k : F
  baseOffset : F
  target : Tap
  deriving DecidableEq, Repr, Inhabited

/-- The table `TUNING` of rule R11. `lp1` is `TUNING.lp[1]`, and so on. -/
structure Tuning where
  comb1 : Stereo (Pair CombRec)
  comb2 : Stereo (Pair CombRec)
  ap3 : Stereo (Chain4 AllpassRec)
  ap4 : Stereo (Chain6 AllpassRec)
  lp1 : Stereo LowpassRec
  lp2 : Stereo LowpassRec
  lp3 : Stereo LowpassRec
  lp4 : Stereo LowpassRec
  lfo3 : Stereo LfoRec
  rm4 : Stereo (Pair RmRec)
  outQ : F
  deriving DecidableEq, Repr, Inhabited

/-- The kinds of a block (rules R35, R181). -/
inductive BlockKind where
  | k1 | k2 | k3 | k4
  deriving DecidableEq, Repr, Inhabited

/-- The construction parameters of a leaf instantiated alone (rules R24, R27, R28, R30, R32, R33, R35,
R252, decision D48). -/
structure LeafParams where
  dlRate : F
  dlMaxTime : F
  dlTime : F
  dlFeedback : F
  cfRate : F
  cfRec : CombRec
  apRate : F
  apRec : AllpassRec
  bqType : Int
  bqCutoff : F
  bqQ : F
  bqGain : F
  bqRate : F
  lfoRate : F
  lfoFrequency : F
  rmRate : F
  rmFrequency : F
  bkKind : BlockKind
  bkRate : F
  deriving DecidableEq, Repr, Inhabited

/-- The open plain data of the device: `TUNING`, `RESET_LPF`, `CAP_MAX` and the parameters of a lone leaf
(rules R9, R11, R12, R252). -/
structure Params where
  tuning : Tuning
  resetLpf : F
  capMax : Nat
  leaf : LeafParams
  deriving DecidableEq, Repr, Inhabited

/-- Raw value of the open plain data. -/
opaque Config.paramsRaw : Params

/-- Raw sine (rule R8). -/
opaque Config.sinRaw : F → F

/-- Raw cosine (rule R8). -/
opaque Config.cosRaw : F → F

/-- `COEF` for the types that do not branch on the sign of `gain`: arguments type, cutoff, q, gain, sample
rate (rule R10). -/
opaque Config.coefPlain : BiquadType → F → F → F → F → Coefs

/-- `COEF` of the shelving and peak types for `gain > 0` (rule R150). -/
opaque Config.coefBoost : BiquadType → F → F → F → F → Coefs

/-- `COEF` of the shelving and peak types for `gain ≤ 0` (rule R150). -/
opaque Config.coefCut : BiquadType → F → F → F → F → Coefs

/-- Raw answer of a private random generator: first argument the value of the free counter, second the
modulator that draws (rule R170, entry U2). -/
opaque Config.drawRaw : Nat → Nat → F

/-- Raw NaN pattern on a result port: first argument the value of the free counter, second the port
(rule R14, entry U6). -/
opaque Config.nanRaw : Nat → Nat → Word

/-- What `floor` gives for a NaN or an infinity (rule R16 leaves it outside the specified behaviour). -/
opaque Config.floorOpen : F → Int

/-- What `ceil` gives for a NaN or an infinity (rule R16 leaves it outside the specified behaviour). -/
opaque Config.ceilOpen : F → Int

end Sys2Proof
end

