-- ==== Sys2Proof/Machine/Arith.lean ====
section
/-! DEFINITION. Binary64 arithmetic as rules R7, R14 and R16 fix it: the operations of the IEEE 754
standard, rounded to nearest even, each rounded once. The exact result is computed as a fraction of
integers, in units of the least subnormal 2^-1074, and rounded at the end. -/

namespace Sys2Proof

/-! ### Patterns -/

/-- `toF` (rule R18): the value with a bit pattern; every NaN pattern is the one `nan`. -/
def F.ofBits (w : Word) : F :=
  let m := w.toNat % 2 ^ 63
  if h : m < magLimit then .fin w.msb ⟨m, h⟩
  else if m = magLimit then .inf w.msb
  else .nan

/-- The pattern of a value that is no NaN; `nan` gives the pattern `q` supplied (entry U6). -/
def F.toBitsOr (q : Word) : F → Word
  | .nan => q
  | .inf s => BitVec.ofNat 64 (s.toNat * 2 ^ 63 + magLimit)
  | .fin s m => BitVec.ofNat 64 (s.toNat * 2 ^ 63 + m.val)

/-- A pattern that is a NaN. -/
def isNanPattern (w : Word) : Bool := decide (magLimit < w.toNat % 2 ^ 63)

/-! ### Constants (rules R8, R17) -/

/-- `+0.0`. -/
def F.zero : F := F.ofBits 0x0000000000000000
/-- `1.0`. -/
def F.one : F := F.ofBits 0x3FF0000000000000
/-- `-1.0`. -/
def F.negOne : F := F.ofBits 0xBFF0000000000000
/-- `2.0`. -/
def F.two : F := F.ofBits 0x4000000000000000
/-- `0.5`. -/
def F.half : F := F.ofBits 0x3FE0000000000000
/-- `0.25`. -/
def F.quarter : F := F.ofBits 0x3FD0000000000000
/-- `0.707`, the source's literal, not `1/√2`. -/
def F.c707 : F := F.ofBits 0x3FE69FBE76C8B439
/-- `1000.0`. -/
def F.thousand : F := F.ofBits 0x408F400000000000
/-- `PI`. -/
def F.pi : F := F.ofBits 0x400921FB54442D18
/-- `TWO_PI`. -/
def F.twoPi : F := F.ofBits 0x401921FB54442D18

/-! ### Classification -/

/-- Neither a NaN nor an infinity. -/
def F.isFinite : F → Bool
  | .fin _ _ => true
  | _ => false

/-- A NaN. -/
def F.isNan : F → Bool
  | .nan => true
  | _ => false

/-! ### Exact values and rounding -/

/-- Units of a subnormal grid step, 2^-1074, in 1.0. -/
def unitsPerOne : Nat := 2 ^ 1074

/-- The exact value of a magnitude, in units of 2^-1074: exponent code 0 is subnormal, a code `e ≥ 1`
has the hidden bit and weight 2^(e-1). -/
def magUnits (m : Nat) : Nat :=
  if m / 2 ^ 52 = 0 then m else (2 ^ 52 + m % 2 ^ 52) * 2 ^ (m / 2 ^ 52 - 1)

/-- The exact value of a finite `F` in units of 2^-1074; 0 for the others. -/
def F.units : F → Int
  | .fin s m => if s then -(magUnits m.val : Int) else (magUnits m.val : Int)
  | _ => 0

/-- The integer nearest `n / d`, ties to even. -/
def divNearestEven (n d : Nat) : Nat :=
  let q := n / d
  let r := n % d
  if 2 * r < d then q
  else if d < 2 * r then q + 1
  else if q % 2 = 0 then q else q + 1

/-- The magnitude nearest `n / d` units, ties to even, not yet bounded: `k` is the binary exponent of the
grid the value falls on. -/
def roundMag (n d : Nat) : Nat :=
  let k := Nat.log2 (n / d) - 52
  k * 2 ^ 52 + divNearestEven n (d * 2 ^ k)

/-- `± n / d` units rounded to nearest even; beyond the largest finite value, an infinity. -/
def F.roundUnits (neg : Bool) (n d : Nat) : F :=
  if h : roundMag n d < magLimit then .fin neg ⟨roundMag n d, h⟩ else .inf neg

/-! ### The operations (rule R14) -/

/-- Unary minus flips the sign. -/
def F.neg : F → F
  | .nan => .nan
  | .inf s => .inf (!s)
  | .fin s m => .fin (!s) m

/-- `a + b`. An exact zero sum is `-0.0` only when both operands are negative. -/
def F.add : F → F → F
  | .nan, _ => .nan
  | .inf _, .nan => .nan
  | .inf s, .inf t => if s = t then .inf s else .nan
  | .inf s, .fin _ _ => .inf s
  | .fin _ _, .nan => .nan
  | .fin _ _, .inf t => .inf t
  | .fin s m, .fin t n =>
    let z := (F.fin s m).units + (F.fin t n).units
    if z = 0 then F.roundUnits (s && t) 0 1
    else F.roundUnits (decide (z < 0)) z.natAbs 1

/-- `a - b`. -/
def F.sub (a b : F) : F := a.add b.neg

/-- `a * b`. -/
def F.mul : F → F → F
  | .nan, _ => .nan
  | .inf _, .nan => .nan
  | .inf s, .inf t => .inf (s ^^ t)
  | .inf s, .fin t n => if n.val = 0 then .nan else .inf (s ^^ t)
  | .fin _ _, .nan => .nan
  | .fin s m, .inf t => if m.val = 0 then .nan else .inf (s ^^ t)
  | .fin s m, .fin t n => F.roundUnits (s ^^ t) (magUnits m.val * magUnits n.val) unitsPerOne

/-- `a / b`. -/
def F.div : F → F → F
  | .nan, _ => .nan
  | .inf _, .nan => .nan
  | .inf _, .inf _ => .nan
  | .inf s, .fin t _ => .inf (s ^^ t)
  | .fin _ _, .nan => .nan
  | .fin s _, .inf t => F.roundUnits (s ^^ t) 0 1
  | .fin s m, .fin t n =>
    if n.val = 0 then (if m.val = 0 then .nan else .inf (s ^^ t))
    else F.roundUnits (s ^^ t) (magUnits m.val * unitsPerOne) (magUnits n.val)

/-! ### Integers (rule R16) -/

/-- `floor`, exact for a finite value; a free value otherwise. -/
def F.floor (x : F) : Int :=
  if x.isFinite then x.units / (unitsPerOne : Int) else Config.floorOpen x

/-- `ceil`, exact for a finite value; a free value otherwise. -/
def F.ceil (x : F) : Int :=
  if x.isFinite then -((-x.units) / (unitsPerOne : Int)) else Config.ceilOpen x

/-- `toF(n)` of an integer: exact up to 2^53 in magnitude, nearest even above. -/
def F.ofInt (n : Int) : F := F.roundUnits (decide (n < 0)) (n.natAbs * unitsPerOne) 1

/-- `i mod n` for `n > 0`: the remainder in `0 .. n-1`, also for a negative `i` (rule R16). -/
def modPos (i : Int) (n : Nat) : Nat := (i % (n : Int)).toNat

/-! ### Samples and milliseconds -/

/-- `(time * sample_rate) / 1000.0`: a delay in samples (rules R25, R106). -/
def samplesOf (time rate : F) : F := (time.mul rate).div F.thousand

/-- `ceil((max_time * sample_rate) / 1000.0) + 1` (rules R24, R64). -/
def capacityOf (maxTime rate : F) : Nat := ((samplesOf maxTime rate).ceil + 1).toNat

end Sys2Proof
end

