-- ==== Sys2Proof/Machine/Flags.lean ====
section
/-! DEFINITION. Conditions. The device has no status flag, condition code or predicate (rule R23), so no
flag computation exists; what stands here is what its rules decide by: the IEEE comparisons and the clamp
of rule R15, and the clamps of the two integer controls (rules R147, R213). -/

namespace Sys2Proof

/-- The place of a value in the order of rule R15: its signed magnitude, so that `-0.0` and `+0.0` are
one place and the infinities the ends; a NaN has no place. -/
def F.key : F → Option Int
  | .nan => none
  | .inf s => some (if s then -(magLimit : Int) else magLimit)
  | .fin s m => some (if s then -(m.val : Int) else m.val)

/-- `a < b`, false when either side is NaN (rule R15). -/
def F.lt (a b : F) : Bool :=
  match a.key, b.key with
  | some x, some y => decide (x < y)
  | _, _ => false

/-- `a ≤ b`, false when either side is NaN. -/
def F.le (a b : F) : Bool :=
  match a.key, b.key with
  | some x, some y => decide (x ≤ y)
  | _, _ => false

/-- IEEE equality, false when either side is NaN: `-0.0` equals `+0.0`. -/
def F.eqv (a b : F) : Bool := a.le b && b.le a

/-- `clamp(x, lo, hi)` (rule R15). -/
def clamp (x lo hi : F) : F := if x.lt lo then lo else if hi.lt x then hi else x

/-- `if sr < 1.0 then 1.0 else sr`, the clamp of every sample rate (rules R24, R30, R32, R33, R104). -/
def clampRate (sr : F) : F := if sr.lt F.one then F.one else sr

/-- The Nyquist frequency, `sample_rate / 2.0` (rule R19). -/
def nyquist (rate : F) : F := rate.div F.two

/-- The routing modes of rule R201. -/
inductive Mode where
  | parallel | serial | hybrid
  deriving DecidableEq, Repr, Inhabited

/-- The integer of a mode. -/
def Mode.code : Mode → Nat
  | .parallel => 0 | .serial => 1 | .hybrid => 2

/-- The mode an integer is clamped to (rule R213). -/
def Mode.ofInt (t : Int) : Mode :=
  if t < 0 then .parallel else if t > 2 then .hybrid
  else if t = 0 then .parallel else if t = 1 then .serial else .hybrid

/-- The integer of a biquad type (rule R141). -/
def BiquadType.code : BiquadType → Nat
  | .lowpass => 0 | .highpass => 1 | .bandpass => 2 | .bandreject => 3
  | .allpass => 4 | .lowShelf => 5 | .highShelf => 6 | .peak => 7

/-- The biquad type an integer is clamped to (rule R147). -/
def BiquadType.ofInt (t : Int) : BiquadType :=
  if t < 1 then .lowpass else if t < 2 then .highpass else if t < 3 then .bandpass
  else if t < 4 then .bandreject else if t < 5 then .allpass else if t < 6 then .lowShelf
  else if t < 7 then .highShelf else .peak

end Sys2Proof
end

