-- ==== Sys2Proof/Machine/Environment.lean ====
section
/-! DEFINITION. The configuration in the form the rules fix (rules R8 to R12, R150, R170): each raw
constant of `Config.lean` restricted to the values its rule allows. A raw value outside the rule's
constraint is replaced, so every allowed value is possible and no other is. -/

namespace Sys2Proof

/-- `SIN`: total, with `SIN(+0.0) = +0.0`; nothing else is fixed (rule R8). -/
def sinF (x : F) : F := if x = F.zero then F.zero else Config.sinRaw x

/-- `COS`: total, with `COS(+0.0) = 1.0`; nothing else is fixed (rule R8). -/
def cosF (x : F) : F := if x = F.zero then F.one else Config.cosRaw x

/-- `COEF` (rules R10, R150): for the shelving and peak types, boost for `gain > 0` and cut for
`gain ≤ 0` are different coefficient sets; every set is open. -/
def coef (type : BiquadType) (cutoff q gain rate : F) : Coefs :=
  match type with
  | .lowShelf | .highShelf | .peak =>
    if F.zero.lt gain then Config.coefBoost type cutoff q gain rate
    else Config.coefCut type cutoff q gain rate
  | .lowpass | .highpass | .bandpass | .bandreject | .allpass =>
    Config.coefPlain type cutoff q gain rate

/-- A draw is a finite `F` with `-1.0 ≤ r ≤ 1.0` (rule R170). -/
def legalDraw (r : F) : Bool := F.negOne.le r && r.le F.one

/-- The answer of `draw` for the modulator `who` at the free counter's value `n` (rule R170). -/
def drawF (n who : Nat) : F :=
  let r := Config.drawRaw n who
  if legalDraw r then r else F.zero

/-- The NaN pattern driven on result port `port` at the free counter's value `n` (entry U6). -/
def nanWord (n port : Nat) : Word :=
  let w := Config.nanRaw n port
  if isNanPattern w then w else 0x7FF8000000000000

/-! ### Reset parameters with defaults (rule R12) -/

/-- `RESET_SR`. -/
def resetSr : F := F.ofBits 0x40E5888000000000

/-- `RESET_MODE`. -/
def resetMode : Int := 0

/-! ### Validity of the open plain data (rules R9, R11, R12, R262) -/

/-- A finite value that is not negative. -/
def finiteNonneg (x : F) : Bool := x.isFinite && F.zero.le x

/-- A finite value above zero. -/
def finitePos (x : F) : Bool := x.isFinite && F.zero.lt x

/-- A line of this length fits the delay memory: the capacity is defined and at most `CAP_MAX`
(rules R9, R262). -/
def capacityFits (capMax : Nat) (maxTime rate : F) : Bool :=
  (samplesOf maxTime rate).isFinite && decide (capacityOf maxTime rate ≤ capMax)

/-- Rule R11's constraints on the record of a comb filter. -/
def CombRec.valid (r : CombRec) : Bool :=
  finiteNonneg r.maxTime && r.time.isFinite && r.gain.isFinite && r.feedforward.isFinite
    && r.feedback.isFinite

/-- Rule R11's constraints on the record of an allpass filter. -/
def AllpassRec.valid (r : AllpassRec) : Bool :=
  finiteNonneg r.maxTime && r.time.isFinite && r.gain.isFinite

/-- Rule R11's constraint on the record of a lowpass. -/
def LowpassRec.valid (r : LowpassRec) : Bool := r.cutoff.isFinite && r.q.isFinite

/-- Rule R11's constraints on a modulator of block 3. -/
def LfoRec.valid (r : LfoRec) : Bool := finitePos r.frequency && r.k.isFinite && r.baseOffset.isFinite

/-- Rule R11's constraints on a modulator of block 4. -/
def RmRec.valid (r : RmRec) : Bool := finitePos r.frequency && r.k.isFinite && r.baseOffset.isFinite

/-- A property of both channels. -/
def Stereo.all {α : Type} (p : α → Bool) (s : Stereo α) : Bool := p s.left && p s.right

/-- A property of both members. -/
def Pair.all {α : Type} (p : α → Bool) (s : Pair α) : Bool := p s.first && p s.second

/-- A property of all four filters. -/
def Chain4.all {α : Type} (p : α → Bool) (s : Chain4 α) : Bool := p s.f1 && p s.f2 && p s.f3 && p s.f4

/-- A property of all six filters. -/
def Chain6.all {α : Type} (p : α → Bool) (s : Chain6 α) : Bool :=
  p s.f1 && p s.f2 && p s.f3 && p s.f4 && p s.f5 && p s.f6

/-- One function on both channels. -/
def Stereo.map {α β : Type} (f : α → β) (s : Stereo α) : Stereo β := ⟨f s.left, f s.right⟩

/-- One function on both members. -/
def Pair.map {α β : Type} (f : α → β) (s : Pair α) : Pair β := ⟨f s.first, f s.second⟩

/-- One function on all four filters. -/
def Chain4.map {α β : Type} (f : α → β) (s : Chain4 α) : Chain4 β := ⟨f s.f1, f s.f2, f s.f3, f s.f4⟩

/-- One function on all six filters. -/
def Chain6.map {α β : Type} (f : α → β) (s : Chain6 α) : Chain6 β :=
  ⟨f s.f1, f s.f2, f s.f3, f s.f4, f s.f5, f s.f6⟩

/-- Rule R11's constraints on the whole table. -/
def Tuning.valid (t : Tuning) : Bool :=
  t.comb1.all (·.all CombRec.valid) && t.comb2.all (·.all CombRec.valid)
    && t.ap3.all (·.all AllpassRec.valid) && t.ap4.all (·.all AllpassRec.valid)
    && t.lp1.all LowpassRec.valid && t.lp2.all LowpassRec.valid
    && t.lp3.all LowpassRec.valid && t.lp4.all LowpassRec.valid
    && t.lfo3.all LfoRec.valid
    && t.rm4.all (fun p => p.all RmRec.valid && decide (p.first.target ≠ p.second.target))
    && t.outQ.isFinite

/-- Every tuned `max_time` fits the delay memory at a sample rate (rule R262: at or below `SR_MAX`). -/
def Tuning.fits (capMax : Nat) (rate : F) (t : Tuning) : Bool :=
  t.comb1.all (·.all fun r => capacityFits capMax r.maxTime rate)
    && t.comb2.all (·.all fun r => capacityFits capMax r.maxTime rate)
    && t.ap3.all (·.all fun r => capacityFits capMax r.maxTime rate)
    && t.ap4.all (·.all fun r => capacityFits capMax r.maxTime rate)

/-- The construction parameters of a lone leaf are finite, its frequencies positive, and its lines fit
(rules R33, R252, R262; entry U5). -/
def LeafParams.valid (capMax : Nat) (t : Tuning) (p : LeafParams) : Bool :=
  p.dlRate.isFinite && finiteNonneg p.dlMaxTime && p.dlTime.isFinite && p.dlFeedback.isFinite
    && capacityFits capMax p.dlMaxTime (clampRate p.dlRate)
    && p.cfRate.isFinite && p.cfRec.valid && capacityFits capMax p.cfRec.maxTime (clampRate p.cfRate)
    && p.apRate.isFinite && p.apRec.valid && capacityFits capMax p.apRec.maxTime (clampRate p.apRate)
    && p.bqCutoff.isFinite && p.bqQ.isFinite && p.bqGain.isFinite && p.bqRate.isFinite
    && p.lfoRate.isFinite && p.lfoFrequency.isFinite
    && p.rmRate.isFinite && finitePos p.rmFrequency
    && p.bkRate.isFinite && t.fits capMax (clampRate p.bkRate)

/-- All the constraints the spec puts on the open plain data. -/
def Params.valid (p : Params) : Bool :=
  decide (1 ≤ p.capMax) && p.tuning.valid && p.tuning.fits p.capMax (clampRate resetSr)
    && finiteNonneg p.resetLpf && p.resetLpf.le (nyquist resetSr)
    && p.leaf.valid p.capMax p.tuning

/-- Parameters that satisfy every constraint, for the case that the raw ones do not: lines of one word,
modulators at 1 Hz. -/
def Params.fallback : Params :=
  let c : CombRec := ⟨F.zero, F.zero, F.zero, F.zero, F.zero⟩
  let a : AllpassRec := ⟨F.zero, F.zero, F.zero⟩
  let l : LowpassRec := ⟨F.zero, F.one⟩
  let o : LfoRec := ⟨F.one, F.zero, F.zero⟩
  let c2 : Stereo (Pair CombRec) := ⟨⟨c, c⟩, ⟨c, c⟩⟩
  let l2 : Stereo LowpassRec := ⟨l, l⟩
  let r2 : Pair RmRec := ⟨⟨F.one, F.zero, F.zero, .t1⟩, ⟨F.one, F.zero, F.zero, .t2⟩⟩
  { tuning :=
      { comb1 := c2, comb2 := c2, ap3 := ⟨⟨a, a, a, a⟩, ⟨a, a, a, a⟩⟩,
        ap4 := ⟨⟨a, a, a, a, a, a⟩, ⟨a, a, a, a, a, a⟩⟩,
        lp1 := l2, lp2 := l2, lp3 := l2, lp4 := l2, lfo3 := ⟨o, o⟩, rm4 := ⟨r2, r2⟩, outQ := F.one },
    resetLpf := F.zero, capMax := 1,
    leaf :=
      { dlRate := F.one, dlMaxTime := F.zero, dlTime := F.zero, dlFeedback := F.zero, cfRate := F.one,
        cfRec := c, apRate := F.one, apRec := a, bqType := 0, bqCutoff := F.zero, bqQ := F.one,
        bqGain := F.zero, bqRate := F.one, lfoRate := F.one, lfoFrequency := F.one, rmRate := F.one,
        rmFrequency := F.one, bkKind := .k1, bkRate := F.one } }

/-- The open plain data of the device, every constraint of the spec satisfied. -/
def params : Params := if Config.paramsRaw.valid then Config.paramsRaw else Params.fallback

/-- `TUNING` (rule R11). -/
def tuning : Tuning := params.tuning

/-- `CAP_MAX` (rule R9). -/
def capMax : Nat := params.capMax

/-- A line with these two controls fits the delay memory of this device (rule R262). -/
def fitsMemory (maxTime rate : F) : Bool := capacityFits capMax maxTime rate

end Sys2Proof
end

