-- ==== Sys2Proof/Machine/Units.lean ====
section
/-! DEFINITION. The state of each unit class as plain data, field by field as the tables of
`10_state.md` list them (rules R24, R27, R28, R30, R32, R33, R35, R36). -/

namespace Sys2Proof.Machine

/-- A delay memory (rule R60): its words that are not `+0.0`, as (word address, value), addresses
strictly rising. An unlisted word is `+0.0`. -/
abbrev Memory := List (Nat × F)

/-- A fractional delay line `DL` (rule R24). -/
structure DelayLine where
  sampleRate : F
  maxTime : F
  time : F
  feedbackGain : F
  capacity : Nat
  buffer : Memory
  writePos : Nat
  lagFloor : Nat
  lagCeil : Nat
  frac : F
  readPosFloor : Nat
  readPosCeil : Nat
  deriving DecidableEq, Repr

/-- A comb filter `CF` (rule R27). -/
structure CombFilter where
  ff : DelayLine
  fb : DelayLine
  gain : F
  feedforward : F
  feedback : F
  out : F
  deriving DecidableEq, Repr

/-- An allpass filter `AP` (rule R28). -/
structure AllpassFilter where
  ff : DelayLine
  fb : DelayLine
  gain : F
  out : F
  deriving DecidableEq, Repr

/-- A biquad filter `BQ` (rule R30); `coefs` holds `a1, a2, b0, b1, b2`. -/
structure Biquad where
  sampleRate : F
  type : BiquadType
  cutoff : F
  q : F
  gain : F
  coefs : Coefs
  w0 : F
  w1 : F
  w2 : F
  deriving DecidableEq, Repr

/-- A periodic modulator `LFO` (rule R32). -/
structure Lfo where
  sampleRate : F
  frequency : F
  phase : F
  deriving DecidableEq, Repr

/-- A smoothed random modulator `RM` (rule R33), less the hidden generator (rule R34). -/
structure RandomMod where
  sampleRate : F
  frequency : F
  stepsPerPeriod : Nat
  elapsedSteps : Nat
  current : F
  next : F
  deriving DecidableEq, Repr

/-- A comb block, kinds 1 and 2 (rules R35, R182): per channel two comb filters and a lowpass. -/
structure CombBlock where
  comb : Stereo (Pair CombFilter)
  lp : Stereo Biquad
  deriving DecidableEq, Repr

/-- The modulated allpass block, kind 3 (rule R35). -/
structure LfoBlock where
  ap : Stereo (Chain4 AllpassFilter)
  lp : Stereo Biquad
  lfo : Stereo Lfo
  deriving DecidableEq, Repr

/-- The long modulated allpass block, kind 4 (rule R35). -/
structure RmBlock where
  ap : Stereo (Chain6 AllpassFilter)
  lp : Stereo Biquad
  rm : Stereo (Pair RandomMod)
  deriving DecidableEq, Repr

/-- A block `BK` instantiated alone: its kind is fixed for its life and says what it owns (rule R35). -/
inductive Block where
  | early (k : CombBlock)
  | midDense (k : CombBlock)
  | lfoAllpass (k : LfoBlock)
  | rmAllpass (k : RmBlock)
  deriving DecidableEq, Repr

/-- `wet[1..4]` (rule R36). -/
structure Wets where
  w1 : F
  w2 : F
  w3 : F
  w4 : F
  deriving DecidableEq, Repr

/-- The reverberator `RV`, the device's top level (rule R36). -/
structure Reverb where
  sampleRate : F
  wet : Wets
  mode : Mode
  lowpassCutoff : F
  last : Stereo F
  block1 : CombBlock
  block2 : CombBlock
  block3 : LfoBlock
  block4 : RmBlock
  olp : Stereo Biquad
  deriving DecidableEq, Repr

/-- One device: an instance of one unit class (rule R84). -/
inductive Device where
  | rv (v : Reverb)
  | dl (d : DelayLine)
  | cf (c : CombFilter)
  | ap (a : AllpassFilter)
  | bq (q : Biquad)
  | lfo (l : Lfo)
  | rm (m : RandomMod)
  | bk (k : Block)
  deriving DecidableEq, Repr

/-- The class of a device. -/
def Device.cls : Device → UnitClass
  | .rv _ => .rv | .dl _ => .dl | .cf _ => .cf | .ap _ => .ap
  | .bq _ => .bq | .lfo _ => .lfo | .rm _ => .rm | .bk _ => .bk

/-- The kind of a block (rule R35). -/
def Block.kind : Block → BlockKind
  | .early _ => .k1 | .midDense _ => .k2 | .lfoAllpass _ => .k3 | .rmAllpass _ => .k4

end Sys2Proof.Machine
end

