-- ==== Sys2Proof/Machine/Construct.lean ====
section
/-! DEFINITION. Construction, which is reset (rule R250): every field of a new unit gets the value of the
last column of its table in `10_state.md`. -/

namespace Sys2Proof.Machine

/-- The step every change of a delay time ends with (rule R106): from `time` and `sample_rate`, the two
lags, the interpolation weight and both read positions. -/
def relag (d : DelayLine) : DelayLine :=
  let ds := samplesOf d.time d.sampleRate
  let lo := ds.floor
  let hi := ds.ceil
  { d with
    lagFloor := lo.toNat
    lagCeil := hi.toNat
    frac := ds.sub (F.ofInt lo)
    readPosFloor := modPos ((d.writePos : Int) - (lo.toNat : Int)) d.capacity
    readPosCeil := modPos ((d.writePos : Int) - ((hi.toNat % d.capacity : Nat) : Int)) d.capacity }

/-- `DL(sr0, max_time0, time0, fb0)` (rule R24). -/
def mkDelayLine (sr0 maxTime0 time0 fb0 : F) : DelayLine :=
  let sr := clampRate sr0
  let mx := if maxTime0.lt F.zero then F.zero else maxTime0
  relag
    { sampleRate := sr, maxTime := mx, time := clamp time0 F.zero mx, feedbackGain := fb0,
      capacity := capacityOf mx sr, buffer := [], writePos := 0, lagFloor := 0, lagCeil := 0,
      frac := F.zero, readPosFloor := 0, readPosCeil := 0 }

/-- `CF(sr0, rec)` (rule R27). -/
def mkCombFilter (sr0 : F) (r : CombRec) : CombFilter :=
  { ff := mkDelayLine sr0 r.maxTime r.time F.zero, fb := mkDelayLine sr0 r.maxTime r.time F.zero,
    gain := r.gain, feedforward := r.feedforward, feedback := r.feedback, out := F.zero }

/-- `AP(sr0, rec)` (rule R28). -/
def mkAllpassFilter (sr0 : F) (r : AllpassRec) : AllpassFilter :=
  { ff := mkDelayLine sr0 r.maxTime r.time F.zero, fb := mkDelayLine sr0 r.maxTime r.time F.zero,
    gain := r.gain, out := F.zero }

/-- `BQ(type0, cutoff0, q0, gain0, sr0)` (rule R30). -/
def mkBiquad (type0 : Int) (cutoff0 q0 gain0 sr0 : F) : Biquad :=
  let sr := clampRate sr0
  let cutoff := clamp cutoff0 F.zero (nyquist sr)
  { sampleRate := sr, type := BiquadType.ofInt type0, cutoff := cutoff, q := q0, gain := gain0,
    coefs := coef (BiquadType.ofInt type0) cutoff q0 gain0 sr, w0 := F.zero, w1 := F.zero, w2 := F.zero }

/-- `LFO(sr0, frequency)` (rule R32). -/
def mkLfo (sr0 frequency : F) : Lfo :=
  { sampleRate := clampRate sr0, frequency := frequency, phase := F.zero }

/-- `ceil(sample_rate / frequency)` (rules R33, R166), at least 1 where the quotient is not finite and the
value is open. -/
def periodOf (rate frequency : F) : Nat :=
  let x := rate.div frequency
  if x.isFinite then x.ceil.toNat else max 1 x.ceil.toNat

/-- `RM(sr0, frequency)` (rule R33). -/
def mkRandomMod (sr0 frequency : F) : RandomMod :=
  let sr := clampRate sr0
  { sampleRate := sr, frequency := frequency, stepsPerPeriod := periodOf sr frequency,
    elapsedSteps := periodOf sr frequency, current := F.zero, next := F.zero }

/-- A block's lowpass, `BQ(0, cutoff, q, 0.0, sr0)` (rule R35). -/
def mkLowpass (sr0 : F) (r : LowpassRec) : Biquad := mkBiquad 0 r.cutoff r.q F.zero sr0

/-- A comb block (rule R35, kinds 1 and 2). -/
def mkCombBlock (sr0 : F) (combs : Stereo (Pair CombRec)) (lp : Stereo LowpassRec) : CombBlock :=
  { comb := combs.map (·.map (mkCombFilter sr0)), lp := lp.map (mkLowpass sr0) }

/-- Block 1 of a tuning (rule R35). -/
def mkBlock1 (t : Tuning) (sr0 : F) : CombBlock := mkCombBlock sr0 t.comb1 t.lp1

/-- Block 2 of a tuning (rule R35). -/
def mkBlock2 (t : Tuning) (sr0 : F) : CombBlock := mkCombBlock sr0 t.comb2 t.lp2

/-- Block 3 of a tuning (rule R35). -/
def mkBlock3 (t : Tuning) (sr0 : F) : LfoBlock :=
  { ap := t.ap3.map (·.map (mkAllpassFilter sr0)), lp := t.lp3.map (mkLowpass sr0),
    lfo := t.lfo3.map (fun r => mkLfo sr0 r.frequency) }

/-- Block 4 of a tuning (rule R35). -/
def mkBlock4 (t : Tuning) (sr0 : F) : RmBlock :=
  { ap := t.ap4.map (·.map (mkAllpassFilter sr0)), lp := t.lp4.map (mkLowpass sr0),
    rm := t.rm4.map (·.map fun r => mkRandomMod sr0 r.frequency) }

/-- `BK(kind, sr0)` (rule R35). -/
def mkBlock (t : Tuning) (kind : BlockKind) (sr0 : F) : Block :=
  match kind with
  | .k1 => .early (mkBlock1 t sr0)
  | .k2 => .midDense (mkBlock2 t sr0)
  | .k3 => .lfoAllpass (mkBlock3 t sr0)
  | .k4 => .rmAllpass (mkBlock4 t sr0)

/-- The same operation on all four wets. -/
def Wets.map (f : F → F) (w : Wets) : Wets := ⟨f w.w1, f w.w2, f w.w3, f w.w4⟩

/-- `RESET_WET[1..4]`, default `1.0` each (rule R12). -/
def resetWets : Wets := ⟨F.one, F.one, F.one, F.one⟩

/-- The reset procedure of the device (rule R250) from its reset parameters (rule R12): sample rate, the four
wets, mode, lowpass cutoff. -/
def mkReverb (t : Tuning) (sr0 : F) (wet0 : Wets) (mode0 : Int) (lpf0 : F) : Reverb :=
  let sr := clampRate sr0
  let cutoff := clamp lpf0 F.zero (nyquist sr)
  { sampleRate := sr, wet := wet0.map fun w => clamp w F.zero F.one, mode := Mode.ofInt mode0, lowpassCutoff := cutoff,
    last := ⟨F.zero, F.zero⟩,
    block1 := mkBlock1 t sr, block2 := mkBlock2 t sr, block3 := mkBlock3 t sr, block4 := mkBlock4 t sr,
    olp := ⟨mkBiquad 0 cutoff t.outQ F.zero sr, mkBiquad 0 cutoff t.outQ F.zero sr⟩ }

/-- The reset state of a device of each class: the shipped device by rule R250, a leaf instantiated alone
from its own construction parameters (rule R252), a lone block of a given kind. -/
def resetDevice (cls : UnitClass) (kind : BlockKind) : Device :=
  let p := params.leaf
  match cls with
  | .rv => .rv (mkReverb tuning resetSr resetWets resetMode params.resetLpf)
  | .dl => .dl (mkDelayLine p.dlRate p.dlMaxTime p.dlTime p.dlFeedback)
  | .cf => .cf (mkCombFilter p.cfRate p.cfRec)
  | .ap => .ap (mkAllpassFilter p.apRate p.apRec)
  | .bq => .bq (mkBiquad p.bqType p.bqCutoff p.bqQ p.bqGain p.bqRate)
  | .lfo => .lfo (mkLfo p.lfoRate p.lfoFrequency)
  | .rm => .rm (mkRandomMod p.rmRate p.rmFrequency)
  | .bk => .bk (mkBlock tuning kind p.bkRate)

/-- Reset of a device: it keeps its class, and a lone block its kind, which is fixed for the life of the
instance (rules R35, R250, R252). -/
def Device.afterReset (d : Device) : Device :=
  match d with
  | .bk k => resetDevice .bk k.kind
  | _ => resetDevice d.cls params.leaf.bkKind

end Sys2Proof.Machine
end

