-- ==== Sys2Proof/Machine/State.lean ====
section
/-! DEFINITION. The state of the machine, its faults (none) and refusals, and the state after reset. -/

namespace Sys2Proof.Machine

/-- What the host presents on the inputs of the device for one step: `rst`, and a command on
`cmd_word`, `cmd_a`, `cmd_b` (rule R80). With `rst` high the command, if any, is abandoned (rule R232). -/
structure Input where
  rst : Bool
  command : Command
  deriving DecidableEq, Repr

/-- A response: the two result words that stand beside `rsp_valid` (rules R80, R82). -/
structure Response where
  r0 : Word
  r1 : Word
  deriving DecidableEq, Repr

/-- The device between two steps, and what stands on its ports. `device` is the spec's architectural state
(rule R20). `rsp` is the response of the last step, absent while `rsp_valid` is low (rules R80, R81).
`input` is the MODEL's: what the host is going to present, the head first (log 2). `free` is the MODEL's:
the counter that indexes free values (log 6). -/
structure State where
  device : Device
  rsp : Option Response
  input : List Input
  free : Nat
  deriving DecidableEq, Repr

/-- The faults of the machine: none. "The device raises none" (rule R230), so the type is empty. -/
inductive Fault where
  deriving DecidableEq, Repr

/-- Why a step has no meaning. -/
inductive Refusal where
  /-- Raised by an arm of `exec` whose instruction has no meaning yet; no arm is left. Safe. -/
  | notModelled (mnemonic : String)
  /-- Raised by a setter whose `F` operand is a NaN or an infinity: entry U5 puts it outside the domain of
  the step and names the treatment `refuse`. Safe: the model says nothing where the spec says nothing. -/
  | nonFiniteOperand
  /-- Raised by a command that would make the capacity of a delay line exceed `CAP_MAX`, or leave it
  undefined: entry U1 and rule R262 put it outside the specified behaviour, treatment `refuse`. Safe. -/
  | capacityAboveCapMax
  deriving DecidableEq, Repr

/-- What a step or a meaning answers. -/
abbrev Out := Host.Outcome State Fault Refusal

/-- The machine right after reset: the shipped device, an `RV`, in the state of rule R250; no response
has been given, nothing is presented on the command port. -/
def State.reset : State :=
  { device := resetDevice .rv .k1, rsp := none, input := [], free := 0 }

end Sys2Proof.Machine
end

