-- ==== Sys2Proof/Machine/Operands.lean ====
section
/-! DEFINITION. Operand and result words of a command (rules R82, R86), and the indexed registers
`wet[k]` (rule R18). -/

namespace Sys2Proof.Machine

/-- An operand word read as an `F`: `toF(A)` (rules R82, R86). -/
def operandF (w : Word) : F := F.ofBits w

/-- An operand word read as a two's complement integer: `toInt(A)` (rules R82, R86). -/
def operandInt (w : Word) : Int := w.toInt

/-- A result word that carries an `F`: `bitsF(x)` (rules R18, R82); for a NaN, a free NaN pattern, taken at
the free counter's value `n` for result port `port` (entry U6). -/
def resultF (n port : Nat) (x : F) : Word := x.toBitsOr (nanWord n port)

/-- A result word that carries an integer: `zext_64` (rules R18, R86). -/
def resultInt (k : Nat) : Word := BitVec.ofNat 64 k

/-- A result a command does not produce is driven to all zeros (rule R82). -/
def noResult : Word := 0

/-- The block an `idx` byte names: `1 .. 4` are legal, the others name none (rules R86, R89). -/
def blockIdx (idx : Nat) : Option BlockIdx :=
  match idx with
  | 1 => some .b1
  | 2 => some .b2
  | 3 => some .b3
  | 4 => some .b4
  | _ => none

/-- `wet[k]`. -/
def Wets.get (w : Wets) : BlockIdx → F
  | .b1 => w.w1
  | .b2 => w.w2
  | .b3 => w.w3
  | .b4 => w.w4

/-- `wet[k] <- x`. -/
def Wets.set (w : Wets) (k : BlockIdx) (x : F) : Wets :=
  match k with
  | .b1 => { w with w1 := x }
  | .b2 => { w with w2 := x }
  | .b3 => { w with w3 := x }
  | .b4 => { w with w4 := x }

end Sys2Proof.Machine
end

