-- ==== Sys2Proof/Machine/Ops.lean ====
section
/-! DEFINITION. The named operations over delay memories and over the whole machine: `MemRead`, `MemWrite`
(rule R18), accepting a command, answering it (rule R81), the answer to an illegal one (rule R88), and the
preconditions of entries U1 and U5.

Taking an exception and returning from one have no operation here because the device has neither: it
raises none (rule R230), has no interrupt (R231), no trap entry (R233) and no trap return (R234). What it
does in their place is the illegal answer below (rule R88). -/

namespace Sys2Proof.Machine

/-! ### Delay memory (rules R18, R60 to R64) -/

/-- `MemRead(d, i)`: the word at address `i`; a word not listed is `+0.0`. -/
def Memory.read : Memory → Nat → F
  | [], _ => F.zero
  | (j, x) :: m, i => if i = j then x else Memory.read m i

/-- `MemWrite(d, i, v)`. The canonical form is kept: addresses rising, no `+0.0` listed. -/
def Memory.write : Memory → Nat → F → Memory
  | [], i, v => if v = F.zero then [] else [(i, v)]
  | (j, x) :: m, i, v =>
    if i < j then (if v = F.zero then (j, x) :: m else (i, v) :: (j, x) :: m)
    else if i = j then (if v = F.zero then m else (i, v) :: m)
    else (j, x) :: Memory.write m i v

/-- Every word `+0.0` (rules R105, R107). -/
def Memory.cleared : Memory := []

/-- The memory resized to `n` words: words keep their index, words at or beyond `n` are lost, new words are
`+0.0` (rule R103, decision D14). -/
def Memory.resize (m : Memory) (n : Nat) : Memory := m.filter fun c => decide (c.1 < n)

/-- The canonical form: addresses strictly rising, no listed word equal to what an unlisted one reads as. -/
def Memory.wf : Memory → Bool
  | [] => true
  | (i, x) :: m => decide (x ≠ F.zero) && m.all (fun c => decide (i < c.1)) && Memory.wf m

/-- Every listed address is below the capacity (rule R60). -/
def Memory.within (m : Memory) (capacity : Nat) : Bool := m.all fun c => decide (c.1 < capacity)

/-! ### The command port (rules R80, R81, R88) -/

/-- The response to a legal command: the device it leaves, its two result words, and the free counter moved
past the free values the command may have used (log 6). -/
def State.answer (s : State) (d : Device) (r0 r1 : Word) : State :=
  { s with device := d, rsp := some ⟨r0, r1⟩, free := s.free + 1 }

/-- The response to an illegal command: no state changes, both results are zero (rule R88). -/
def State.answerIllegal (s : State) : State := { s with rsp := some ⟨noResult, noResult⟩ }

/-- `rst`: the device is in its reset state, no response is produced (rules R232, R250, R251). -/
def State.afterReset (s : State) : State :=
  { s with device := s.device.afterReset, rsp := none }

/-- Nothing presented: the device holds its state, `rsp_valid` is low again (rules R81, R241). -/
def State.idle (s : State) : State := { s with rsp := none }

/-- A response that carries no results (rule R82). -/
def State.done (s : State) (d : Device) : Out := .next (s.answer d noResult noResult)

/-- A response that carries one `F` in `R0`. -/
def State.gives (s : State) (d : Device) (x : F) : Out :=
  .next (s.answer d (resultF s.free 0 x) noResult)

/-- A response that carries a stereo pair in `R0`, `R1`. -/
def State.givesPair (s : State) (d : Device) (p : Stereo F) : Out :=
  .next (s.answer d (resultF s.free 0 p.left) (resultF s.free 1 p.right))

/-! ### Class of the device (rules R84, R87)

A command of a class that is not the device's is illegal. -/

/-- A command of class `RV`. -/
def onRv (s : State) (k : Reverb → Out) : Out :=
  match s.device with
  | .rv v => k v
  | _ => .next s.answerIllegal

/-- A command of class `DL`. -/
def onDl (s : State) (k : DelayLine → Out) : Out :=
  match s.device with
  | .dl d => k d
  | _ => .next s.answerIllegal

/-- A command of class `CF`. -/
def onCf (s : State) (k : CombFilter → Out) : Out :=
  match s.device with
  | .cf c => k c
  | _ => .next s.answerIllegal

/-- A command of class `AP`. -/
def onAp (s : State) (k : AllpassFilter → Out) : Out :=
  match s.device with
  | .ap a => k a
  | _ => .next s.answerIllegal

/-- A command of class `BQ`. -/
def onBq (s : State) (k : Biquad → Out) : Out :=
  match s.device with
  | .bq q => k q
  | _ => .next s.answerIllegal

/-- A command of class `LFO`. -/
def onLfo (s : State) (k : Lfo → Out) : Out :=
  match s.device with
  | .lfo l => k l
  | _ => .next s.answerIllegal

/-- A command of class `RM`. -/
def onRm (s : State) (k : RandomMod → Out) : Out :=
  match s.device with
  | .rm m => k m
  | _ => .next s.answerIllegal

/-- A command of class `BK`. -/
def onBk (s : State) (k : Block → Out) : Out :=
  match s.device with
  | .bk b => k b
  | _ => .next s.answerIllegal

/-! ### Preconditions of a step (entries U1, U5) -/

/-- The `F` operand of a setter, which entry U5 requires to be finite. -/
def finiteOperand (w : Word) (k : F → Out) : Out :=
  if (operandF w).isFinite then k (operandF w) else .refused .nonFiniteOperand

/-- The `F` operand of a setter whose clamp also takes an infinity to a bound, which entry U5 lets a model
admit (`wet`, `cutoff`): only a NaN is refused. -/
def numberOperand (w : Word) (k : F → Out) : Out :=
  if (operandF w).isNan then .refused .nonFiniteOperand else k (operandF w)

/-- A command that sizes delay memories, whose capacities rule R262 requires to fit `CAP_MAX`. -/
def whenFits (fits : Bool) (o : Out) : Out := if fits then o else .refused .capacityAboveCapMax

end Sys2Proof.Machine
end

