-- ==== Sys2Proof/Machine/DelayLine.lean ====
section
/-! DEFINITION. The fractional delay line `DL` (`40_delay_line.md`): its helpers, its operations, and the
meanings of the five `DL` commands. -/

namespace Sys2Proof.Machine

/-! ### Helpers -/

/-- `interp(a, b, f)` (rule R108). -/
def interp (a b f : F) : F :=
  let w := (F.one.sub (cosF (f.mul F.pi))).mul F.half
  (a.mul (F.one.sub w)).add (b.mul w)

/-- `retime(d, t)` (rule R106). -/
def DelayLine.retime (d : DelayLine) (t : F) : DelayLine :=
  relag { d with time := clamp t F.zero d.maxTime }

/-- `rebuild(d)` (rule R107). -/
def DelayLine.rebuild (d : DelayLine) : DelayLine :=
  DelayLine.retime
    { d with
      capacity := capacityOf d.maxTime d.sampleRate
      buffer := Memory.cleared
      writePos := 0 }
    d.time

/-! ### Operations -/

/-- The output of a run: the interpolated read, before the write (rules R66, R101). -/
def DelayLine.output (d : DelayLine) : F :=
  interp (d.buffer.read d.readPosFloor) (d.buffer.read d.readPosCeil) d.frac

/-- `DL.RUN` (rule R101): the line after the run, and its output. -/
def DelayLine.run (d : DelayLine) (x : F) : DelayLine × F :=
  let out := d.output
  ({ d with
     buffer := d.buffer.write d.writePos (x.add (out.mul d.feedbackGain))
     writePos := (d.writePos + 1) % d.capacity
     readPosFloor := (d.readPosFloor + 1) % d.capacity
     readPosCeil := (d.readPosCeil + 1) % d.capacity }, out)

/-- `DL.SETTIME` (rule R102). -/
def DelayLine.setTime (d : DelayLine) (t : F) : DelayLine := d.retime t

/-- `DL.SETMAX` with `c = 0`: the live resize of rule R103. -/
def DelayLine.resize (d : DelayLine) : DelayLine :=
  let n := capacityOf d.maxTime d.sampleRate
  DelayLine.retime
    { d with
      capacity := n
      buffer := d.buffer.resize n
      writePos := d.writePos % n }
    d.time

/-- The lower clamp of `new_max` at `0.0` (rule R103). -/
def clampMax (newMax : F) : F := if newMax.lt F.zero then F.zero else newMax

/-- `DL.SETMAX` (rule R103). -/
def DelayLine.setMax (d : DelayLine) (c : Bool) (newMax : F) : DelayLine :=
  let d' := { d with maxTime := clampMax newMax }
  if c then d'.rebuild else d'.resize

/-- `DL.SETSR` (rule R104). -/
def DelayLine.setRate (d : DelayLine) (sr : F) : DelayLine :=
  DelayLine.rebuild { d with sampleRate := clampRate sr }

/-- `DL.CLEAR` (rule R105). -/
def DelayLine.clear (d : DelayLine) : DelayLine := { d with buffer := Memory.cleared }

/-- At the sample rate `sr` the line still fits its memory (rule R262). -/
def DelayLine.fitsAt (d : DelayLine) (sr : F) : Bool := fitsMemory d.maxTime (clampRate sr)

/-! ### Meanings -/

/-- `DL.RUN` (rule R101). -/
def execDlRun (a : Word) (s : State) : Out :=
  onDl s fun d =>
    let r := d.run (operandF a)
    s.gives (.dl r.1) r.2

/-- `DL.SETSR` (rule R104). -/
def execDlSetsr (a : Word) (s : State) : Out :=
  onDl s fun d => finiteOperand a fun sr => whenFits (d.fitsAt sr) (s.done (.dl (d.setRate sr)))

/-- `DL.SETTIME` (rule R102). -/
def execDlSettime (a : Word) (s : State) : Out :=
  onDl s fun d => finiteOperand a fun t => s.done (.dl (d.setTime t))

/-- `DL.SETMAX` (rule R103). -/
def execDlSetmax (c : Bool) (a : Word) (s : State) : Out :=
  onDl s fun d => finiteOperand a fun m =>
    whenFits (fitsMemory (clampMax m) d.sampleRate) (s.done (.dl (d.setMax c m)))

/-- `DL.CLEAR` (rule R105). -/
def execDlClear (s : State) : Out := onDl s fun d => s.done (.dl d.clear)

end Sys2Proof.Machine
end

