-- ==== Sys2Proof/Machine/Allpass.lean ====
section
/-! DEFINITION. The allpass filter `AP` (`41_comb_allpass.md`, section 2) and the meanings of its commands. -/

namespace Sys2Proof.Machine

/-- `AP.RUN` (rule R125). -/
def AllpassFilter.run (a : AllpassFilter) (x : F) : AllpassFilter × F :=
  let u := a.ff.run x
  let v := a.fb.run a.out
  let y := ((a.gain.neg.mul x).add u.2).add (a.gain.mul v.2)
  ({ a with ff := u.1, fb := v.1, out := y }, y)

/-- `AP.SETTIME` (rule R126). -/
def AllpassFilter.setTime (a : AllpassFilter) (t : F) : AllpassFilter :=
  { a with ff := a.ff.setTime t, fb := a.fb.setTime t }

/-- `AP.SETSR` (rule R127). -/
def AllpassFilter.setRate (a : AllpassFilter) (sr : F) : AllpassFilter :=
  { a with ff := a.ff.setRate sr, fb := a.fb.setRate sr, out := F.zero }

/-- `AP.CLEAR` (rule R128). -/
def AllpassFilter.clear (a : AllpassFilter) : AllpassFilter :=
  { a with ff := a.ff.clear, fb := a.fb.clear, out := F.zero }

/-- Both lines fit their memories at the sample rate `sr` (rule R262). -/
def AllpassFilter.fitsAt (a : AllpassFilter) (sr : F) : Bool := a.ff.fitsAt sr && a.fb.fitsAt sr

/-- `AP.RUN` (rule R125). -/
def execApRun (a : Word) (s : State) : Out :=
  onAp s fun f =>
    let r := f.run (operandF a)
    s.gives (.ap r.1) r.2

/-- `AP.SETSR` (rule R127). -/
def execApSetsr (a : Word) (s : State) : Out :=
  onAp s fun f => finiteOperand a fun sr => whenFits (f.fitsAt sr) (s.done (.ap (f.setRate sr)))

/-- `AP.SETTIME` (rule R126). -/
def execApSettime (a : Word) (s : State) : Out :=
  onAp s fun f => finiteOperand a fun t => s.done (.ap (f.setTime t))

/-- `AP.CLEAR` (rule R128). -/
def execApClear (s : State) : Out := onAp s fun f => s.done (.ap f.clear)

end Sys2Proof.Machine
end

