-- ==== Sys2Proof/Machine/BiquadUnit.lean ====
section
/-! DEFINITION. The biquad filter `BQ` (`42_biquad.md`) and the meanings of its commands. -/

namespace Sys2Proof.Machine

/-- `recompute(q)`, the step every setter ends with (rule R149). The history is not touched. -/
def Biquad.recompute (q : Biquad) : Biquad :=
  { q with coefs := coef q.type q.cutoff q.q q.gain q.sampleRate }

/-- `BQ.RUN` (rule R142). The `w[1]` and `w[2]` that are read are the shifted ones. -/
def Biquad.run (q : Biquad) (x : F) : Biquad × F :=
  let w2 := q.w1
  let w1 := q.w0
  let w0 := (x.sub (q.coefs.a1.mul w1)).sub (q.coefs.a2.mul w2)
  let y := ((q.coefs.b0.mul w0).add (q.coefs.b1.mul w1)).add (q.coefs.b2.mul w2)
  ({ q with w0 := w0, w1 := w1, w2 := w2 }, y)

/-- `BQ.SETSR` (rule R143). -/
def Biquad.setRate (q : Biquad) (sr : F) : Biquad :=
  let rate := clampRate sr
  Biquad.recompute { q with sampleRate := rate, cutoff := clamp q.cutoff F.zero (nyquist rate) }

/-- `BQ.SETCUT` (rule R144). -/
def Biquad.setCutoff (q : Biquad) (cutoff : F) : Biquad :=
  Biquad.recompute { q with cutoff := clamp cutoff F.zero (nyquist q.sampleRate) }

/-- `BQ.SETQ` (rule R145): no clamp. -/
def Biquad.setQ (q : Biquad) (x : F) : Biquad := Biquad.recompute { q with q := x }

/-- `BQ.SETGAIN` (rule R146): no clamp. -/
def Biquad.setGain (q : Biquad) (x : F) : Biquad := Biquad.recompute { q with gain := x }

/-- `BQ.SETTYPE` (rule R147). -/
def Biquad.setType (q : Biquad) (t : Int) : Biquad :=
  Biquad.recompute { q with type := BiquadType.ofInt t }

/-- `BQ.CLEAR` (rule R148). -/
def Biquad.clear (q : Biquad) : Biquad := { q with w0 := F.zero, w1 := F.zero, w2 := F.zero }

/-- `BQ.RUN` (rule R142). -/
def execBqRun (a : Word) (s : State) : Out :=
  onBq s fun q =>
    let r := q.run (operandF a)
    s.gives (.bq r.1) r.2

/-- `BQ.SETSR` (rule R143). -/
def execBqSetsr (a : Word) (s : State) : Out :=
  onBq s fun q => finiteOperand a fun sr => s.done (.bq (q.setRate sr))

/-- `BQ.SETCUT` (rule R144). -/
def execBqSetcut (a : Word) (s : State) : Out :=
  onBq s fun q => numberOperand a fun x => s.done (.bq (q.setCutoff x))

/-- `BQ.SETQ` (rule R145). -/
def execBqSetq (a : Word) (s : State) : Out :=
  onBq s fun q => finiteOperand a fun x => s.done (.bq (q.setQ x))

/-- `BQ.SETGAIN` (rule R146). -/
def execBqSetgain (a : Word) (s : State) : Out :=
  onBq s fun q => finiteOperand a fun x => s.done (.bq (q.setGain x))

/-- `BQ.SETTYPE` (rule R147). -/
def execBqSettype (a : Word) (s : State) : Out :=
  onBq s fun q => s.done (.bq (q.setType (operandInt a)))

/-- `BQ.CLEAR` (rule R148). -/
def execBqClear (s : State) : Out := onBq s fun q => s.done (.bq q.clear)

end Sys2Proof.Machine
end

