-- ==== Sys2Proof/Machine/Comb.lean ====
section
/-! DEFINITION. The comb filter `CF` (`41_comb_allpass.md`, section 1) and the meanings of its commands. -/

namespace Sys2Proof.Machine

/-- `CF.RUN` (rule R121): the previous output goes into the feedback line. -/
def CombFilter.run (c : CombFilter) (x : F) : CombFilter × F :=
  let u := c.ff.run x
  let v := c.fb.run c.out
  let y := ((c.gain.mul x).add (c.feedforward.mul u.2)).add (c.feedback.mul v.2)
  ({ c with ff := u.1, fb := v.1, out := y }, y)

/-- `CF.SETTIME` (rule R122). -/
def CombFilter.setTime (c : CombFilter) (t : F) : CombFilter :=
  { c with ff := c.ff.setTime t, fb := c.fb.setTime t }

/-- `CF.SETSR` (rule R123). -/
def CombFilter.setRate (c : CombFilter) (sr : F) : CombFilter :=
  { c with ff := c.ff.setRate sr, fb := c.fb.setRate sr, out := F.zero }

/-- `CF.CLEAR` (rule R124). -/
def CombFilter.clear (c : CombFilter) : CombFilter :=
  { c with ff := c.ff.clear, fb := c.fb.clear, out := F.zero }

/-- Both lines fit their memories at the sample rate `sr` (rule R262). -/
def CombFilter.fitsAt (c : CombFilter) (sr : F) : Bool := c.ff.fitsAt sr && c.fb.fitsAt sr

/-- `CF.RUN` (rule R121). -/
def execCfRun (a : Word) (s : State) : Out :=
  onCf s fun c =>
    let r := c.run (operandF a)
    s.gives (.cf r.1) r.2

/-- `CF.SETSR` (rule R123). -/
def execCfSetsr (a : Word) (s : State) : Out :=
  onCf s fun c => finiteOperand a fun sr => whenFits (c.fitsAt sr) (s.done (.cf (c.setRate sr)))

/-- `CF.SETTIME` (rule R122). -/
def execCfSettime (a : Word) (s : State) : Out :=
  onCf s fun c => finiteOperand a fun t => s.done (.cf (c.setTime t))

/-- `CF.CLEAR` (rule R124). -/
def execCfClear (s : State) : Out := onCf s fun c => s.done (.cf c.clear)

end Sys2Proof.Machine
end

