-- ==== Sys2Proof/Machine/Modulators.lean ====
section
/-! DEFINITION. The modulators `LFO` and `RM` (`43_modulators.md`) and the meanings of their commands. -/

namespace Sys2Proof.Machine

/-- `wrap(p)`, the reduction of a phase to `[0, 1)` (rule R163). -/
def wrapPhase (p : F) : F :=
  let r := p.sub (F.ofInt p.floor)
  if F.one.le r then F.zero else r

/-- `LFO.RUN` (rule R161): the output uses the phase after the increment. -/
def Lfo.run (l : Lfo) : Lfo × F :=
  let phase := wrapPhase (l.phase.add (l.frequency.div l.sampleRate))
  ({ l with phase := phase }, sinF (F.twoPi.mul phase))

/-- `LFO.SETSR` (rule R162): the phase is kept. -/
def Lfo.setRate (l : Lfo) (sr : F) : Lfo := { l with sampleRate := clampRate sr }

/-- The first half of `RM.RUN`: at the end of a period, the old target is the new start and `r` the new
target (rule R165). -/
def RandomMod.turn (m : RandomMod) (r : F) : RandomMod :=
  if m.stepsPerPeriod ≤ m.elapsedSteps then { m with current := m.next, next := r, elapsedSteps := 0 }
  else m

/-- The output at the elapsed fraction of a period (rule R165). -/
def RandomMod.ramp (m : RandomMod) : F :=
  m.current.add
    ((m.next.sub m.current).mul ((F.ofInt m.elapsedSteps).div (F.ofInt m.stepsPerPeriod)))

/-- `RM.RUN` (rule R165), `r` the answer of `draw(m)` (rule R170), which is used only where the rule
draws. -/
def RandomMod.run (m : RandomMod) (r : F) : RandomMod × F :=
  let m' := m.turn r
  ({ m' with elapsedSteps := m'.elapsedSteps + 1 }, m'.ramp)

/-- `RM.SETSR` (rule R166): `current`, `next` and `elapsed_steps` are kept. -/
def RandomMod.setRate (m : RandomMod) (sr : F) : RandomMod :=
  let rate := clampRate sr
  { m with sampleRate := rate, stepsPerPeriod := periodOf rate m.frequency }

/-- `LFO.RUN` (rule R161). -/
def execLfoRun (s : State) : Out :=
  onLfo s fun l =>
    let r := l.run
    s.gives (.lfo r.1) r.2

/-- `LFO.SETSR` (rule R162). -/
def execLfoSetsr (a : Word) (s : State) : Out :=
  onLfo s fun l => finiteOperand a fun sr => s.done (.lfo (l.setRate sr))

/-- `RM.RUN` (rule R165). -/
def execRmRun (s : State) : Out :=
  onRm s fun m =>
    let r := m.run (drawF s.free 0)
    s.gives (.rm r.1) r.2

/-- `RM.SETSR` (rule R166). -/
def execRmSetsr (a : Word) (s : State) : Out :=
  onRm s fun m => finiteOperand a fun sr => s.done (.rm (m.setRate sr))

end Sys2Proof.Machine
end

