-- ==== Sys2Proof/Machine/BlockUnit.lean ====
section
/-! DEFINITION. The block `BK` (`44_block.md`), one run per kind, and the meanings of its commands. -/

namespace Sys2Proof.Machine

/-! ### Comb blocks, kinds 1 and 2 -/

/-- `mix(s1, s2, p1, p2)` (rule R184). -/
def mixCombs (s1 s2 p1 p2 : F) : Stereo F :=
  { left := F.c707.mul ((s1.sub s2).add (p1.sub p2))
    right := F.c707.mul ((s1.add s2).add (p1.add p2)) }

/-- The two comb filters of a channel in series: the pair after the run, and both outputs. -/
def runCombs (k : Pair CombFilter) (x : F) : Pair CombFilter × F × F :=
  let r1 := k.first.run x
  let r2 := k.second.run r1.2
  (⟨r1.1, r2.1⟩, r1.2, r2.2)

/-- Both lowpasses of a block, each on its own channel (rule R142). -/
def runLowpass (lp : Stereo Biquad) (x : Stereo F) : Stereo Biquad × Stereo F :=
  let l := lp.left.run x.left
  let r := lp.right.run x.right
  (⟨l.1, r.1⟩, ⟨l.2, r.2⟩)

/-- `BK.RUN` for kinds 1 and 2 (rule R183). -/
def CombBlock.run (k : CombBlock) (x : Stereo F) : CombBlock × Stereo F :=
  let s := runCombs k.comb.left x.left
  let p := runCombs k.comb.right x.right
  let o := runLowpass k.lp (mixCombs s.2.1 s.2.2 p.2.1 p.2.2)
  ({ k with comb := ⟨s.1, p.1⟩, lp := o.1 }, o.2)

/-- `BK.SETSR` on a comb block (rule R194). -/
def CombBlock.setRate (k : CombBlock) (sr : F) : CombBlock :=
  { k with comb := k.comb.map (·.map (·.setRate sr)), lp := k.lp.map (·.setRate sr) }

/-- `BK.CLEAR` on a comb block (rule R193). -/
def CombBlock.clear (k : CombBlock) : CombBlock :=
  { k with comb := k.comb.map (·.map (·.clear)), lp := k.lp.map (·.clear) }

/-- Every line of the block fits its memory at the sample rate `sr` (rule R262). -/
def CombBlock.fitsAt (k : CombBlock) (sr : F) : Bool := k.comb.all (·.all (·.fitsAt sr))

/-! ### The modulated allpass block, kind 3 -/

/-- Four allpass filters in series (rule R186). -/
def runChain4 (k : Chain4 AllpassFilter) (x : F) : Chain4 AllpassFilter × F :=
  let r1 := k.f1.run x
  let r2 := k.f2.run r1.2
  let r3 := k.f3.run r2.2
  let r4 := k.f4.run r3.2
  (⟨r1.1, r2.1, r3.1, r4.1⟩, r4.2)

/-- The time a modulator output `m` sets: `((m + 1.0) * K) + base_offset` (rules R187, R191). It is not finite
where the sine is open or the sum overflows. DESIGN CHOICE (log 25): entry U5 puts a `SETTIME` of such a time
outside the domain; inside a run the block goes on, with the clamp of rule R15. -/
def modulatedTime (m k baseOffset : F) : F := ((m.add F.one).mul k).add baseOffset

/-- `retune3` on filter 3 of one channel (rule R187), `m` the output of the channel's `LFO`. DESIGN CHOICE
(log 25): an infinite time is clamped to a bound, a NaN time is kept and its lags are free (log 13). -/
def retune3 (k : Chain4 AllpassFilter) (t : LfoRec) (m : F) : Chain4 AllpassFilter :=
  { k with f3 := k.f3.setTime (modulatedTime m t.k t.baseOffset) }

/-- `BK.RUN` for kind 3 (rule R186): both chains and lowpasses, then each `LFO` once, its new time used from
the next run on. -/
def LfoBlock.run (k : LfoBlock) (x : Stereo F) : LfoBlock × Stereo F :=
  let l := runChain4 k.ap.left x.left
  let r := runChain4 k.ap.right x.right
  let o := runLowpass k.lp ⟨l.2, r.2⟩
  let ml := k.lfo.left.run
  let mr := k.lfo.right.run
  ({ ap := ⟨retune3 l.1 tuning.lfo3.left ml.2, retune3 r.1 tuning.lfo3.right mr.2⟩
     lp := o.1
     lfo := ⟨ml.1, mr.1⟩ }, o.2)

/-- `BK.SETSR` on block 3 (rule R194). -/
def LfoBlock.setRate (k : LfoBlock) (sr : F) : LfoBlock :=
  { k with
    ap := k.ap.map (·.map (·.setRate sr)), lp := k.lp.map (·.setRate sr),
    lfo := k.lfo.map (·.setRate sr) }

/-- `BK.CLEAR` on block 3 (rule R193): the modulators are not touched. -/
def LfoBlock.clear (k : LfoBlock) : LfoBlock :=
  { k with ap := k.ap.map (·.map (·.clear)), lp := k.lp.map (·.clear) }

/-- Every line of the block fits its memory at the sample rate `sr` (rule R262). -/
def LfoBlock.fitsAt (k : LfoBlock) (sr : F) : Bool := k.ap.all (·.all (·.fitsAt sr))

/-! ### The long modulated allpass block, kind 4 -/

/-- Six allpass filters in series (rule R190). -/
def runChain6 (k : Chain6 AllpassFilter) (x : F) : Chain6 AllpassFilter × F :=
  let r1 := k.f1.run x
  let r2 := k.f2.run r1.2
  let r3 := k.f3.run r2.2
  let r4 := k.f4.run r3.2
  let r5 := k.f5.run r4.2
  let r6 := k.f6.run r5.2
  (⟨r1.1, r2.1, r3.1, r4.1, r5.1, r6.1⟩, r6.2)

/-- One filter of a chain, by index, changed. -/
def modifyTap (k : Chain6 AllpassFilter) (i : Tap) (f : AllpassFilter → AllpassFilter) :
    Chain6 AllpassFilter :=
  match i with
  | .t1 => { k with f1 := f k.f1 }
  | .t2 => { k with f2 := f k.f2 }
  | .t3 => { k with f3 := f k.f3 }
  | .t4 => { k with f4 := f k.f4 }
  | .t5 => { k with f5 := f k.f5 }
  | .t6 => { k with f6 := f k.f6 }

/-- `retune4` on the target filter of one modulator (rule R191), `m` the modulator's output. DESIGN CHOICE
(log 25): as `retune3` on a time that is not finite. -/
def retune4 (k : Chain6 AllpassFilter) (t : RmRec) (m : F) : Chain6 AllpassFilter :=
  modifyTap k t.target (·.setTime (modulatedTime m t.k t.baseOffset))

/-- The two modulators of a channel, each run once with its own draw (rules R170, R191): the modulators
after the run, and their outputs. -/
def runMods (k : Pair RandomMod) (d1 d2 : F) : Pair RandomMod × F × F :=
  let r1 := k.first.run d1
  let r2 := k.second.run d2
  (⟨r1.1, r2.1⟩, r1.2, r2.2)

/-- Both retunes of a channel, `j = 1` then `j = 2` (rules R190, R191). -/
def retuneBoth (k : Chain6 AllpassFilter) (t : Pair RmRec) (m1 m2 : F) : Chain6 AllpassFilter :=
  retune4 (retune4 k t.first m1) t.second m2

/-- `BK.RUN` for kind 4 (rule R190). The four draws are taken at the free counter's value `n`: `rm[L][1]`,
`rm[L][2]`, `rm[R][1]`, `rm[R][2]` are the drawers 0 to 3. -/
def RmBlock.run (k : RmBlock) (n : Nat) (x : Stereo F) : RmBlock × Stereo F :=
  let l := runChain6 k.ap.left x.left
  let r := runChain6 k.ap.right x.right
  let o := runLowpass k.lp ⟨l.2, r.2⟩
  let ml := runMods k.rm.left (drawF n 0) (drawF n 1)
  let mr := runMods k.rm.right (drawF n 2) (drawF n 3)
  ({ ap := ⟨retuneBoth l.1 tuning.rm4.left ml.2.1 ml.2.2, retuneBoth r.1 tuning.rm4.right mr.2.1 mr.2.2⟩
     lp := o.1
     rm := ⟨ml.1, mr.1⟩ }, o.2)

/-- `BK.SETSR` on block 4 (rule R194). -/
def RmBlock.setRate (k : RmBlock) (sr : F) : RmBlock :=
  { k with
    ap := k.ap.map (·.map (·.setRate sr)), lp := k.lp.map (·.setRate sr),
    rm := k.rm.map (·.map (·.setRate sr)) }

/-- `BK.CLEAR` on block 4 (rule R193): the modulators are not touched. -/
def RmBlock.clear (k : RmBlock) : RmBlock :=
  { k with ap := k.ap.map (·.map (·.clear)), lp := k.lp.map (·.clear) }

/-- Every line of the block fits its memory at the sample rate `sr` (rule R262). -/
def RmBlock.fitsAt (k : RmBlock) (sr : F) : Bool := k.ap.all (·.all (·.fitsAt sr))

/-! ### A block instantiated alone -/

/-- `BK.RUN`, by kind (rules R180, R183, R186, R190). -/
def Block.run (k : Block) (n : Nat) (x : Stereo F) : Block × Stereo F :=
  match k with
  | .early b => let r := b.run x; (.early r.1, r.2)
  | .midDense b => let r := b.run x; (.midDense r.1, r.2)
  | .lfoAllpass b => let r := b.run x; (.lfoAllpass r.1, r.2)
  | .rmAllpass b => let r := b.run n x; (.rmAllpass r.1, r.2)

/-- `BK.SETSR`, by kind (rule R194). -/
def Block.setRate (k : Block) (sr : F) : Block :=
  match k with
  | .early b => .early (b.setRate sr)
  | .midDense b => .midDense (b.setRate sr)
  | .lfoAllpass b => .lfoAllpass (b.setRate sr)
  | .rmAllpass b => .rmAllpass (b.setRate sr)

/-- `BK.CLEAR`, by kind (rule R193). -/
def Block.clear (k : Block) : Block :=
  match k with
  | .early b => .early b.clear
  | .midDense b => .midDense b.clear
  | .lfoAllpass b => .lfoAllpass b.clear
  | .rmAllpass b => .rmAllpass b.clear

/-- Every line of the block fits its memory at the sample rate `sr` (rule R262). -/
def Block.fitsAt (k : Block) (sr : F) : Bool :=
  match k with
  | .early b => b.fitsAt sr
  | .midDense b => b.fitsAt sr
  | .lfoAllpass b => b.fitsAt sr
  | .rmAllpass b => b.fitsAt sr

/-! ### Meanings -/

/-- `BK.RUN` (rules R183, R186, R190). -/
def execBkRun (a b : Word) (s : State) : Out :=
  onBk s fun k =>
    let r := k.run s.free ⟨operandF a, operandF b⟩
    s.givesPair (.bk r.1) r.2

/-- `BK.SETSR` (rule R194). -/
def execBkSetsr (a : Word) (s : State) : Out :=
  onBk s fun k => finiteOperand a fun sr => whenFits (k.fitsAt sr) (s.done (.bk (k.setRate sr)))

/-- `BK.CLEAR` (rule R193). -/
def execBkClear (s : State) : Out := onBk s fun k => s.done (.bk k.clear)

end Sys2Proof.Machine
end

