-- ==== Sys2Proof/Machine/ReverbUnit.lean ====
section
/-! DEFINITION. The reverberator `RV` (`45_reverberator.md`), the device: routing, setters, getters, and the
meanings of its commands. -/

namespace Sys2Proof.Machine

/-! ### Routing -/

/-- The wet/dry mix of `blend` on one channel: `(w * b) + ((1.0 - w) * i)` (rule R202). -/
def wetMix (w b i : F) : F := (w.mul b).add ((F.one.sub w).mul i)

/-- The wet/dry mix on both channels, with the same `wet[k]` (rule R202). -/
def wetMix2 (w : F) (b i : Stereo F) : Stereo F := ⟨wetMix w b.left i.left, wetMix w b.right i.right⟩

/-- `blend(1, i)` (rules R202, R203): the device after the run of block 1, and the blended pair. -/
def Reverb.blend1 (v : Reverb) (i : Stereo F) : Reverb × Stereo F :=
  let r := v.block1.run i
  ({ v with block1 := r.1 }, wetMix2 v.wet.w1 r.2 i)

/-- `blend(2, i)`. -/
def Reverb.blend2 (v : Reverb) (i : Stereo F) : Reverb × Stereo F :=
  let r := v.block2.run i
  ({ v with block2 := r.1 }, wetMix2 v.wet.w2 r.2 i)

/-- `blend(3, i)`. -/
def Reverb.blend3 (v : Reverb) (i : Stereo F) : Reverb × Stereo F :=
  let r := v.block3.run i
  ({ v with block3 := r.1 }, wetMix2 v.wet.w3 r.2 i)

/-- `blend(4, i)`, its draws at the free counter's value `n`. -/
def Reverb.blend4 (v : Reverb) (n : Nat) (i : Stereo F) : Reverb × Stereo F :=
  let r := v.block4.run n i
  ({ v with block4 := r.1 }, wetMix2 v.wet.w4 r.2 i)

/-- `0.25 * (((m1 + m2) + m3) + m4)` (rule R204). -/
def average4 (m1 m2 m3 m4 : F) : F := F.quarter.mul (((m1.add m2).add m3).add m4)

/-- `0.5 * (m1 + m2)` (rule R206). -/
def average2 (m1 m2 : F) : F := F.half.mul (m1.add m2)

/-- `parallel(d)`, mode 0 (rule R204). -/
def Reverb.parallel (v : Reverb) (n : Nat) (d : Stereo F) : Reverb × Stereo F :=
  let r1 := v.blend1 d
  let r2 := r1.1.blend2 d
  let r3 := r2.1.blend3 d
  let r4 := r3.1.blend4 n d
  (r4.1, ⟨average4 r1.2.left r2.2.left r3.2.left r4.2.left,
          average4 r1.2.right r2.2.right r3.2.right r4.2.right⟩)

/-- `serial(d)`, mode 1 (rule R205). -/
def Reverb.serial (v : Reverb) (n : Nat) (d : Stereo F) : Reverb × Stereo F :=
  let s1 := v.blend1 d
  let s2 := s1.1.blend2 s1.2
  let s3 := s2.1.blend3 s2.2
  s3.1.blend4 n s3.2

/-- `hybrid(d)`, mode 2 (rule R206). -/
def Reverb.hybrid (v : Reverb) (n : Nat) (d : Stereo F) : Reverb × Stereo F :=
  let t3 := v.blend3 d
  let t4 := t3.1.blend4 n t3.2
  let m1 := t4.1.blend1 t4.2
  let m2 := m1.1.blend2 t4.2
  (m2.1, ⟨average2 m1.2.left m2.2.left, average2 m1.2.right m2.2.right⟩)

/-- The pair before the output lowpass, by mode (rule R201). -/
def Reverb.route (v : Reverb) (n : Nat) (d : Stereo F) : Reverb × Stereo F :=
  match v.mode with
  | .parallel => v.parallel n d
  | .serial => v.serial n d
  | .hybrid => v.hybrid n d

/-- `RV.RUN` (rule R201). -/
def Reverb.run (v : Reverb) (n : Nat) (d : Stereo F) : Reverb × Stereo F :=
  let p := v.route n d
  let o := runLowpass p.1.olp p.2
  ({ p.1 with olp := o.1, last := o.2 }, o.2)

/-! ### Setters -/

/-- `RV.SETSR` (rule R210). -/
def Reverb.setRate (v : Reverb) (sr : F) : Reverb :=
  let olp := v.olp.map (·.setRate sr)
  { v with
    sampleRate := clampRate sr
    block1 := v.block1.setRate sr
    block2 := v.block2.setRate sr
    block3 := v.block3.setRate sr
    block4 := v.block4.setRate sr
    olp := olp
    lowpassCutoff := olp.left.cutoff }

/-- `RV.SETWET` of a legal block index (rule R211). -/
def Reverb.setWet (v : Reverb) (k : BlockIdx) (w : F) : Reverb :=
  { v with wet := v.wet.set k (clamp w F.zero F.one) }

/-- `RV.SETLPF` (rule R212). -/
def Reverb.setLowpass (v : Reverb) (cutoff : F) : Reverb :=
  let olp := v.olp.map (·.setCutoff cutoff)
  { v with olp := olp, lowpassCutoff := olp.left.cutoff }

/-- `RV.SETMODE` (rule R213). -/
def Reverb.setMode (v : Reverb) (t : Int) : Reverb := { v with mode := Mode.ofInt t }

/-- `RV.CLEAR` (rule R214). -/
def Reverb.clear (v : Reverb) : Reverb :=
  { v with
    block1 := v.block1.clear
    block2 := v.block2.clear
    block3 := v.block3.clear
    block4 := v.block4.clear
    olp := v.olp.map (·.clear)
    last := ⟨F.zero, F.zero⟩ }

/-- Every delay line of the device fits its memory at the sample rate `sr` (rule R262). -/
def Reverb.fitsAt (v : Reverb) (sr : F) : Bool :=
  v.block1.fitsAt sr && v.block2.fitsAt sr && v.block3.fitsAt sr && v.block4.fitsAt sr

/-! ### Meanings -/

/-- `RV.RUN` (rule R201). -/
def execRvRun (a b : Word) (s : State) : Out :=
  onRv s fun v =>
    let r := v.run s.free ⟨operandF a, operandF b⟩
    s.givesPair (.rv r.1) r.2

/-- `RV.SETSR` (rule R210). -/
def execRvSetsr (a : Word) (s : State) : Out :=
  onRv s fun v => finiteOperand a fun sr => whenFits (v.fitsAt sr) (s.done (.rv (v.setRate sr)))

/-- `RV.SETWET` (rule R211): with an index outside `1 .. 4` it has no effect, whatever its operand. -/
def execRvSetwet (idx : Nat) (a : Word) (s : State) : Out :=
  onRv s fun v =>
    match blockIdx idx with
    | some k => numberOperand a fun w => s.done (.rv (v.setWet k w))
    | none => s.done (.rv v)

/-- `RV.SETLPF` (rule R212). -/
def execRvSetlpf (a : Word) (s : State) : Out :=
  onRv s fun v => numberOperand a fun x => s.done (.rv (v.setLowpass x))

/-- `RV.SETMODE` (rule R213). -/
def execRvSetmode (a : Word) (s : State) : Out :=
  onRv s fun v => s.done (.rv (v.setMode (operandInt a)))

/-- `RV.CLEAR` (rule R214). -/
def execRvClear (s : State) : Out := onRv s fun v => s.done (.rv v.clear)

/-- `RV.GETSR` (rule R215). -/
def execRvGetsr (s : State) : Out := onRv s fun v => s.gives (.rv v) v.sampleRate

/-- `RV.GETWET` (rule R216): an index outside `1 .. 4` gives `+0.0`. -/
def execRvGetwet (idx : Nat) (s : State) : Out :=
  onRv s fun v =>
    match blockIdx idx with
    | some k => s.gives (.rv v) (v.wet.get k)
    | none => s.gives (.rv v) F.zero

/-- `RV.GETLPF` (rule R217). -/
def execRvGetlpf (s : State) : Out := onRv s fun v => s.gives (.rv v) v.lowpassCutoff

/-- `RV.GETMODE` (rule R218). -/
def execRvGetmode (s : State) : Out :=
  onRv s fun v => .next (s.answer (.rv v) (resultInt v.mode.code) noResult)

/-- `RV.GETOUT` (rule R219). -/
def execRvGetout (s : State) : Out := onRv s fun v => s.givesPair (.rv v) v.last

end Sys2Proof.Machine
end

