-- ==== Sys2Proof/Machine/Dispatch.lean ====
section
/-! DEFINITION. The dispatch of instructions to their meanings, one arm per row of rule R85. -/

namespace Sys2Proof.Machine

def exec (i : Instr) (s : State) : Host.Outcome State Fault Refusal :=
  match i with
  | .rvRun a b => Sys2Proof.Machine.execRvRun a b s
  | .rvSetsr a => Sys2Proof.Machine.execRvSetsr a s
  | .rvSetwet idx a => Sys2Proof.Machine.execRvSetwet idx a s
  | .rvSetlpf a => Sys2Proof.Machine.execRvSetlpf a s
  | .rvSetmode a => Sys2Proof.Machine.execRvSetmode a s
  | .rvClear => Sys2Proof.Machine.execRvClear s
  | .rvGetsr => Sys2Proof.Machine.execRvGetsr s
  | .rvGetwet idx => Sys2Proof.Machine.execRvGetwet idx s
  | .rvGetlpf => Sys2Proof.Machine.execRvGetlpf s
  | .rvGetmode => Sys2Proof.Machine.execRvGetmode s
  | .rvGetout => Sys2Proof.Machine.execRvGetout s
  | .dlRun a => Sys2Proof.Machine.execDlRun a s
  | .dlSetsr a => Sys2Proof.Machine.execDlSetsr a s
  | .dlSettime a => Sys2Proof.Machine.execDlSettime a s
  | .dlSetmax c a => Sys2Proof.Machine.execDlSetmax c a s
  | .dlClear => Sys2Proof.Machine.execDlClear s
  | .cfRun a => Sys2Proof.Machine.execCfRun a s
  | .cfSetsr a => Sys2Proof.Machine.execCfSetsr a s
  | .cfSettime a => Sys2Proof.Machine.execCfSettime a s
  | .cfClear => Sys2Proof.Machine.execCfClear s
  | .apRun a => Sys2Proof.Machine.execApRun a s
  | .apSetsr a => Sys2Proof.Machine.execApSetsr a s
  | .apSettime a => Sys2Proof.Machine.execApSettime a s
  | .apClear => Sys2Proof.Machine.execApClear s
  | .bqRun a => Sys2Proof.Machine.execBqRun a s
  | .bqSetsr a => Sys2Proof.Machine.execBqSetsr a s
  | .bqSetcut a => Sys2Proof.Machine.execBqSetcut a s
  | .bqSetq a => Sys2Proof.Machine.execBqSetq a s
  | .bqSetgain a => Sys2Proof.Machine.execBqSetgain a s
  | .bqSettype a => Sys2Proof.Machine.execBqSettype a s
  | .bqClear => Sys2Proof.Machine.execBqClear s
  | .lfoRun => Sys2Proof.Machine.execLfoRun s
  | .lfoSetsr a => Sys2Proof.Machine.execLfoSetsr a s
  | .rmRun => Sys2Proof.Machine.execRmRun s
  | .rmSetsr a => Sys2Proof.Machine.execRmSetsr a s
  | .bkRun a b => Sys2Proof.Machine.execBkRun a b s
  | .bkSetsr a => Sys2Proof.Machine.execBkSetsr a s
  | .bkClear => Sys2Proof.Machine.execBkClear s

end Sys2Proof.Machine
end

