-- ==== Sys2Proof/Machine/Fetch.lean ====
section
/-! DEFINITION. How a command reaches the device: accepting what the port carries, executing it, and
installing a command on the port from outside. The device has no program counter and fetches nothing from
a memory (rules R22, R70), so what is fetched is the command the host presents (rule R81). -/

namespace Sys2Proof.Machine

/-- The input of this step is taken: the next step sees the one after it (log 2). -/
def State.took (s : State) (rest : List Input) : State := { s with input := rest }

/-- The effect of an accepted command (rule R81): the decoded instruction is executed, an illegal word is
answered as rule R88 says. -/
def execCommand (k : Command) (s : State) : Out :=
  match decodeCommand k with
  | .ok i => exec i s
  | .error _ => .next s.answerIllegal

/-- One input of the device: reset wins over a command (rule R232). -/
def execInput (x : Input) (s : State) : Out :=
  if x.rst then .next s.afterReset else execCommand x.command s

/-- The device on which a command is legal: the present one if its class is the command's, otherwise a lone
leaf of that class in its reset state (rules R84, R252; log 3). -/
def deviceFor (k : Command) (d : Device) : Device :=
  match decodeCommand k with
  | .ok i => if d.cls = i.cls then d else resetDevice i.cls params.leaf.bkKind
  | .error _ => d

/-- The command `k` presented next, on a device of its class. -/
def State.presenting (s : State) (k : Command) : State :=
  { s with device := deviceFor k s.device, input := ⟨false, k⟩ :: s.input }

end Sys2Proof.Machine
end

