-- ==== Sys2Proof/Machine/Step.lean ====
section
/-! DEFINITION. One step of the machine: one accepted command (rule R81), one reset (rule R250), or, with
nothing presented, an idle device (rule R241). -/

namespace Sys2Proof.Machine

/-- One step: the head of what the host presents is taken and executed. -/
def step (s : State) : Host.Outcome State Fault Refusal :=
  match s.input with
  | [] => .next s.idle
  | x :: rest => execInput x (s.took rest)

/-- The state whose next step runs the instruction whose `nbits` bits are `w`: the command is put first on
the port, its operand words zero, on a device of the command's class. -/
def State.withFetchWord (s : State) (nbits w : Nat) : State :=
  s.presenting (Command.ofBits (w % 2 ^ nbits))

end Sys2Proof.Machine
end

