-- ==== Sys2Proof/Safety.lean ====
section
/-! DEFINITION. What counts as a good state and a safe step: the invariants of `10_state.md` (rules R24,
R25, R29, R30, R31, R32, R33, R36), the canonical form of the delay memories, and the domain of a step
(rule R230, entries U1, U5). -/

namespace Sys2Proof.Machine

/-! ### Registers -/

/-- A stored sample rate: finite, at least `1.0` (rules R24, R30, R32, R33, R36). -/
def rateLegal (r : F) : Prop := r.isFinite = true ∧ F.one.le r = true

/-- `lo ≤ x ≤ hi`, neither side NaN. -/
def inRange (x lo hi : F) : Prop := lo.le x = true ∧ x.le hi = true

/-! ### Units -/

/-- The invariant of every `DL` (rules R24, R25, R60, R63, R262). `time_low` and `time_high` are stated as
the comparisons the clamp makes. -/
structure DelayLine.Inv (d : DelayLine) : Prop where
  rate : rateLegal d.sampleRate
  maxTime : finiteNonneg d.maxTime = true
  time_low : d.time.lt F.zero = false
  time_high : d.maxTime.lt d.time = false
  capacity_eq : d.capacity = capacityOf d.maxTime d.sampleRate
  capacity_pos : 1 ≤ d.capacity
  fits : fitsMemory d.maxTime d.sampleRate = true
  lagFloor_eq : d.lagFloor = (samplesOf d.time d.sampleRate).floor.toNat
  lagCeil_eq : d.lagCeil = (samplesOf d.time d.sampleRate).ceil.toNat
  frac_eq : d.frac =
    (samplesOf d.time d.sampleRate).sub (F.ofInt (samplesOf d.time d.sampleRate).floor)
  writePos_lt : d.writePos < d.capacity
  readPosFloor_eq : d.readPosFloor = modPos ((d.writePos : Int) - (d.lagFloor : Int)) d.capacity
  readPosCeil_eq : d.readPosCeil =
    modPos ((d.writePos : Int) - ((d.lagCeil % d.capacity : Nat) : Int)) d.capacity
  buffer_wf : d.buffer.wf = true
  buffer_within : d.buffer.within d.capacity = true

/-- The two lines of a filter "differ only in buffer contents" (rule R29): equal once both buffers are
cleared. -/
def linesAgree (ff fb : DelayLine) : Prop := ff.clear = fb.clear

/-- The invariant of every `CF` (rules R27, R29). -/
structure CombFilter.Inv (c : CombFilter) : Prop where
  ff : c.ff.Inv
  fb : c.fb.Inv
  agree : linesAgree c.ff c.fb
  inner : c.ff.feedbackGain = F.zero

/-- The invariant of every `AP` (rules R28, R29). -/
structure AllpassFilter.Inv (a : AllpassFilter) : Prop where
  ff : a.ff.Inv
  fb : a.fb.Inv
  agree : linesAgree a.ff a.fb
  inner : a.ff.feedbackGain = F.zero

/-- The invariant of every `BQ` (rules R30, R31). -/
structure Biquad.Inv (q : Biquad) : Prop where
  rate : rateLegal q.sampleRate
  cutoff : inRange q.cutoff F.zero (nyquist q.sampleRate)
  coefs : q.coefs = coef q.type q.cutoff q.q q.gain q.sampleRate

/-- The invariant of every `LFO` (rule R32): `0.0 ≤ phase < 1.0`, the range `wrap` reduces to (rule R163). -/
structure Lfo.Inv (l : Lfo) : Prop where
  rate : rateLegal l.sampleRate
  frequency : l.frequency.isFinite = true
  phase_low : F.zero.le l.phase = true
  phase_high : l.phase.lt F.one = true

/-- The invariant of every `RM` (rules R33, R34). -/
structure RandomMod.Inv (m : RandomMod) : Prop where
  rate : rateLegal m.sampleRate
  frequency : finitePos m.frequency = true
  steps_eq : m.stepsPerPeriod = periodOf m.sampleRate m.frequency
  current : legalDraw m.current = true
  next : legalDraw m.next = true

/-! ### Blocks, at one sample rate (rule R36: "every owned unit's `sample_rate` equals `v.sample_rate`") -/

/-- A comb filter that runs at the rate `r`. -/
def CombFilter.InvAt (r : F) (c : CombFilter) : Prop := c.Inv ∧ c.ff.sampleRate = r

/-- An allpass filter that runs at the rate `r`. -/
def AllpassFilter.InvAt (r : F) (a : AllpassFilter) : Prop := a.Inv ∧ a.ff.sampleRate = r

/-- A lowpass that runs at the rate `r`: every biquad of a block or at the output is one
(`42_biquad.md`, opening). -/
def Biquad.InvAt (r : F) (q : Biquad) : Prop := q.Inv ∧ q.sampleRate = r ∧ q.type = .lowpass

/-- An `LFO` at the rate `r`. -/
def Lfo.InvAt (r : F) (l : Lfo) : Prop := l.Inv ∧ l.sampleRate = r

/-- An `RM` at the rate `r`. -/
def RandomMod.InvAt (r : F) (m : RandomMod) : Prop := m.Inv ∧ m.sampleRate = r

/-- A property of both channels. -/
def both {α : Type} (p : α → Prop) (s : Stereo α) : Prop := p s.left ∧ p s.right

/-- A property of both members. -/
def pair {α : Type} (p : α → Prop) (s : Pair α) : Prop := p s.first ∧ p s.second

/-- A property of all four filters. -/
def chain4 {α : Type} (p : α → Prop) (s : Chain4 α) : Prop := p s.f1 ∧ p s.f2 ∧ p s.f3 ∧ p s.f4

/-- A property of all six filters. -/
def chain6 {α : Type} (p : α → Prop) (s : Chain6 α) : Prop :=
  p s.f1 ∧ p s.f2 ∧ p s.f3 ∧ p s.f4 ∧ p s.f5 ∧ p s.f6

/-- The invariant of a comb block at the rate `r`. -/
structure CombBlock.InvAt (r : F) (k : CombBlock) : Prop where
  comb : both (pair (CombFilter.InvAt r)) k.comb
  lp : both (Biquad.InvAt r) k.lp

/-- The invariant of block 3 at the rate `r`. -/
structure LfoBlock.InvAt (r : F) (k : LfoBlock) : Prop where
  ap : both (chain4 (AllpassFilter.InvAt r)) k.ap
  lp : both (Biquad.InvAt r) k.lp
  lfo : both (Lfo.InvAt r) k.lfo

/-- The invariant of block 4 at the rate `r`. -/
structure RmBlock.InvAt (r : F) (k : RmBlock) : Prop where
  ap : both (chain6 (AllpassFilter.InvAt r)) k.ap
  lp : both (Biquad.InvAt r) k.lp
  rm : both (pair (RandomMod.InvAt r)) k.rm

/-- The invariant of a block instantiated alone: all its units run at one rate (rule R194). -/
def Block.Inv (k : Block) : Prop :=
  ∃ r, match k with
    | .early b => b.InvAt r
    | .midDense b => b.InvAt r
    | .lfoAllpass b => b.InvAt r
    | .rmAllpass b => b.InvAt r

/-- The invariant of the `RV` (rule R36). -/
structure Reverb.Inv (v : Reverb) : Prop where
  rate : rateLegal v.sampleRate
  wet1 : inRange v.wet.w1 F.zero F.one
  wet2 : inRange v.wet.w2 F.zero F.one
  wet3 : inRange v.wet.w3 F.zero F.one
  wet4 : inRange v.wet.w4 F.zero F.one
  block1 : v.block1.InvAt v.sampleRate
  block2 : v.block2.InvAt v.sampleRate
  block3 : v.block3.InvAt v.sampleRate
  block4 : v.block4.InvAt v.sampleRate
  olp : both (Biquad.InvAt v.sampleRate) v.olp
  cutoff_left : v.olp.left.cutoff = v.lowpassCutoff
  cutoff_right : v.olp.right.cutoff = v.lowpassCutoff

/-- The invariant of a device, by class. -/
def Device.Inv : Device → Prop
  | .rv v => v.Inv
  | .dl d => d.Inv
  | .cf c => c.Inv
  | .ap a => a.Inv
  | .bq q => q.Inv
  | .lfo l => l.Inv
  | .rm m => m.Inv
  | .bk k => k.Inv

/-- The invariants of `10_state.md` hold. -/
def State.Inv (s : State) : Prop := s.device.Inv

/-! ### Safe steps -/

/-- The step completes: it answers a next state. -/
def completes (o : Out) : Prop := ∃ t, o = .next t

/-! ### The domain of a step (rule R230, entries U1, U5) -/

/-- The `F` operand of an instruction is in the domain: finite for a setter, and for a wet or a cutoff, whose
clamp also takes an infinity, no NaN (entry U5, logs 11, 20). An `RV.SETWET` of no block has no effect whatever
its operand (log 19), and every pattern is a legal sample. -/
def operandInDomain (i : Instr) : Bool :=
  match i with
  | .rvSetsr a | .dlSetsr a | .dlSettime a | .dlSetmax _ a | .cfSetsr a | .cfSettime a | .apSetsr a
  | .apSettime a | .bqSetsr a | .bqSetq a | .bqSetgain a | .lfoSetsr a | .rmSetsr a | .bkSetsr a =>
    (F.ofBits a).isFinite
  | .rvSetlpf a | .bqSetcut a => !(F.ofBits a).isNan
  | .rvSetwet idx a => decide (idx < 1) || decide (4 < idx) || !(F.ofBits a).isNan
  | .rvRun _ _ | .rvSetmode _ | .rvClear | .rvGetsr | .rvGetwet _ | .rvGetlpf | .rvGetmode | .rvGetout
  | .dlRun _ | .dlClear | .cfRun _ | .cfClear | .apRun _ | .apClear | .bqRun _ | .bqSettype _ | .bqClear
  | .lfoRun | .rmRun | .bkRun _ _ | .bkClear => true

/-- The delay memories an instruction sizes fit `CAP_MAX` (rule R262, entry U1): those of a device that gets a
new rate, and the one of a line that gets a new maximum. -/
def memoryInDomain (i : Instr) (d : Device) : Bool :=
  match i, d with
  | .rvSetsr a, .rv v => v.fitsAt (F.ofBits a)
  | .dlSetsr a, .dl l => l.fitsAt (F.ofBits a)
  | .dlSetmax _ a, .dl l =>
    fitsMemory (if (F.ofBits a).lt F.zero then F.zero else F.ofBits a) l.sampleRate
  | .cfSetsr a, .cf c => c.fitsAt (F.ofBits a)
  | .apSetsr a, .ap f => f.fitsAt (F.ofBits a)
  | .bkSetsr a, .bk k => k.fitsAt (F.ofBits a)
  | _, _ => true

/-- A list of instructions executed in order, each on the state the one before it leaves (rule R67). -/
def execAll : List Instr → State → Out
  | [], s => .next s
  | i :: is, s =>
    match exec i s with
    | .next t => execAll is t
    | .fault f => .fault f
    | .refused r => .refused r

/-! ### Sample rates of a tree (rules R36, R194, R210) -/

/-- Both lines of a comb filter run at the rate `r`. -/
def CombFilter.atRate (r : F) (c : CombFilter) : Prop := c.ff.sampleRate = r ∧ c.fb.sampleRate = r

/-- Both lines of an allpass filter run at the rate `r`. -/
def AllpassFilter.atRate (r : F) (a : AllpassFilter) : Prop := a.ff.sampleRate = r ∧ a.fb.sampleRate = r

/-- A biquad runs at the rate `r`. -/
def Biquad.atRate (r : F) (q : Biquad) : Prop := q.sampleRate = r

/-- An `LFO` runs at the rate `r`. -/
def Lfo.atRate (r : F) (l : Lfo) : Prop := l.sampleRate = r

/-- An `RM` runs at the rate `r`. -/
def RandomMod.atRate (r : F) (m : RandomMod) : Prop := m.sampleRate = r

/-- Every unit of a comb block runs at the rate `r`. -/
def CombBlock.atRate (r : F) (k : CombBlock) : Prop :=
  both (pair (CombFilter.atRate r)) k.comb ∧ both (Biquad.atRate r) k.lp

/-- Every unit of block 3 runs at the rate `r`. -/
def LfoBlock.atRate (r : F) (k : LfoBlock) : Prop :=
  both (chain4 (AllpassFilter.atRate r)) k.ap ∧ both (Biquad.atRate r) k.lp ∧ both (Lfo.atRate r) k.lfo

/-- Every unit of block 4 runs at the rate `r`. -/
def RmBlock.atRate (r : F) (k : RmBlock) : Prop :=
  both (chain6 (AllpassFilter.atRate r)) k.ap ∧ both (Biquad.atRate r) k.lp ∧
    both (pair (RandomMod.atRate r)) k.rm

/-- Every unit of the device runs at the rate `r`. -/
def Reverb.atRate (r : F) (v : Reverb) : Prop :=
  v.sampleRate = r ∧ v.block1.atRate r ∧ v.block2.atRate r ∧ v.block3.atRate r ∧ v.block4.atRate r ∧
    both (Biquad.atRate r) v.olp

end Sys2Proof.Machine
end

