-- ==== Sys2Proof/Certificates/Slice0/Obligations.lean ====
section
/-! DEFINITION. The statements for the provers, one per group of numbered rules. A statement about a command
gives the whole next state: what it does not name is as before. In all of them the counter `free` may become
any `n` (it is the model's own, log 6), a value on a result port is `F.ofBits` of the port's word (rules R18,
R82; a NaN has no one pattern, entry U6), and a draw is any legal value (rule R170). -/

section

open Sys2Proof Sys2Proof.Machine

/-! ### The delay line -/

/-- Rules R101, R108: the output is the cosine-interpolated read, made before the write; the write takes the
input plus the output times the feedback gain; all three positions advance by one, modulo the capacity. -/
def Obligations.DlRunReadsInterpolatedThenWrites : Prop :=
  (∀ (d : DelayLine) (x : F),
    let p := d.buffer.read d.readPosFloor
    let q := d.buffer.read d.readPosCeil
    let w := (F.one.sub (cosF (d.frac.mul F.pi))).mul F.half
    let out := (p.mul (F.one.sub w)).add (q.mul w)
    d.run x =
      ({ d with
         buffer := d.buffer.write d.writePos (x.add (out.mul d.feedbackGain))
         writePos := (d.writePos + 1) % d.capacity
         readPosFloor := (d.readPosFloor + 1) % d.capacity
         readPosCeil := (d.readPosCeil + 1) % d.capacity }, out)) ∧
  ∀ (s : State) (d : DelayLine) (a : Word), s.device = .dl d →
    ∃ n r0, exec (.dlRun a) s =
        .next { s with device := .dl (d.run (F.ofBits a)).1, rsp := some ⟨r0, 0⟩, free := n } ∧
      F.ofBits r0 = (d.run (F.ofBits a)).2

/-- Rules R26, R60, R101: a run of a line in a good state changes one word of its memory, the one at
`write_pos`, which becomes the input plus the output times the feedback gain; every other word, and every
control register of the line, is as before. -/
def Obligations.DlRunChangesOneWord : Prop :=
  ∀ (s t : State) (d : DelayLine) (a : Word), s.device = .dl d → d.Inv → exec (.dlRun a) s = .next t →
    ∃ e r0, t.device = .dl e ∧ t.rsp = some ⟨r0, 0⟩ ∧ t.input = s.input ∧
      (∀ i, i ≠ d.writePos → e.buffer.read i = d.buffer.read i) ∧
      e.buffer.read d.writePos = (F.ofBits a).add ((F.ofBits r0).mul d.feedbackGain) ∧
      e.sampleRate = d.sampleRate ∧ e.maxTime = d.maxTime ∧ e.time = d.time ∧
      e.feedbackGain = d.feedbackGain ∧ e.capacity = d.capacity ∧ e.lagFloor = d.lagFloor ∧
      e.lagCeil = d.lagCeil ∧ e.frac = d.frac

/-- Rules R102, R106: `DL.SETTIME` is `retime`, which clamps the time and derives the lags, the weight and
both read positions from it and the current write position; memory and `write_pos` stay. -/
def Obligations.DlSettimeRetimes : Prop :=
  (∀ (d : DelayLine) (t : F),
    let time := clamp t F.zero d.maxTime
    let ds := (time.mul d.sampleRate).div F.thousand
    d.retime t =
      { d with
        time := time
        lagFloor := ds.floor.toNat
        lagCeil := ds.ceil.toNat
        frac := ds.sub (F.ofInt ds.floor)
        readPosFloor := (((d.writePos : Int) - (ds.floor.toNat : Int)) % (d.capacity : Int)).toNat
        readPosCeil :=
          (((d.writePos : Int) - ((ds.ceil.toNat % d.capacity : Nat) : Int)) % (d.capacity : Int)).toNat }) ∧
  ∀ (s : State) (d : DelayLine) (a : Word), s.device = .dl d → (F.ofBits a).isFinite = true →
    ∃ n, exec (.dlSettime a) s =
      .next { s with device := .dl (d.retime (F.ofBits a)), rsp := some ⟨0, 0⟩, free := n }

/-- Rules R103, R107: `DL.SETMAX` stores the clamped `max_time` and sizes the memory for it. With `c = 1` it zeroes
every word and sets `write_pos` to 0; with `c = 0` a word below the old capacity keeps its index and value, a new
word is `+0.0`, and `write_pos` is reduced modulo the new capacity. Then the time is re-derived. Both complete when
the new capacity fits. -/
def Obligations.DlSetmaxResizes : Prop :=
  ∀ (s : State) (d : DelayLine) (a : Word),
    let m := if (F.ofBits a).lt F.zero then F.zero else F.ofBits a
    let n := (((m.mul d.sampleRate).div F.thousand).ceil + 1).toNat
    s.device = .dl d → (F.ofBits a).isFinite = true → fitsMemory m d.sampleRate = true →
    (∃ k e, exec (.dlSetmax true a) s =
        .next { s with device := .dl e, rsp := some ⟨0, 0⟩, free := k } ∧
      e = DelayLine.retime { d with maxTime := m, capacity := n, buffer := e.buffer, writePos := 0 } d.time ∧
      ∀ i, e.buffer.read i = F.zero) ∧
    (d.buffer.within d.capacity = true → ∃ k e, exec (.dlSetmax false a) s =
        .next { s with device := .dl e, rsp := some ⟨0, 0⟩, free := k } ∧
      e = DelayLine.retime
        { d with maxTime := m, capacity := n, buffer := e.buffer, writePos := d.writePos % n } d.time ∧
      ∀ i, i < n → e.buffer.read i = if i < d.capacity then d.buffer.read i else F.zero)

/-- Rules R104, R107: `DL.SETSR` stores the clamped rate and always rebuilds: capacity for the new rate, every
word `+0.0`, `write_pos` 0, the time re-derived. -/
def Obligations.DlSetsrRebuilds : Prop :=
  ∀ (s : State) (d : DelayLine) (a : Word),
    let sr := if (F.ofBits a).lt F.one then F.one else F.ofBits a
    s.device = .dl d → (F.ofBits a).isFinite = true → fitsMemory d.maxTime sr = true →
    ∃ n e, exec (.dlSetsr a) s = .next { s with device := .dl e, rsp := some ⟨0, 0⟩, free := n } ∧
      e = DelayLine.retime
        { d with
          sampleRate := sr
          capacity := (((d.maxTime.mul sr).div F.thousand).ceil + 1).toNat
          buffer := e.buffer
          writePos := 0 } d.time ∧
      (∀ i, e.buffer.read i = F.zero) ∧ e = d.setRate (F.ofBits a)

/-- Rule R105: `DL.CLEAR` makes every word `+0.0` and changes nothing else. -/
def Obligations.DlClearZeroesWords : Prop :=
  ∀ (s : State) (d : DelayLine), s.device = .dl d →
    ∃ n e, exec .dlClear s = .next { s with device := .dl e, rsp := some ⟨0, 0⟩, free := n } ∧
      e = { d with buffer := e.buffer } ∧ (∀ i, e.buffer.read i = F.zero) ∧ e = d.clear

/-- Rule R24: the value of every field of a delay line after construction. -/
def Obligations.DlConstructionValues : Prop :=
  ∀ sr0 max0 time0 fb0 : F,
    let d := mkDelayLine sr0 max0 time0 fb0
    let ds := (d.time.mul d.sampleRate).div F.thousand
    d.sampleRate = (if sr0.lt F.one then F.one else sr0) ∧
    d.maxTime = (if max0.lt F.zero then F.zero else max0) ∧
    d.time = clamp time0 F.zero d.maxTime ∧ d.feedbackGain = fb0 ∧
    d.capacity = (((d.maxTime.mul d.sampleRate).div F.thousand).ceil + 1).toNat ∧
    (∀ i, d.buffer.read i = F.zero) ∧ d.writePos = 0 ∧
    d.lagFloor = ds.floor.toNat ∧ d.lagCeil = ds.ceil.toNat ∧ d.frac = ds.sub (F.ofInt ds.floor) ∧
    d.readPosFloor = ((0 - (d.lagFloor : Int)) % (d.capacity : Int)).toNat ∧
    d.readPosCeil = ((0 - ((d.lagCeil % d.capacity : Nat) : Int)) % (d.capacity : Int)).toNat

/-- Rules R27, R28, R30, R32, R33: the value of every field of a comb filter, an allpass filter, a biquad, an `LFO`
and an `RM` after construction (of an `RM`, here for a period that is a finite number of runs). -/
def Obligations.UnitConstructionValues : Prop :=
  ∀ sr0 : F,
    let sr := if sr0.lt F.one then F.one else sr0
    (∀ r : CombRec, mkCombFilter sr0 r =
      { ff := mkDelayLine sr0 r.maxTime r.time F.zero, fb := mkDelayLine sr0 r.maxTime r.time F.zero,
        gain := r.gain, feedforward := r.feedforward, feedback := r.feedback, out := F.zero }) ∧
    (∀ r : AllpassRec, mkAllpassFilter sr0 r =
      { ff := mkDelayLine sr0 r.maxTime r.time F.zero, fb := mkDelayLine sr0 r.maxTime r.time F.zero,
        gain := r.gain, out := F.zero }) ∧
    (∀ (type0 : Int) (cutoff0 q0 gain0 : F), ∃ ty : BiquadType,
      let cutoff := clamp cutoff0 F.zero (sr.div F.two)
      (ty.code : Int) = (if type0 < 0 then 0 else if type0 > 7 then 7 else type0) ∧
      mkBiquad type0 cutoff0 q0 gain0 sr0 =
        { sampleRate := sr, type := ty, cutoff := cutoff, q := q0, gain := gain0,
          coefs := coef ty cutoff q0 gain0 sr, w0 := F.zero, w1 := F.zero, w2 := F.zero }) ∧
    (∀ f : F, mkLfo sr0 f = { sampleRate := sr, frequency := f, phase := F.zero }) ∧
    ∀ f : F, (sr.div f).isFinite = true → mkRandomMod sr0 f =
      { sampleRate := sr, frequency := f, stepsPerPeriod := (sr.div f).ceil.toNat,
        elapsedSteps := (sr.div f).ceil.toNat, current := F.zero, next := F.zero }

/-- Rules R24, R25: in a good line whose time is a finite value, `lag_floor ≤ lag_ceil ≤ capacity - 1`, so the
inner `mod capacity` is the identity, and `0.0 ≤ frac < 1.0`. -/
def Obligations.DlLagsBelowCapacity : Prop :=
  ∀ d : DelayLine, d.Inv → d.time.isFinite = true →
    d.lagFloor ≤ d.lagCeil ∧ d.lagCeil ≤ d.capacity - 1 ∧ d.lagCeil % d.capacity = d.lagCeil ∧
    F.zero.le d.frac = true ∧ d.frac.lt F.one = true

/-- Rules R109, R110, the exact case: with feedback gain `0.0` and weight `0.0`, a silent line that is given finite
inputs answers in run `n` with the input of run `n - D`, and with `+0.0` before that, in value (an input of `-0.0`
may come back as `+0.0`), across any number of wraps of the memory. The delay `D` is the lag, and for lag 0 it is the
capacity, because the read precedes the write. -/
def Obligations.DlPureDelay : Prop :=
  ∀ (d : DelayLine) (x : Nat → Word) (st : Nat → State),
    d.buffer.wf = true → d.writePos < d.capacity → d.lagFloor < d.capacity →
    d.readPosFloor = (((d.writePos : Int) - (d.lagFloor : Int)) % (d.capacity : Int)).toNat →
    d.feedbackGain = F.zero → d.frac = F.zero → (∀ i, d.buffer.read i = F.zero) →
    (st 0).device = .dl d → (∀ n, (F.ofBits (x n)).isFinite = true) →
    (∀ n, exec (.dlRun (x n)) (st n) = .next (st (n + 1))) →
    let delay := if d.lagFloor = 0 then d.capacity else d.lagFloor
    ∀ n, ∃ r, (st (n + 1)).rsp = some ⟨r, 0⟩ ∧
      (F.ofBits r).eqv (if n < delay then F.zero else F.ofBits (x (n - delay))) = true

/-! ### Comb and allpass filters -/

/-- Rule R121. -/
def Obligations.CfRunCombinesBothLines : Prop :=
  (∀ (c : CombFilter) (x : F),
    let u := c.ff.run x
    let v := c.fb.run c.out
    let y := ((c.gain.mul x).add (c.feedforward.mul u.2)).add (c.feedback.mul v.2)
    c.run x = ({ c with ff := u.1, fb := v.1, out := y }, y)) ∧
  ∀ (s : State) (c : CombFilter) (a : Word), s.device = .cf c →
    ∃ n r0, exec (.cfRun a) s =
        .next { s with device := .cf (c.run (F.ofBits a)).1, rsp := some ⟨r0, 0⟩, free := n } ∧
      F.ofBits r0 = (c.run (F.ofBits a)).2

/-- Rules R122, R123, R124: each setter and the clear act on both lines alike; `CF.SETSR` and `CF.CLEAR` also
zero the previous output; the gains survive. -/
def Obligations.CfSettersReachBothLines : Prop :=
  ∀ (s : State) (c : CombFilter) (a : Word), s.device = .cf c →
    ((F.ofBits a).isFinite = true → ∃ n, exec (.cfSettime a) s =
      .next { s with
        device := .cf { c with ff := c.ff.retime (F.ofBits a), fb := c.fb.retime (F.ofBits a) }
        rsp := some ⟨0, 0⟩
        free := n }) ∧
    ((F.ofBits a).isFinite = true → c.ff.fitsAt (F.ofBits a) = true → c.fb.fitsAt (F.ofBits a) = true →
      ∃ n, exec (.cfSetsr a) s =
      .next { s with
        device := .cf { c with ff := c.ff.setRate (F.ofBits a), fb := c.fb.setRate (F.ofBits a), out := F.zero }
        rsp := some ⟨0, 0⟩
        free := n }) ∧
    ∃ n, exec .cfClear s =
      .next { s with
        device := .cf { c with ff := c.ff.clear, fb := c.fb.clear, out := F.zero }
        rsp := some ⟨0, 0⟩
        free := n }

/-- Rule R125. -/
def Obligations.ApRunCombinesBothLines : Prop :=
  (∀ (f : AllpassFilter) (x : F),
    let u := f.ff.run x
    let v := f.fb.run f.out
    let y := ((f.gain.neg.mul x).add u.2).add (f.gain.mul v.2)
    f.run x = ({ f with ff := u.1, fb := v.1, out := y }, y)) ∧
  ∀ (s : State) (f : AllpassFilter) (a : Word), s.device = .ap f →
    ∃ n r0, exec (.apRun a) s =
        .next { s with device := .ap (f.run (F.ofBits a)).1, rsp := some ⟨r0, 0⟩, free := n } ∧
      F.ofBits r0 = (f.run (F.ofBits a)).2

/-- Rules R126, R127, R128: as for the comb filter. -/
def Obligations.ApSettersReachBothLines : Prop :=
  ∀ (s : State) (f : AllpassFilter) (a : Word), s.device = .ap f →
    ((F.ofBits a).isFinite = true → ∃ n, exec (.apSettime a) s =
      .next { s with
        device := .ap { f with ff := f.ff.retime (F.ofBits a), fb := f.fb.retime (F.ofBits a) }
        rsp := some ⟨0, 0⟩
        free := n }) ∧
    ((F.ofBits a).isFinite = true → f.ff.fitsAt (F.ofBits a) = true → f.fb.fitsAt (F.ofBits a) = true →
      ∃ n, exec (.apSetsr a) s =
      .next { s with
        device := .ap { f with ff := f.ff.setRate (F.ofBits a), fb := f.fb.setRate (F.ofBits a), out := F.zero }
        rsp := some ⟨0, 0⟩
        free := n }) ∧
    ∃ n, exec .apClear s =
      .next { s with
        device := .ap { f with ff := f.ff.clear, fb := f.fb.clear, out := F.zero }
        rsp := some ⟨0, 0⟩
        free := n }

/-! ### The biquad -/

/-- Rule R142: the history shifts first, and the recurrence reads the shifted one. -/
def Obligations.BqRunShiftsThenRecurs : Prop :=
  (∀ (q : Biquad) (x : F),
    let w0 := (x.sub (q.coefs.a1.mul q.w0)).sub (q.coefs.a2.mul q.w1)
    let y := ((q.coefs.b0.mul w0).add (q.coefs.b1.mul q.w0)).add (q.coefs.b2.mul q.w1)
    q.run x = ({ q with w0 := w0, w1 := q.w0, w2 := q.w1 }, y)) ∧
  ∀ (s : State) (q : Biquad) (a : Word), s.device = .bq q →
    ∃ n r0, exec (.bqRun a) s =
        .next { s with device := .bq (q.run (F.ofBits a)).1, rsp := some ⟨r0, 0⟩, free := n } ∧
      F.ofBits r0 = (q.run (F.ofBits a)).2

/-- Rules R143, R144, R145, R146, R149: each setter stores its operand, clamped where the rule clamps it, and
recomputes the coefficients; the history stays. -/
def Obligations.BqSettersRecompute : Prop :=
  ∀ (s : State) (q : Biquad) (a : Word), s.device = .bq q → (F.ofBits a).isFinite = true →
    let x := F.ofBits a
    let sr := if x.lt F.one then F.one else x
    let cut := clamp q.cutoff F.zero (sr.div F.two)
    let cut' := clamp x F.zero (q.sampleRate.div F.two)
    (∃ n, exec (.bqSetsr a) s =
      .next { s with
        device := .bq { q with sampleRate := sr, cutoff := cut, coefs := coef q.type cut q.q q.gain sr }
        rsp := some ⟨0, 0⟩
        free := n }) ∧
    (∃ n, exec (.bqSetcut a) s =
      .next { s with
        device := .bq { q with cutoff := cut', coefs := coef q.type cut' q.q q.gain q.sampleRate }
        rsp := some ⟨0, 0⟩
        free := n }) ∧
    (∃ n, exec (.bqSetq a) s =
      .next { s with
        device := .bq { q with q := x, coefs := coef q.type q.cutoff x q.gain q.sampleRate }
        rsp := some ⟨0, 0⟩
        free := n }) ∧
    ∃ n, exec (.bqSetgain a) s =
      .next { s with
        device := .bq { q with gain := x, coefs := coef q.type q.cutoff q.q x q.sampleRate }
        rsp := some ⟨0, 0⟩
        free := n }

/-- Rule R147: the type stored is the integer operand clamped to `0 .. 7`. -/
def Obligations.BqSettypeClamps : Prop :=
  ∀ (s : State) (q : Biquad) (a : Word), s.device = .bq q →
    ∃ n ty, exec (.bqSettype a) s =
        .next { s with
          device := .bq { q with type := ty, coefs := coef ty q.cutoff q.q q.gain q.sampleRate }
          rsp := some ⟨0, 0⟩
          free := n } ∧
      (ty.code : Int) = if a.toInt < 0 then 0 else if a.toInt > 7 then 7 else a.toInt

/-- Rule R148. -/
def Obligations.BqClearZeroesHistory : Prop :=
  ∀ (s : State) (q : Biquad), s.device = .bq q →
    ∃ n, exec .bqClear s =
      .next { s with
        device := .bq { q with w0 := F.zero, w1 := F.zero, w2 := F.zero }
        rsp := some ⟨0, 0⟩
        free := n }

/-! ### The modulators -/

/-- Rule R161: the phase advances and wraps, and the output is the sine of the new phase. -/
def Obligations.LfoRunAdvancesPhase : Prop :=
  (∀ l : Lfo,
    let phase := wrapPhase (l.phase.add (l.frequency.div l.sampleRate))
    l.run = ({ l with phase := phase }, sinF (F.twoPi.mul phase))) ∧
  ∀ (s : State) (l : Lfo), s.device = .lfo l →
    ∃ n r0, exec .lfoRun s =
        .next { s with device := .lfo l.run.1, rsp := some ⟨r0, 0⟩, free := n } ∧
      F.ofBits r0 = l.run.2

/-- Rule R163: `wrap` is the value minus its floor, with `1.0` taken to `0.0`; of a finite value it is in
`[0, 1)`, it leaves a value of that range as it is, and it takes `1.0` from a value in `[1, 2)`. -/
def Obligations.WrapReducesToUnitInterval : Prop :=
  (∀ p : F, wrapPhase p =
    let r := p.sub (F.ofInt p.floor)
    if F.one.le r then F.zero else r) ∧
  (∀ p : F, p.isFinite = true →
    F.zero.le (wrapPhase p) = true ∧ (wrapPhase p).lt F.one = true) ∧
  (∀ p : F, F.zero.le p = true → p.lt F.one = true → wrapPhase p = p) ∧
  ∀ p : F, F.one.le p = true → p.lt F.two = true → wrapPhase p = p.sub F.one

/-- Rules R162, R166: the modulators keep their phase, ramp and counter when the rate changes; an `RM` derives
its period anew, here for a quotient that is finite. -/
def Obligations.ModulatorSetsrKeepsPosition : Prop :=
  ∀ (s : State) (a : Word), (F.ofBits a).isFinite = true →
    let sr := if (F.ofBits a).lt F.one then F.one else F.ofBits a
    (∀ l : Lfo, s.device = .lfo l → ∃ n, exec (.lfoSetsr a) s =
      .next { s with device := .lfo { l with sampleRate := sr }, rsp := some ⟨0, 0⟩, free := n }) ∧
    ∀ m : RandomMod, s.device = .rm m → (sr.div m.frequency).isFinite = true →
      ∃ n, exec (.rmSetsr a) s =
      .next { s with
        device := .rm { m with sampleRate := sr, stepsPerPeriod := (sr.div m.frequency).ceil.toNat }
        rsp := some ⟨0, 0⟩
        free := n }

/-- Rules R165, R170: at the end of a period the old target becomes the start and a legal draw the new target;
the output is the point of the ramp at the elapsed fraction; then the counter advances. -/
def Obligations.RmRunRampsToDraw : Prop :=
  (∀ (m : RandomMod) (r : F),
    let m' := if m.elapsedSteps ≥ m.stepsPerPeriod
      then { m with current := m.next, next := r, elapsedSteps := 0 } else m
    m.run r =
      ({ m' with elapsedSteps := m'.elapsedSteps + 1 },
       m'.current.add ((m'.next.sub m'.current).mul
        ((F.ofInt m'.elapsedSteps).div (F.ofInt m'.stepsPerPeriod))))) ∧
  ∀ (s : State) (m : RandomMod), s.device = .rm m →
    ∃ n r r0, r.isFinite = true ∧ F.negOne.le r = true ∧ r.le F.one = true ∧
      exec .rmRun s = .next { s with device := .rm (m.run r).1, rsp := some ⟨r0, 0⟩, free := n } ∧
      F.ofBits r0 = (m.run r).2

/-- Rule R168: after any run of a good `RM`, the counter is at least 1 and at most `steps_per_period`, also
where a change of rate had left it above. -/
def Obligations.RmCounterBounded : Prop :=
  ∀ (s : State) (m : RandomMod), s.device = .rm m → m.Inv →
    (m.sampleRate.div m.frequency).isFinite = true →
    ∃ t m', exec .rmRun s = .next t ∧ t.device = .rm m' ∧ m'.stepsPerPeriod = m.stepsPerPeriod ∧
      1 ≤ m'.elapsedSteps ∧ m'.elapsedSteps ≤ m'.stepsPerPeriod

/-- Rule R165, corner case (a): a modulator out of reset draws in its first run and answers `+0.0`, whatever it
draws. -/
def Obligations.RmFirstRunIsZero : Prop :=
  ∀ (s : State) (sr f : F), sr.isFinite = true → finitePos f = true →
    ((clampRate sr).div f).isFinite = true → s.device = .rm (mkRandomMod sr f) →
    ∃ t m', exec .rmRun s = .next t ∧ t.rsp = some ⟨0, 0⟩ ∧ t.device = .rm m' ∧
      m'.current = F.zero ∧ legalDraw m'.next = true ∧ m'.elapsedSteps = 1

/-! ### Blocks -/

/-- Rules R183, R184: two comb filters in series per channel, the mix, then the lowpass of each channel; the
same for both comb blocks. -/
def Obligations.BkRunCombBlocksMix : Prop :=
  (∀ (k : CombBlock) (x : Stereo F),
    let s1 := k.comb.left.first.run x.left
    let s2 := k.comb.left.second.run s1.2
    let p1 := k.comb.right.first.run x.right
    let p2 := k.comb.right.second.run p1.2
    let oL := k.lp.left.run (F.c707.mul ((s1.2.sub s2.2).add (p1.2.sub p2.2)))
    let oR := k.lp.right.run (F.c707.mul ((s1.2.add s2.2).add (p1.2.add p2.2)))
    k.run x =
      ({ comb := ⟨⟨s1.1, s2.1⟩, ⟨p1.1, p2.1⟩⟩, lp := ⟨oL.1, oR.1⟩ }, ⟨oL.2, oR.2⟩)) ∧
  ∀ (s : State) (k : CombBlock) (a b : Word),
    let r := k.run ⟨F.ofBits a, F.ofBits b⟩
    (s.device = .bk (.early k) → ∃ n r0 r1, exec (.bkRun a b) s =
        .next { s with device := .bk (.early r.1), rsp := some ⟨r0, r1⟩, free := n } ∧
      F.ofBits r0 = r.2.left ∧ F.ofBits r1 = r.2.right) ∧
    (s.device = .bk (.midDense k) → ∃ n r0 r1, exec (.bkRun a b) s =
        .next { s with device := .bk (.midDense r.1), rsp := some ⟨r0, r1⟩, free := n } ∧
      F.ofBits r0 = r.2.left ∧ F.ofBits r1 = r.2.right)

/-- Rules R186, R187: four allpass filters and the lowpass per channel, and only then each `LFO` once, whose
output sets the time of filter 3 of its channel. The statement also ranges over times `tL`, `tR` that are not finite,
which entry U5 leaves outside the domain and R187 does not settle: what `setTime` does with them is the model's
choice (log 25). -/
def Obligations.BkRunLfoBlockRetunesAfter : Prop :=
  (∀ (k : LfoBlock) (x : Stereo F),
    let l1 := k.ap.left.f1.run x.left
    let l2 := k.ap.left.f2.run l1.2
    let l3 := k.ap.left.f3.run l2.2
    let l4 := k.ap.left.f4.run l3.2
    let r1 := k.ap.right.f1.run x.right
    let r2 := k.ap.right.f2.run r1.2
    let r3 := k.ap.right.f3.run r2.2
    let r4 := k.ap.right.f4.run r3.2
    let oL := k.lp.left.run l4.2
    let oR := k.lp.right.run r4.2
    let mL := k.lfo.left.run
    let mR := k.lfo.right.run
    let tL := ((mL.2.add F.one).mul tuning.lfo3.left.k).add tuning.lfo3.left.baseOffset
    let tR := ((mR.2.add F.one).mul tuning.lfo3.right.k).add tuning.lfo3.right.baseOffset
    k.run x =
      ({ ap := ⟨⟨l1.1, l2.1, l3.1.setTime tL, l4.1⟩, ⟨r1.1, r2.1, r3.1.setTime tR, r4.1⟩⟩
         lp := ⟨oL.1, oR.1⟩
         lfo := ⟨mL.1, mR.1⟩ }, ⟨oL.2, oR.2⟩)) ∧
  ∀ (s : State) (k : LfoBlock) (a b : Word), s.device = .bk (.lfoAllpass k) →
    let r := k.run ⟨F.ofBits a, F.ofBits b⟩
    ∃ n r0 r1, exec (.bkRun a b) s =
        .next { s with device := .bk (.lfoAllpass r.1), rsp := some ⟨r0, r1⟩, free := n } ∧
      F.ofBits r0 = r.2.left ∧ F.ofBits r1 = r.2.right

/-- Rules R190, R191: six allpass filters and the lowpass per channel, and only then the two `RM` of each
channel once, each with its own legal draw and setting the time of its target filter. The statement also ranges over
times that are not finite, where `((o + 1.0) * K) + base_offset` overflows, which entry U5 leaves outside the domain
and R191 does not settle: what `setTime` does with them is the model's choice (log 25). -/
def Obligations.BkRunRmBlockRetunesAfter : Prop :=
  (∀ (k : RmBlock) (m : Nat) (x : Stereo F), ∃ d1 d2 d3 d4 : F,
    legalDraw d1 = true ∧ legalDraw d2 = true ∧ legalDraw d3 = true ∧ legalDraw d4 = true ∧
    let l1 := k.ap.left.f1.run x.left
    let l2 := k.ap.left.f2.run l1.2
    let l3 := k.ap.left.f3.run l2.2
    let l4 := k.ap.left.f4.run l3.2
    let l5 := k.ap.left.f5.run l4.2
    let l6 := k.ap.left.f6.run l5.2
    let r1 := k.ap.right.f1.run x.right
    let r2 := k.ap.right.f2.run r1.2
    let r3 := k.ap.right.f3.run r2.2
    let r4 := k.ap.right.f4.run r3.2
    let r5 := k.ap.right.f5.run r4.2
    let r6 := k.ap.right.f6.run r5.2
    let oL := k.lp.left.run l6.2
    let oR := k.lp.right.run r6.2
    let mL1 := k.rm.left.first.run d1
    let mL2 := k.rm.left.second.run d2
    let mR1 := k.rm.right.first.run d3
    let mR2 := k.rm.right.second.run d4
    let time (t : RmRec) (o : F) : F := ((o.add F.one).mul t.k).add t.baseOffset
    let tune (t : Pair RmRec) (o1 o2 : F) (i : Tap) (f : AllpassFilter) : AllpassFilter :=
      if t.second.target = i then f.setTime (time t.second o2)
      else if t.first.target = i then f.setTime (time t.first o1) else f
    let tL := tune tuning.rm4.left mL1.2 mL2.2
    let tR := tune tuning.rm4.right mR1.2 mR2.2
    k.run m x =
      ({ ap := ⟨⟨tL .t1 l1.1, tL .t2 l2.1, tL .t3 l3.1, tL .t4 l4.1, tL .t5 l5.1, tL .t6 l6.1⟩,
          ⟨tR .t1 r1.1, tR .t2 r2.1, tR .t3 r3.1, tR .t4 r4.1, tR .t5 r5.1, tR .t6 r6.1⟩⟩
         lp := ⟨oL.1, oR.1⟩
         rm := ⟨⟨mL1.1, mL2.1⟩, ⟨mR1.1, mR2.1⟩⟩ }, ⟨oL.2, oR.2⟩)) ∧
  ∀ (s : State) (k : RmBlock) (a b : Word), s.device = .bk (.rmAllpass k) →
    ∃ m n r0 r1, exec (.bkRun a b) s =
        .next { s with
          device := .bk (.rmAllpass (k.run m ⟨F.ofBits a, F.ofBits b⟩).1)
          rsp := some ⟨r0, r1⟩
          free := n } ∧
      F.ofBits r0 = (k.run m ⟨F.ofBits a, F.ofBits b⟩).2.left ∧
      F.ofBits r1 = (k.run m ⟨F.ofBits a, F.ofBits b⟩).2.right

/-- Rule R194: `BK.SETSR` gives the operand to every owned unit; when it completes every unit runs at the
clamped rate. -/
def Obligations.BkSetsrReachesEveryUnit : Prop :=
  ∀ (s : State) (a : Word), (F.ofBits a).isFinite = true →
    let x := F.ofBits a
    let sr := if x.lt F.one then F.one else x
    (∀ k : CombBlock, k.fitsAt x = true →
      let k' : CombBlock :=
        { comb := ⟨⟨k.comb.left.first.setRate x, k.comb.left.second.setRate x⟩,
            ⟨k.comb.right.first.setRate x, k.comb.right.second.setRate x⟩⟩
          lp := ⟨k.lp.left.setRate x, k.lp.right.setRate x⟩ }
      k'.atRate sr ∧
      (s.device = .bk (.early k) → ∃ n, exec (.bkSetsr a) s =
        .next { s with device := .bk (.early k'), rsp := some ⟨0, 0⟩, free := n }) ∧
      (s.device = .bk (.midDense k) → ∃ n, exec (.bkSetsr a) s =
        .next { s with device := .bk (.midDense k'), rsp := some ⟨0, 0⟩, free := n })) ∧
    (∀ k : LfoBlock, k.fitsAt x = true →
      let k' : LfoBlock :=
        { ap := ⟨⟨k.ap.left.f1.setRate x, k.ap.left.f2.setRate x, k.ap.left.f3.setRate x,
              k.ap.left.f4.setRate x⟩,
            ⟨k.ap.right.f1.setRate x, k.ap.right.f2.setRate x, k.ap.right.f3.setRate x,
              k.ap.right.f4.setRate x⟩⟩
          lp := ⟨k.lp.left.setRate x, k.lp.right.setRate x⟩
          lfo := ⟨k.lfo.left.setRate x, k.lfo.right.setRate x⟩ }
      k'.atRate sr ∧
      (s.device = .bk (.lfoAllpass k) → ∃ n, exec (.bkSetsr a) s =
        .next { s with device := .bk (.lfoAllpass k'), rsp := some ⟨0, 0⟩, free := n })) ∧
    ∀ k : RmBlock, k.fitsAt x = true →
      let k' : RmBlock :=
        { ap := ⟨⟨k.ap.left.f1.setRate x, k.ap.left.f2.setRate x, k.ap.left.f3.setRate x,
              k.ap.left.f4.setRate x, k.ap.left.f5.setRate x, k.ap.left.f6.setRate x⟩,
            ⟨k.ap.right.f1.setRate x, k.ap.right.f2.setRate x, k.ap.right.f3.setRate x,
              k.ap.right.f4.setRate x, k.ap.right.f5.setRate x, k.ap.right.f6.setRate x⟩⟩
          lp := ⟨k.lp.left.setRate x, k.lp.right.setRate x⟩
          rm := ⟨⟨k.rm.left.first.setRate x, k.rm.left.second.setRate x⟩,
            ⟨k.rm.right.first.setRate x, k.rm.right.second.setRate x⟩⟩ }
      k'.atRate sr ∧
      (s.device = .bk (.rmAllpass k) → ∃ n, exec (.bkSetsr a) s =
        .next { s with device := .bk (.rmAllpass k'), rsp := some ⟨0, 0⟩, free := n })

/-- Rule R193: `BK.CLEAR` clears every filter and both lowpasses and leaves the modulators alone. -/
def Obligations.BkClearSparesModulators : Prop :=
  ∀ s : State,
    (∀ k : CombBlock,
      let k' : CombBlock :=
        { comb := ⟨⟨k.comb.left.first.clear, k.comb.left.second.clear⟩,
            ⟨k.comb.right.first.clear, k.comb.right.second.clear⟩⟩
          lp := ⟨k.lp.left.clear, k.lp.right.clear⟩ }
      (s.device = .bk (.early k) → ∃ n, exec .bkClear s =
        .next { s with device := .bk (.early k'), rsp := some ⟨0, 0⟩, free := n }) ∧
      (s.device = .bk (.midDense k) → ∃ n, exec .bkClear s =
        .next { s with device := .bk (.midDense k'), rsp := some ⟨0, 0⟩, free := n })) ∧
    (∀ k : LfoBlock, s.device = .bk (.lfoAllpass k) → ∃ n, exec .bkClear s =
      .next { s with
        device := .bk (.lfoAllpass
          { ap := ⟨⟨k.ap.left.f1.clear, k.ap.left.f2.clear, k.ap.left.f3.clear, k.ap.left.f4.clear⟩,
              ⟨k.ap.right.f1.clear, k.ap.right.f2.clear, k.ap.right.f3.clear, k.ap.right.f4.clear⟩⟩
            lp := ⟨k.lp.left.clear, k.lp.right.clear⟩
            lfo := k.lfo })
        rsp := some ⟨0, 0⟩
        free := n }) ∧
    ∀ k : RmBlock, s.device = .bk (.rmAllpass k) → ∃ n, exec .bkClear s =
      .next { s with
        device := .bk (.rmAllpass
          { ap := ⟨⟨k.ap.left.f1.clear, k.ap.left.f2.clear, k.ap.left.f3.clear, k.ap.left.f4.clear,
                k.ap.left.f5.clear, k.ap.left.f6.clear⟩,
              ⟨k.ap.right.f1.clear, k.ap.right.f2.clear, k.ap.right.f3.clear, k.ap.right.f4.clear,
                k.ap.right.f5.clear, k.ap.right.f6.clear⟩⟩
            lp := ⟨k.lp.left.clear, k.lp.right.clear⟩
            rm := k.rm })
        rsp := some ⟨0, 0⟩
        free := n }

/-- Rules R186, R190, "The two channels share no state": in block 3, the state and the output of a channel after
a run depend on that channel's state and input alone; in block 4, also on nothing of the other channel. -/
def Obligations.ModulatedChannelsIndependent : Prop :=
  (∀ (k j : LfoBlock) (x y : Stereo F),
    (k.ap.left = j.ap.left → k.lp.left = j.lp.left → k.lfo.left = j.lfo.left → x.left = y.left →
      (k.run x).2.left = (j.run y).2.left ∧ (k.run x).1.ap.left = (j.run y).1.ap.left ∧
      (k.run x).1.lp.left = (j.run y).1.lp.left ∧ (k.run x).1.lfo.left = (j.run y).1.lfo.left) ∧
    (k.ap.right = j.ap.right → k.lp.right = j.lp.right → k.lfo.right = j.lfo.right → x.right = y.right →
      (k.run x).2.right = (j.run y).2.right ∧ (k.run x).1.ap.right = (j.run y).1.ap.right ∧
      (k.run x).1.lp.right = (j.run y).1.lp.right ∧ (k.run x).1.lfo.right = (j.run y).1.lfo.right)) ∧
  ∀ (k j : RmBlock) (m : Nat) (x y : Stereo F),
    (k.ap.left = j.ap.left → k.lp.left = j.lp.left → k.rm.left = j.rm.left → x.left = y.left →
      (k.run m x).2.left = (j.run m y).2.left ∧ (k.run m x).1.ap.left = (j.run m y).1.ap.left ∧
      (k.run m x).1.lp.left = (j.run m y).1.lp.left ∧ (k.run m x).1.rm.left = (j.run m y).1.rm.left) ∧
    (k.ap.right = j.ap.right → k.lp.right = j.lp.right → k.rm.right = j.rm.right → x.right = y.right →
      (k.run m x).2.right = (j.run m y).2.right ∧ (k.run m x).1.ap.right = (j.run m y).1.ap.right ∧
      (k.run m x).1.lp.right = (j.run m y).1.lp.right ∧ (k.run m x).1.rm.right = (j.run m y).1.rm.right)

/-! ### The reverberator -/

/-- Rules R202, R204: mode 0, all four blocks on the dry input, the blends averaged with weight `0.25`, then the
output lowpasses; the pair is kept as the last output. -/
def Obligations.RvRunParallel : Prop :=
  ∀ (s : State) (v : Reverb) (a b : Word), s.device = .rv v → v.mode = .parallel →
    let blend (w : F) (o i : Stereo F) : Stereo F :=
      ⟨(w.mul o.left).add ((F.one.sub w).mul i.left), (w.mul o.right).add ((F.one.sub w).mul i.right)⟩
    ∃ (m n : Nat) (r0 r1 : Word),
      let d : Stereo F := ⟨F.ofBits a, F.ofBits b⟩
      let k1 := v.block1.run d
      let k2 := v.block2.run d
      let k3 := v.block3.run d
      let k4 := v.block4.run m d
      let m1 := blend v.wet.w1 k1.2 d
      let m2 := blend v.wet.w2 k2.2 d
      let m3 := blend v.wet.w3 k3.2 d
      let m4 := blend v.wet.w4 k4.2 d
      let oL := v.olp.left.run (F.quarter.mul (((m1.left.add m2.left).add m3.left).add m4.left))
      let oR := v.olp.right.run (F.quarter.mul (((m1.right.add m2.right).add m3.right).add m4.right))
      exec (.rvRun a b) s =
        .next { s with
          device := .rv { v with
            block1 := k1.1, block2 := k2.1, block3 := k3.1, block4 := k4.1
            olp := ⟨oL.1, oR.1⟩, last := ⟨oL.2, oR.2⟩ }
          rsp := some ⟨r0, r1⟩
          free := n } ∧
      F.ofBits r0 = oL.2 ∧ F.ofBits r1 = oR.2

/-- Rules R202, R203, R205: mode 1, the blocks in series 1, 2, 3, 4, each blended against its own input. -/
def Obligations.RvRunSerial : Prop :=
  ∀ (s : State) (v : Reverb) (a b : Word), s.device = .rv v → v.mode = .serial →
    let blend (w : F) (o i : Stereo F) : Stereo F :=
      ⟨(w.mul o.left).add ((F.one.sub w).mul i.left), (w.mul o.right).add ((F.one.sub w).mul i.right)⟩
    ∃ (m n : Nat) (r0 r1 : Word),
      let d : Stereo F := ⟨F.ofBits a, F.ofBits b⟩
      let k1 := v.block1.run d
      let s1 := blend v.wet.w1 k1.2 d
      let k2 := v.block2.run s1
      let s2 := blend v.wet.w2 k2.2 s1
      let k3 := v.block3.run s2
      let s3 := blend v.wet.w3 k3.2 s2
      let k4 := v.block4.run m s3
      let s4 := blend v.wet.w4 k4.2 s3
      let oL := v.olp.left.run s4.left
      let oR := v.olp.right.run s4.right
      exec (.rvRun a b) s =
        .next { s with
          device := .rv { v with
            block1 := k1.1, block2 := k2.1, block3 := k3.1, block4 := k4.1
            olp := ⟨oL.1, oR.1⟩, last := ⟨oL.2, oR.2⟩ }
          rsp := some ⟨r0, r1⟩
          free := n } ∧
      F.ofBits r0 = oL.2 ∧ F.ofBits r1 = oR.2

/-- Rules R202, R203, R206: mode 2, blocks 3 and 4 in series make the intermediate pair, blocks 1 and 2 run on
it, and their blends are averaged with weight `0.5`. -/
def Obligations.RvRunHybrid : Prop :=
  ∀ (s : State) (v : Reverb) (a b : Word), s.device = .rv v → v.mode = .hybrid →
    let blend (w : F) (o i : Stereo F) : Stereo F :=
      ⟨(w.mul o.left).add ((F.one.sub w).mul i.left), (w.mul o.right).add ((F.one.sub w).mul i.right)⟩
    ∃ (m n : Nat) (r0 r1 : Word),
      let d : Stereo F := ⟨F.ofBits a, F.ofBits b⟩
      let k3 := v.block3.run d
      let t3 := blend v.wet.w3 k3.2 d
      let k4 := v.block4.run m t3
      let t4 := blend v.wet.w4 k4.2 t3
      let k1 := v.block1.run t4
      let m1 := blend v.wet.w1 k1.2 t4
      let k2 := v.block2.run t4
      let m2 := blend v.wet.w2 k2.2 t4
      let oL := v.olp.left.run (F.half.mul (m1.left.add m2.left))
      let oR := v.olp.right.run (F.half.mul (m1.right.add m2.right))
      exec (.rvRun a b) s =
        .next { s with
          device := .rv { v with
            block1 := k1.1, block2 := k2.1, block3 := k3.1, block4 := k4.1
            olp := ⟨oL.1, oR.1⟩, last := ⟨oL.2, oR.2⟩ }
          rsp := some ⟨r0, r1⟩
          free := n } ∧
      F.ofBits r0 = oL.2 ∧ F.ofBits r1 = oR.2

/-- Rules R202, R220. A blend mixes the output of its block with its input by `wetMix`, which at wet `0.0` and a
finite block output gives the input in value, and at wet `1.0` and a finite input the block output in value. So with
all four wets `0.0` (of either sign), finite inputs, finite block outputs and no overflow in the averages, an `RV.RUN`
in each mode is the input, in value, through the output lowpass alone. -/
def Obligations.BlendEndpoints : Prop :=
  (∀ w b i : F, w.eqv F.zero = true → b.isFinite = true → i.isNan = false → (wetMix w b i).eqv i = true) ∧
  (∀ b i : F, i.isFinite = true → b.isNan = false → (wetMix F.one b i).eqv b = true) ∧
  (∀ (v : Reverb) (n : Nat) (i : Stereo F),
    let mix (w : F) (o : Stereo F) : Stereo F := ⟨wetMix w o.left i.left, wetMix w o.right i.right⟩
    v.blend1 i = ({ v with block1 := (v.block1.run i).1 }, mix v.wet.w1 (v.block1.run i).2) ∧
    v.blend2 i = ({ v with block2 := (v.block2.run i).1 }, mix v.wet.w2 (v.block2.run i).2) ∧
    v.blend3 i = ({ v with block3 := (v.block3.run i).1 }, mix v.wet.w3 (v.block3.run i).2) ∧
    v.blend4 n i = ({ v with block4 := (v.block4.run n i).1 }, mix v.wet.w4 (v.block4.run n i).2)) ∧
  ∀ (s : State) (v : Reverb) (a b : Word), s.device = .rv v →
    v.wet.w1.eqv F.zero = true → v.wet.w2.eqv F.zero = true → v.wet.w3.eqv F.zero = true →
    v.wet.w4.eqv F.zero = true → (F.ofBits a).isFinite = true → (F.ofBits b).isFinite = true →
    let d : Stereo F := ⟨F.ofBits a, F.ofBits b⟩
    let finite (p : Stereo F) : Prop := p.left.isFinite = true ∧ p.right.isFinite = true
    let twice (x : F) : F := x.add x
    let fourfold (x : F) : F := ((x.add x).add x).add x
    let bypassed : Prop := ∃ n r0 r1 u eL eR, eL.eqv d.left = true ∧ eR.eqv d.right = true ∧
      exec (.rvRun a b) s = .next { s with device := .rv u, rsp := some ⟨r0, r1⟩, free := n } ∧
      u.olp = ⟨(v.olp.left.run eL).1, (v.olp.right.run eR).1⟩ ∧
      F.ofBits r0 = (v.olp.left.run eL).2 ∧ F.ofBits r1 = (v.olp.right.run eR).2
    (v.mode = .parallel → (fourfold d.left).isFinite = true → (fourfold d.right).isFinite = true →
      finite (v.block1.run d).2 → finite (v.block2.run d).2 → finite (v.block3.run d).2 →
      (∀ n, finite (v.block4.run n d).2) → bypassed) ∧
    (v.mode = .serial →
      (let s1 := (v.blend1 d).2
       let s2 := (v.blend2 s1).2
       let s3 := (v.blend3 s2).2
       finite (v.block1.run d).2 ∧ finite (v.block2.run s1).2 ∧ finite (v.block3.run s2).2 ∧
        ∀ n, finite (v.block4.run n s3).2) → bypassed) ∧
    (v.mode = .hybrid → (twice d.left).isFinite = true → (twice d.right).isFinite = true →
      (let t3 := (v.blend3 d).2
       finite (v.block3.run d).2 ∧ ∀ n,
        let t4 := (v.blend4 n t3).2
        finite (v.block4.run n t3).2 ∧ finite (v.block1.run t4).2 ∧ finite (v.block2.run t4).2) → bypassed)

/-- Rule R210: `RV.SETSR` gives the operand to every block and both output lowpasses; `lowpass_cutoff` follows
the left one; wets, mode and last output stay. -/
def Obligations.RvSetsrPropagates : Prop :=
  ∀ (s : State) (v : Reverb) (a : Word), s.device = .rv v → (F.ofBits a).isFinite = true →
    v.fitsAt (F.ofBits a) = true →
    ∃ n, exec (.rvSetsr a) s =
      .next { s with
        device := .rv { v with
          sampleRate := if (F.ofBits a).lt F.one then F.one else F.ofBits a
          block1 := v.block1.setRate (F.ofBits a)
          block2 := v.block2.setRate (F.ofBits a)
          block3 := v.block3.setRate (F.ofBits a)
          block4 := v.block4.setRate (F.ofBits a)
          olp := ⟨v.olp.left.setRate (F.ofBits a), v.olp.right.setRate (F.ofBits a)⟩
          lowpassCutoff := (v.olp.left.setRate (F.ofBits a)).cutoff }
        rsp := some ⟨0, 0⟩
        free := n }

/-- Rules R210, R267: whatever rates the units had, after an `RV.SETSR` all of them run at the one clamped
rate. -/
def Obligations.RvSetsrLeavesOneRate : Prop :=
  ∀ (s t : State) (v : Reverb) (a : Word), s.device = .rv v → exec (.rvSetsr a) s = .next t →
    ∃ w, t.device = .rv w ∧ w.atRate (if (F.ofBits a).lt F.one then F.one else F.ofBits a)

/-- Rule R211: a block index `1 .. 4` names the wet that gets the clamped operand; any other has no effect. -/
def Obligations.RvSetwetClampsOrIgnores : Prop :=
  ∀ (s : State) (v : Reverb) (idx : Nat) (a : Word), s.device = .rv v → (F.ofBits a).isFinite = true →
    let x := clamp (F.ofBits a) F.zero F.one
    let wet : Wets :=
      if idx = 1 then { v.wet with w1 := x } else if idx = 2 then { v.wet with w2 := x }
      else if idx = 3 then { v.wet with w3 := x } else if idx = 4 then { v.wet with w4 := x } else v.wet
    ∃ n, exec (.rvSetwet idx a) s =
      .next { s with device := .rv { v with wet := wet }, rsp := some ⟨0, 0⟩, free := n }

/-- Rules R144, R212: `RV.SETLPF` sets the clamped cutoff of the two output lowpasses, whose coefficients are
recomputed, and `lowpass_cutoff` follows the left one. -/
def Obligations.RvSetlpfReachesOutputsOnly : Prop :=
  ∀ (s : State) (v : Reverb) (a : Word), s.device = .rv v → (F.ofBits a).isFinite = true →
    let cL := clamp (F.ofBits a) F.zero (v.olp.left.sampleRate.div F.two)
    let cR := clamp (F.ofBits a) F.zero (v.olp.right.sampleRate.div F.two)
    ∃ n, exec (.rvSetlpf a) s =
      .next { s with
        device := .rv { v with
          olp :=
            ⟨{ v.olp.left with
                cutoff := cL
                coefs := coef v.olp.left.type cL v.olp.left.q v.olp.left.gain v.olp.left.sampleRate },
             { v.olp.right with
                cutoff := cR
                coefs := coef v.olp.right.type cR v.olp.right.q v.olp.right.gain v.olp.right.sampleRate }⟩
          lowpassCutoff := cL }
        rsp := some ⟨0, 0⟩
        free := n }

/-- Rule R213: the mode stored is the integer operand clamped to `0 .. 2`; nothing else is written. -/
def Obligations.RvSetmodeClamps : Prop :=
  ∀ (s : State) (v : Reverb) (a : Word), s.device = .rv v →
    ∃ n m, exec (.rvSetmode a) s =
        .next { s with device := .rv { v with mode := m }, rsp := some ⟨0, 0⟩, free := n } ∧
      (m.code : Int) = if a.toInt < 0 then 0 else if a.toInt > 2 then 2 else a.toInt

/-- Rule R214. -/
def Obligations.RvClearSilences : Prop :=
  ∀ (s : State) (v : Reverb), s.device = .rv v →
    ∃ n, exec .rvClear s =
      .next { s with
        device := .rv { v with
          block1 := v.block1.clear
          block2 := v.block2.clear
          block3 := v.block3.clear
          block4 := v.block4.clear
          olp := ⟨v.olp.left.clear, v.olp.right.clear⟩
          last := ⟨F.zero, F.zero⟩ }
        rsp := some ⟨0, 0⟩
        free := n }

/-- Rules R215, R217, R218, R219: the getters answer the sample rate, the stored cutoff, the mode as an integer
and the last output, and change nothing of the device. -/
def Obligations.RvGettersReadOnly : Prop :=
  ∀ (s : State) (v : Reverb), s.device = .rv v →
    (∃ n r0, exec .rvGetsr s = .next { s with rsp := some ⟨r0, 0⟩, free := n } ∧
      F.ofBits r0 = v.sampleRate) ∧
    (∃ n r0, exec .rvGetlpf s = .next { s with rsp := some ⟨r0, 0⟩, free := n } ∧
      F.ofBits r0 = v.lowpassCutoff) ∧
    (∃ n r0, exec .rvGetmode s = .next { s with rsp := some ⟨r0, 0⟩, free := n } ∧
      r0.toNat = v.mode.code) ∧
    (∃ n r0 r1, exec .rvGetout s = .next { s with rsp := some ⟨r0, r1⟩, free := n } ∧
      F.ofBits r0 = v.last.left ∧ F.ofBits r1 = v.last.right)

/-- Rule R216: an index `1 .. 4` reads that wet, any other answers `R0 = 0`. -/
def Obligations.RvGetwetReadsOrZero : Prop :=
  ∀ (s : State) (v : Reverb) (idx : Nat), s.device = .rv v →
    ∃ n r0, exec (.rvGetwet idx) s = .next { s with rsp := some ⟨r0, 0⟩, free := n } ∧
      (if idx = 1 then F.ofBits r0 = v.wet.w1 else if idx = 2 then F.ofBits r0 = v.wet.w2
       else if idx = 3 then F.ofBits r0 = v.wet.w3 else if idx = 4 then F.ofBits r0 = v.wet.w4 else r0 = 0)

/-- Rule R219: after an `RV.RUN` that answered a pair, `RV.GETOUT` answers the same pair. -/
def Obligations.RvGetoutRepeatsRun : Prop :=
  ∀ (s t : State) (v : Reverb) (a b : Word), s.device = .rv v → exec (.rvRun a b) s = .next t →
    ∃ u r0 r1 q0 q1, exec .rvGetout t = .next u ∧ t.rsp = some ⟨r0, r1⟩ ∧ u.rsp = some ⟨q0, q1⟩ ∧
      F.ofBits q0 = F.ofBits r0 ∧ F.ofBits q1 = F.ofBits r1 ∧ u.device = t.device

/-- Rules R201, R221: two devices whose modulators agree, taking the same draws, have modulators that agree after
an `RV.RUN`, whatever their modes, wets, filters and inputs. -/
def Obligations.ModulatorsIgnoreModeAndInput : Prop :=
  ∀ (s t s' t' : State) (u v : Reverb) (a b c d : Word), s.device = .rv u → t.device = .rv v →
    s.free = t.free → u.block3.lfo = v.block3.lfo → u.block4.rm = v.block4.rm →
    exec (.rvRun a b) s = .next s' → exec (.rvRun c d) t = .next t' →
    ∃ u' v', s'.device = .rv u' ∧ t'.device = .rv v' ∧ u'.block3.lfo = v'.block3.lfo ∧
      u'.block4.rm = v'.block4.rm

/-- Rules R91, R253: the seven commands of `RV.INIT`, on any device whose memories fit the new rate, leave the
control registers at the clamped arguments, the cutoff at the clamp for the new rate. -/
def Obligations.RvInitSetsControls : Prop :=
  ∀ (s : State) (v : Reverb) (sr w1 w2 w3 w4 cutoff mode : Word), s.device = .rv v →
    (F.ofBits sr).isFinite = true → (F.ofBits w1).isFinite = true → (F.ofBits w2).isFinite = true →
    (F.ofBits w3).isFinite = true → (F.ofBits w4).isFinite = true → (F.ofBits cutoff).isFinite = true →
    v.fitsAt (F.ofBits sr) = true →
    let rate := if (F.ofBits sr).lt F.one then F.one else F.ofBits sr
    ∃ t u, execAll (rvInit sr w1 w2 w3 w4 cutoff mode) s = .next t ∧ t.device = .rv u ∧
      u.sampleRate = rate ∧
      u.wet = ⟨clamp (F.ofBits w1) F.zero F.one, clamp (F.ofBits w2) F.zero F.one,
        clamp (F.ofBits w3) F.zero F.one, clamp (F.ofBits w4) F.zero F.one⟩ ∧
      u.lowpassCutoff = clamp (F.ofBits cutoff) F.zero (rate.div F.two) ∧
      (u.mode.code : Int) = (if mode.toInt < 0 then 0 else if mode.toInt > 2 then 2 else mode.toInt) ∧
      u.last = v.last

/-! ### Commands, decoding, reset -/

/-- Rule R81: when the command presented next decodes to an instruction, a step is that instruction on the state
with the command taken from the port (log 2), and the instruction is well formed. -/
def Obligations.StepRunsDecodedInstruction : Prop :=
  ∀ (s : State) (x : Input) (rest : List Input) (i : Instr), s.input = x :: rest → x.rst = false →
    decodeCommand x.command = .ok i → step s = exec i { s with input := rest } ∧ i.wellFormed = true

/-- Rules R81, R82: every accepted command that completes, a legal or an illegal one, is answered by one response and
taken from the port; a result that the row of an instruction does not produce is all zeros. -/
def Obligations.EveryCommandIsAnswered : Prop :=
  (∀ (s t : State) (x : Input) (rest : List Input), s.input = x :: rest → x.rst = false → step s = .next t →
    t.rsp.isSome = true ∧ t.input = rest) ∧
  ∀ (i : Instr) (s t : State), exec i s = .next t →
    ∃ r0 r1, t.rsp = some ⟨r0, r1⟩ ∧ (i.opcode.results ≤ 1 → r1 = 0) ∧ (i.opcode.results = 0 → r0 = 0)

/-- Rules R87, R88: a command whose word no row of the opcode map selects, or whose row is of a class that is not
the device's, changes no state and answers zeros; so does an instruction of another class wherever it is executed. -/
def Obligations.IllegalCommandHasNoEffect : Prop :=
  (∀ (s : State) (x : Input) (rest : List Input), s.input = x :: rest → x.rst = false →
    ((∀ r ∈ opcodeRows, r.selects x.command.word = false) ∨
      ∃ r ∈ opcodeRows, r.selects x.command.word = true ∧ r.opcode.cls ≠ s.device.cls) →
    step s = .next { s with input := rest, rsp := some ⟨0, 0⟩ }) ∧
  ∀ (i : Instr) (s : State), i.cls ≠ s.device.cls → exec i s = .next { s with rsp := some ⟨0, 0⟩ }

/-- Rules R35, R232, R250, R251, R252: with `rst` high a step constructs the device anew and gives no response,
whatever command is presented beside it. The shipped device is as `State.reset` has it; a leaf instantiated alone, or a
lone block, which keeps its kind, is constructed from its own parameters. That a step has `rst` as an input, that no
response stands on the port, and that the parameters of a leaf are open constants is the model's (logs 4, 15, 21). -/
def Obligations.ResetWinsOverCommand : Prop :=
  ∀ (s : State) (x : Input) (rest : List Input), s.input = x :: rest → x.rst = true →
    let p := params.leaf
    let device : Device :=
      match s.device with
      | .rv _ => State.reset.device
      | .dl _ => .dl (mkDelayLine p.dlRate p.dlMaxTime p.dlTime p.dlFeedback)
      | .cf _ => .cf (mkCombFilter p.cfRate p.cfRec)
      | .ap _ => .ap (mkAllpassFilter p.apRate p.apRec)
      | .bq _ => .bq (mkBiquad p.bqType p.bqCutoff p.bqQ p.bqGain p.bqRate)
      | .lfo _ => .lfo (mkLfo p.lfoRate p.lfoFrequency)
      | .rm _ => .rm (mkRandomMod p.rmRate p.rmFrequency)
      | .bk (.early _) => .bk (.early (mkBlock1 tuning p.bkRate))
      | .bk (.midDense _) => .bk (.midDense (mkBlock2 tuning p.bkRate))
      | .bk (.lfoAllpass _) => .bk (.lfoAllpass (mkBlock3 tuning p.bkRate))
      | .bk (.rmAllpass _) => .bk (.rmAllpass (mkBlock4 tuning p.bkRate))
    ∃ n, step s = .next { device := device, rsp := none, input := rest, free := n }

/-- Rules R12, R35, R36, R250: the registers of the device after reset, and the units of the four blocks, each
constructed from its own entry of `TUNING`, at any rate. `RESET_LPF` and `TUNING` are open; that the other three reset
parameters are at the defaults that R12 gives is the model's choice (log 10), and so is that no response stands on the
port (log 21). -/
def Obligations.ResetRegisterValues : Prop :=
  (∀ sr : F,
    let t := tuning
    let cf := mkCombFilter sr
    let ap := mkAllpassFilter sr
    let lp (r : LowpassRec) : Biquad := mkBiquad 0 r.cutoff r.q F.zero sr
    mkBlock1 t sr =
      { comb := ⟨⟨cf t.comb1.left.first, cf t.comb1.left.second⟩, ⟨cf t.comb1.right.first, cf t.comb1.right.second⟩⟩
        lp := ⟨lp t.lp1.left, lp t.lp1.right⟩ } ∧
    mkBlock2 t sr =
      { comb := ⟨⟨cf t.comb2.left.first, cf t.comb2.left.second⟩, ⟨cf t.comb2.right.first, cf t.comb2.right.second⟩⟩
        lp := ⟨lp t.lp2.left, lp t.lp2.right⟩ } ∧
    mkBlock3 t sr =
      { ap := ⟨⟨ap t.ap3.left.f1, ap t.ap3.left.f2, ap t.ap3.left.f3, ap t.ap3.left.f4⟩,
          ⟨ap t.ap3.right.f1, ap t.ap3.right.f2, ap t.ap3.right.f3, ap t.ap3.right.f4⟩⟩
        lp := ⟨lp t.lp3.left, lp t.lp3.right⟩
        lfo := ⟨mkLfo sr t.lfo3.left.frequency, mkLfo sr t.lfo3.right.frequency⟩ } ∧
    mkBlock4 t sr =
      { ap := ⟨⟨ap t.ap4.left.f1, ap t.ap4.left.f2, ap t.ap4.left.f3, ap t.ap4.left.f4, ap t.ap4.left.f5,
            ap t.ap4.left.f6⟩,
          ⟨ap t.ap4.right.f1, ap t.ap4.right.f2, ap t.ap4.right.f3, ap t.ap4.right.f4, ap t.ap4.right.f5,
            ap t.ap4.right.f6⟩⟩
        lp := ⟨lp t.lp4.left, lp t.lp4.right⟩
        rm := ⟨⟨mkRandomMod sr t.rm4.left.first.frequency, mkRandomMod sr t.rm4.left.second.frequency⟩,
          ⟨mkRandomMod sr t.rm4.right.first.frequency, mkRandomMod sr t.rm4.right.second.frequency⟩⟩ }) ∧
  ∃ v, State.reset.device = .rv v ∧ State.reset.rsp = none ∧
    v.sampleRate = F.ofBits 0x40E5888000000000 ∧ v.wet = ⟨F.one, F.one, F.one, F.one⟩ ∧
    v.mode = .parallel ∧
    v.lowpassCutoff = clamp params.resetLpf F.zero (v.sampleRate.div F.two) ∧
    v.last = ⟨F.zero, F.zero⟩ ∧
    v.block1 = mkBlock1 tuning v.sampleRate ∧ v.block2 = mkBlock2 tuning v.sampleRate ∧
    v.block3 = mkBlock3 tuning v.sampleRate ∧ v.block4 = mkBlock4 tuning v.sampleRate ∧
    v.olp.left = mkBiquad 0 v.lowpassCutoff tuning.outQ F.zero v.sampleRate ∧
    v.olp.right = mkBiquad 0 v.lowpassCutoff tuning.outQ F.zero v.sampleRate

/-- Rule R241: with nothing presented, the device holds its state and gives no response. -/
def Obligations.IdleHoldsState : Prop :=
  ∀ s : State, s.input = [] → step s = .next { s with rsp := none }

/-- Rules R85, R87, R90: a few command words, written out from the table, and what they decode to. -/
def Obligations.SampleWordsDecode : Prop :=
  (decodeCommand ⟨0x00000000, 0x3FF0000000000000, 0xBFF0000000000000⟩).toOption
      = some (.rvRun 0x3FF0000000000000 0xBFF0000000000000) ∧
  (decodeCommand ⟨0x02030000, 0x3FD0000000000000, 0⟩).toOption = some (.rvSetwet 3 0x3FD0000000000000) ∧
  (decodeCommand ⟨0x13000001, 0x4049000000000000, 0⟩).toOption = some (.dlSetmax true 0x4049000000000000) ∧
  (decodeCommand ⟨0x45000000, 9, 0⟩).toOption = some (.bqSettype 9) ∧
  (decodeCommand ⟨0x77000000, 0, 0⟩).toOption = some .bkClear ∧
  (decodeCommand ⟨0x0B000000, 0, 0⟩).toOption = none ∧
  (decodeCommand ⟨0x01010000, 0, 0⟩).toOption = none ∧
  (decodeCommand ⟨0x80000000, 0, 0⟩).toOption = none

/-- Rules R83, R85, R86: decoding the encoding of a well-formed instruction gives it back, with every operand at
every value. -/
def Obligations.DecodeOfEncode : Prop :=
  ∀ i : Instr, i.wellFormed = true → decodeCommand (encode i) = .ok i

/-- Rules R85, R88: "either one row matches, or the word is illegal", on all 2^32 words: a word decodes to an
instruction exactly when a row selects it, the row is the instruction's, no second row selects it, and the word is
the instruction's encoding. -/
def Obligations.DecodeExactlyWhereOneRowSelects : Prop :=
  ∀ k : Command,
    ((∃ i, decodeCommand k = .ok i) ↔ ∃ r ∈ opcodeRows, r.selects k.word = true) ∧
    (∀ i, decodeCommand k = .ok i →
      i.wellFormed = true ∧ (encode i).word = k.word ∧
      ∀ r ∈ opcodeRows, r.selects k.word = true → r.opcode = i.opcode) ∧
    ∀ r ∈ opcodeRows, ∀ r' ∈ opcodeRows, r.selects k.word = true → r'.selects k.word = true → r = r'

/-! ### Invariants -/

/-- Rule R253: the reset state satisfies every invariant of `10_state.md`. -/
def Obligations.ResetMeetsInvariant : Prop := State.reset.Inv

/-- Rules R24, R25, R29, R30, R31, R32, R33, R36, R63: every step that completes keeps the invariants of
`10_state.md`, in every state that meets them, and the canonical form of every delay memory. -/
def Obligations.StepKeepsInvariant : Prop :=
  ∀ s t : State, s.Inv → step s = .next t → t.Inv

/-- Rules R35, R84: a step never changes the class of the device nor the kind of a block. The last clause is about the
model's own field `input` (log 2): no instruction reaches the host's command stream, which is not device state
(rule R22). -/
def Obligations.DeviceIdentityIsFixed : Prop :=
  (∀ s t : State, step s = .next t → t.device.cls = s.device.cls ∧
    ∀ k, s.device = .bk k → ∃ k', t.device = .bk k' ∧ k'.kind = k.kind) ∧
  ∀ (i : Instr) (s t : State), exec i s = .next t → t.input = s.input

/-! ### Where a step has no meaning -/

/-- Entry U5, log 11 (the model's choice among what the entry allows): a setter whose operand is not finite is
refused by name; for a wet or a cutoff only a NaN is. -/
def Obligations.SetterRefusesNonFinite : Prop :=
  ∀ (s : State) (a : Word),
    ((F.ofBits a).isFinite = false →
      (∀ v, s.device = .rv v → exec (.rvSetsr a) s = .refused .nonFiniteOperand) ∧
      (∀ d, s.device = .dl d → exec (.dlSetsr a) s = .refused .nonFiniteOperand ∧
        exec (.dlSettime a) s = .refused .nonFiniteOperand ∧
        ∀ c, exec (.dlSetmax c a) s = .refused .nonFiniteOperand) ∧
      (∀ c, s.device = .cf c → exec (.cfSetsr a) s = .refused .nonFiniteOperand ∧
        exec (.cfSettime a) s = .refused .nonFiniteOperand) ∧
      (∀ f, s.device = .ap f → exec (.apSetsr a) s = .refused .nonFiniteOperand ∧
        exec (.apSettime a) s = .refused .nonFiniteOperand) ∧
      (∀ q, s.device = .bq q → exec (.bqSetsr a) s = .refused .nonFiniteOperand ∧
        exec (.bqSetq a) s = .refused .nonFiniteOperand ∧
        exec (.bqSetgain a) s = .refused .nonFiniteOperand) ∧
      (∀ l, s.device = .lfo l → exec (.lfoSetsr a) s = .refused .nonFiniteOperand) ∧
      (∀ m, s.device = .rm m → exec (.rmSetsr a) s = .refused .nonFiniteOperand) ∧
      (∀ k, s.device = .bk k → exec (.bkSetsr a) s = .refused .nonFiniteOperand)) ∧
    ((F.ofBits a).isNan = true →
      (∀ v, s.device = .rv v → exec (.rvSetlpf a) s = .refused .nonFiniteOperand ∧
        ∀ idx, 1 ≤ idx → idx ≤ 4 → exec (.rvSetwet idx a) s = .refused .nonFiniteOperand) ∧
      (∀ q, s.device = .bq q → exec (.bqSetcut a) s = .refused .nonFiniteOperand))

/-- Rule R262, entry U1, log 12 (the model's choice among what the entry allows): a command that would take a
capacity above `CAP_MAX` is refused by name. -/
def Obligations.OversizedMemoryRefused : Prop :=
  ∀ (s : State) (a : Word), (F.ofBits a).isFinite = true →
    (∀ v, s.device = .rv v → v.fitsAt (F.ofBits a) = false →
      exec (.rvSetsr a) s = .refused .capacityAboveCapMax) ∧
    (∀ d, s.device = .dl d → d.fitsAt (F.ofBits a) = false →
      exec (.dlSetsr a) s = .refused .capacityAboveCapMax) ∧
    (∀ d c, s.device = .dl d →
      fitsMemory (if (F.ofBits a).lt F.zero then F.zero else F.ofBits a) d.sampleRate = false →
      exec (.dlSetmax c a) s = .refused .capacityAboveCapMax) ∧
    (∀ c, s.device = .cf c → c.fitsAt (F.ofBits a) = false →
      exec (.cfSetsr a) s = .refused .capacityAboveCapMax) ∧
    (∀ f, s.device = .ap f → f.fitsAt (F.ofBits a) = false →
      exec (.apSetsr a) s = .refused .capacityAboveCapMax) ∧
    (∀ k, s.device = .bk k → k.fitsAt (F.ofBits a) = false →
      exec (.bkSetsr a) s = .refused .capacityAboveCapMax)

/-- Rule R230, entries U1, U5: a step raises no fault and is total on its domain. It is refused as `nonFiniteOperand`
exactly when a command of the device's class is taken whose operand is outside the domain, as `capacityAboveCapMax`
exactly when the operand is inside and a delay memory would not fit, and otherwise it answers a next state. The two
names, and what of entry U5 is admitted, are the model's choice (logs 11, 12, 19, 20). -/
def Obligations.StepNeverFaults : Prop :=
  ∀ s : State,
    let takes (i : Instr) : Prop := ∃ x rest, s.input = x :: rest ∧ x.rst = false ∧
      decodeCommand x.command = .ok i ∧ i.cls = s.device.cls
    (step s = .refused .nonFiniteOperand ↔ ∃ i, takes i ∧ operandInDomain i = false) ∧
    (step s = .refused .capacityAboveCapMax ↔
      ∃ i, takes i ∧ operandInDomain i = true ∧ memoryInDomain i s.device = false) ∧
    ((∀ i, takes i → operandInDomain i = true ∧ memoryInDomain i s.device = true) → ∃ t, step s = .next t)

end
end

