-- ==== Sys2Proof/Laws/Arith.lean ====
section
/-! SUPPORT. Laws of the binary64 arithmetic: rounding is exact on representable values and monotone,
and the doubles and fourfolds that the averages of rule R220 make are exact. -/

set_option Elab.async false

namespace Sys2Proof

/-! ### Rounding to an integer -/

theorem divNearestEven_mul (q d : Nat) (hd : 0 < d) : divNearestEven (q * d) d = q := by
  simp [divNearestEven, Nat.mul_div_cancel _ hd, hd]

theorem divNearestEven_le {n d c : Nat} (hd : 0 < d) (h : n ≤ c * d) : divNearestEven n d ≤ c := by
  have hdm := Nat.div_add_mod n d
  have hr := Nat.mod_lt n hd
  have hq : n / d ≤ c := by
    rw [← Nat.mul_div_cancel c hd]; exact Nat.div_le_div_right h
  unfold divNearestEven
  rcases Nat.lt_or_eq_of_le hq with hlt | heq
  · simp only; split_ifs <;> omega
  · have h0 : n % d = 0 := by
      have : d * (n / d) = c * d := by rw [heq, Nat.mul_comm]
      omega
    simp [h0, hd, heq]

theorem le_divNearestEven {n d c : Nat} (hd : 0 < d) (h : c * d ≤ n) : c ≤ divNearestEven n d := by
  have hq : c ≤ n / d := (Nat.le_div_iff_mul_le hd).2 h
  unfold divNearestEven
  simp only; split_ifs <;> omega

/-- Rounding to an integer is monotone in the exact fraction. -/
theorem divNearestEven_mono {n d n' d' : Nat} (hd : 0 < d) (hd' : 0 < d') (h : n * d' ≤ n' * d) :
    divNearestEven n d ≤ divNearestEven n' d' := by
  have hdm := Nat.div_add_mod n d
  have hr := Nat.mod_lt n hd
  have hdm' := Nat.div_add_mod n' d'
  have hr' := Nat.mod_lt n' hd'
  have hq : n / d ≤ n' / d' := by
    rw [Nat.le_div_iff_mul_le hd']
    have h1 : n / d * d ≤ n := Nat.div_mul_le_self n d
    have h2 : n / d * d' * d ≤ n' * d := by
      calc n / d * d' * d = n / d * d * d' := by ring
        _ ≤ n * d' := Nat.mul_le_mul_right _ h1
        _ ≤ n' * d := h
    exact Nat.le_of_mul_le_mul_right h2 hd
  rcases Nat.lt_or_eq_of_le hq with hlt | heq
  · have h1 : divNearestEven n d ≤ n / d + 1 := by
      unfold divNearestEven; simp only; split_ifs <;> omega
    have h2 : n' / d' ≤ divNearestEven n' d' := by
      unfold divNearestEven; simp only; split_ifs <;> omega
    omega
  · -- equal quotients: the remainders are ordered as fractions
    have hrem : n % d * d' ≤ n' % d' * d := by
      have e1 : n * d' = (n / d) * (d * d') + n % d * d' := by
        conv_lhs => rw [← hdm]
        ring
      have e2 : n' * d = (n' / d') * (d * d') + n' % d' * d := by
        conv_lhs => rw [← hdm']
        ring
      rw [e1, e2, heq] at h
      omega
    unfold divNearestEven
    simp only
    rw [heq]
    have key1 : ¬ 2 * (n % d) < d → ¬ 2 * (n' % d') < d' := by
      intro a b
      have a' : d * d' ≤ 2 * (n % d) * d' := Nat.mul_le_mul_right _ (by omega)
      have b' : 2 * (n' % d') * d < d' * d := Nat.mul_lt_mul_of_pos_right b hd
      nlinarith
    have key2 : d < 2 * (n % d) → d' < 2 * (n' % d') := by
      intro a
      by_contra b
      have a' : d * d' < 2 * (n % d) * d' := Nat.mul_lt_mul_of_pos_right a hd'
      have b' : 2 * (n' % d') * d ≤ d' * d := Nat.mul_le_mul_right _ (by omega)
      nlinarith
    split_ifs <;> omega

/-! ### Rounding to a magnitude -/

/-- The grid exponent of `roundMag`. -/
def gridExp (n d : Nat) : Nat := Nat.log2 (n / d) - 52

theorem roundMag_eq (n d : Nat) :
    roundMag n d = gridExp n d * 2 ^ 52 + divNearestEven n (d * 2 ^ gridExp n d) := rfl

theorem gridExp_zero {n d : Nat} (h : n / d < 2 ^ 53) : gridExp n d = 0 := by
  unfold gridExp
  by_cases h0 : n / d = 0
  · simp [h0]
  · have := (Nat.log2_lt h0).2 h
    omega

theorem gridExp_spec {n d : Nat} (h : 2 ^ 53 ≤ n / d) :
    2 ^ 52 * 2 ^ gridExp n d ≤ n / d ∧ n / d < 2 ^ 53 * 2 ^ gridExp n d := by
  have h0 : n / d ≠ 0 := by
    have : 0 < 2 ^ 53 := by positivity
    omega
  have h1 : 53 ≤ Nat.log2 (n / d) := (Nat.le_log2 h0).2 h
  have e : Nat.log2 (n / d) = 52 + gridExp n d := by unfold gridExp; omega
  constructor
  · rw [← pow_add, ← e]; exact Nat.log2_self_le h0
  · rw [← pow_add, show 53 + gridExp n d = Nat.log2 (n / d) + 1 by omega]
    exact Nat.lt_log2_self

/-- What falls on a grid coarser than the finest has its hidden bit. -/
theorem hidden_le {n d : Nat} (hd : 0 < d) (h : 0 < gridExp n d) :
    2 ^ 52 ≤ divNearestEven n (d * 2 ^ gridExp n d) := by
  have hb : 2 ^ 53 ≤ n / d := by
    by_contra hlt
    rw [gridExp_zero (by omega)] at h
    omega
  apply le_divNearestEven (by positivity)
  have := (Nat.le_div_iff_mul_le hd).1 (gridExp_spec hb).1
  calc 2 ^ 52 * (d * 2 ^ gridExp n d) = 2 ^ 52 * 2 ^ gridExp n d * d := by ring
    _ ≤ n := this

/-- A rounded significand is at most `2^53`. -/
theorem significand_le {n d : Nat} (hd : 0 < d) : divNearestEven n (d * 2 ^ gridExp n d) ≤ 2 ^ 53 := by
  apply divNearestEven_le (by positivity)
  by_cases hb : n / d < 2 ^ 53
  · rw [gridExp_zero hb]
    have := (Nat.div_lt_iff_lt_mul hd).1 hb
    simp only [pow_zero, mul_one]; omega
  · have := (Nat.div_lt_iff_lt_mul hd).1 (gridExp_spec (by omega : 2 ^ 53 ≤ n / d)).2
    calc n ≤ 2 ^ 53 * 2 ^ gridExp n d * d := this.le
      _ = 2 ^ 53 * (d * 2 ^ gridExp n d) := by ring

/-- Rounding is monotone in the exact fraction. -/
theorem roundMag_mono {n d n' d' : Nat} (hd : 0 < d) (hd' : 0 < d') (h : n * d' ≤ n' * d) :
    roundMag n d ≤ roundMag n' d' := by
  have hq : n / d ≤ n' / d' := by
    rw [Nat.le_div_iff_mul_le hd']
    have h2 : n / d * d' * d ≤ n' * d := by
      calc n / d * d' * d = n / d * d * d' := by ring
        _ ≤ n * d' := Nat.mul_le_mul_right _ (Nat.div_mul_le_self n d)
        _ ≤ n' * d := h
    exact Nat.le_of_mul_le_mul_right h2 hd
  have hk : gridExp n d ≤ gridExp n' d' := by
    unfold gridExp
    have : Nat.log2 (n / d) ≤ Nat.log2 (n' / d') := by
      by_cases h0 : n / d = 0
      · simp [h0]
      · have h0' : n' / d' ≠ 0 := ((Nat.pos_of_ne_zero h0).trans_le hq).ne'
        exact (Nat.le_log2 h0').2 ((Nat.log2_self_le h0).trans hq)
    omega
  rw [roundMag_eq, roundMag_eq]
  rcases Nat.lt_or_eq_of_le hk with hlt | heq
  · have h1 := significand_le (n := n) hd
    have h2 := hidden_le (n := n') hd' (by omega)
    have h3 : (gridExp n d + 1) * 2 ^ 52 ≤ gridExp n' d' * 2 ^ 52 := Nat.mul_le_mul_right _ hlt
    omega
  · rw [heq]
    apply Nat.add_le_add_left
    apply divNearestEven_mono (by positivity) (by positivity)
    calc n * (d' * 2 ^ gridExp n' d') = n * d' * 2 ^ gridExp n' d' := by ring
      _ ≤ n' * d * 2 ^ gridExp n' d' := Nat.mul_le_mul_right _ h
      _ = n' * (d * 2 ^ gridExp n' d') := by ring

/-- A representable value rounds to itself. -/
theorem roundMag_exact (m d : Nat) (hd : 0 < d) : roundMag (magUnits m * d) d = m := by
  have hq : magUnits m * d / d = magUnits m := Nat.mul_div_cancel _ hd
  rw [roundMag_eq]
  unfold magUnits at *
  split_ifs at * with he
  · have hm : m < 2 ^ 52 := by
      rcases Nat.div_eq_zero_iff.1 he with h | h <;> omega
    rw [gridExp_zero (by rw [hq]; omega)]
    simp [divNearestEven_mul m d hd]
  · have hf : m % 2 ^ 52 < 2 ^ 52 := Nat.mod_lt _ (by positivity)
    have hdm := Nat.div_add_mod m (2 ^ 52)
    have hx : gridExp ((2 ^ 52 + m % 2 ^ 52) * 2 ^ (m / 2 ^ 52 - 1) * d) d = m / 2 ^ 52 - 1 := by
      unfold gridExp
      rw [hq]
      have hp : 0 < 2 ^ (m / 2 ^ 52 - 1) := by positivity
      have h1 : Nat.log2 ((2 ^ 52 + m % 2 ^ 52) * 2 ^ (m / 2 ^ 52 - 1)) = 52 + (m / 2 ^ 52 - 1) := by
        rw [Nat.log2_eq_iff (by positivity)]
        constructor
        · rw [pow_add]; exact Nat.mul_le_mul_right _ (by omega)
        · rw [show 52 + (m / 2 ^ 52 - 1) + 1 = 53 + (m / 2 ^ 52 - 1) by omega, pow_add]
          exact Nat.mul_lt_mul_of_pos_right (by omega) hp
      omega
    rw [hx]
    have : (2 ^ 52 + m % 2 ^ 52) * 2 ^ (m / 2 ^ 52 - 1) * d
        = (2 ^ 52 + m % 2 ^ 52) * (d * 2 ^ (m / 2 ^ 52 - 1)) := by ring
    rw [this, divNearestEven_mul _ _ (by positivity)]
    have h2 : (m / 2 ^ 52 - 1) * 2 ^ 52 + 2 ^ 52 = 2 ^ 52 * (m / 2 ^ 52) := by
      have : 1 ≤ m / 2 ^ 52 := by omega
      obtain ⟨e, he'⟩ : ∃ e, m / 2 ^ 52 = e + 1 := ⟨_, (Nat.sub_add_cancel this).symm⟩
      rw [he']; simp; ring
    omega

/-! ### Multiples of a magnitude (rule R220) -/

theorem divNearestEven_scale (n d c : Nat) (hc : 0 < c) :
    divNearestEven (n * c) (d * c) = divNearestEven n d := by
  unfold divNearestEven
  rw [Nat.mul_div_mul_right _ _ hc, Nat.mul_mod_mul_right]
  have h1 : 2 * (n % d * c) < d * c ↔ 2 * (n % d) < d := by
    rw [← Nat.mul_assoc]; exact Nat.mul_lt_mul_right hc
  have h2 : d * c < 2 * (n % d * c) ↔ d < 2 * (n % d) := by
    rw [← Nat.mul_assoc]; exact Nat.mul_lt_mul_right hc
  simp only [h1, h2]

/-- The grid of a value given as `f * 2^k` with `f` between `2^(52+j)` and `2^(53+j)`, or small and `k = j = 0`. -/
theorem gridExp_of {f k j : Nat} (h : 2 ^ (52 + j) ≤ f ∨ (k = 0 ∧ j = 0)) (h2 : f < 2 ^ (53 + j)) :
    gridExp (f * 2 ^ k) 1 = k + j := by
  rcases h with h | ⟨rfl, rfl⟩
  · have : Nat.log2 (f * 2 ^ k) = 52 + j + k := by
      have hf : 0 < f := lt_of_lt_of_le (by positivity) h
      rw [Nat.log2_eq_iff (by positivity)]
      constructor
      · rw [pow_add _ (52 + j)]; exact Nat.mul_le_mul_right _ h
      · rw [show 52 + j + k + 1 = (53 + j) + k by omega, pow_add _ (53 + j)]
        exact Nat.mul_lt_mul_of_pos_right h2 (by positivity)
    unfold gridExp
    rw [Nat.div_one, this]; omega
  · exact gridExp_zero (by simpa using h2)

/-- Rounding `f * 2^k` on its own grid, `j` bits coarser than `2^k`. -/
theorem roundMag_of {f k j : Nat} (h : 2 ^ (52 + j) ≤ f ∨ (k = 0 ∧ j = 0)) (h2 : f < 2 ^ (53 + j)) :
    roundMag (f * 2 ^ k) 1 = (k + j) * 2 ^ 52 + divNearestEven f (2 ^ j) := by
  rw [roundMag_eq, gridExp_of h h2, Nat.one_mul, Nat.add_comm k j, pow_add,
    divNearestEven_scale _ _ _ (by positivity)]

/-- The exact value of the magnitude with grid exponent `k` and significand `f`. -/
theorem magUnits_of {f k : Nat} (h : 2 ^ 52 ≤ f ∨ k = 0) (h2 : f ≤ 2 ^ 53) :
    magUnits (k * 2 ^ 52 + f) = f * 2 ^ k := by
  unfold magUnits
  rcases Nat.lt_or_ge f (2 ^ 52) with hs | hl
  · obtain rfl : k = 0 := by omega
    rw [if_pos (by omega)]; omega
  · rcases Nat.lt_or_eq_of_le h2 with hlt | rfl
    · have e : (k * 2 ^ 52 + f) / 2 ^ 52 = k + 1 := by omega
      have m : (k * 2 ^ 52 + f) % 2 ^ 52 = f - 2 ^ 52 := by omega
      rw [e, m, if_neg (by omega), show 2 ^ 52 + (f - 2 ^ 52) = f by omega, Nat.add_sub_cancel]
    · have e : (k * 2 ^ 52 + 2 ^ 53) / 2 ^ 52 = k + 2 := by omega
      have m : (k * 2 ^ 52 + 2 ^ 53) % 2 ^ 52 = 0 := by omega
      rw [e, m, if_neg (by omega), Nat.add_zero, show k + 2 - 1 = k + 1 by omega, pow_succ 2 k,
        show (2 : Nat) ^ 53 = 2 ^ 52 * 2 by norm_num, Nat.mul_assoc, Nat.mul_comm 2]

/-- Every magnitude has a grid exponent and a significand. -/
theorem magUnits_form (m : Nat) : ∃ f k, magUnits m = f * 2 ^ k ∧ f < 2 ^ 53 ∧ (2 ^ 52 ≤ f ∨ k = 0) := by
  unfold magUnits
  split_ifs with h
  · exact ⟨m, 0, by simp, by omega, .inr rfl⟩
  · exact ⟨_, _, rfl, by omega, .inl (by omega)⟩

/-- Twice a magnitude is a magnitude: it rounds to itself. -/
theorem magUnits_roundMag_double (m : Nat) : magUnits (roundMag (2 * magUnits m) 1) = 2 * magUnits m := by
  obtain ⟨f, k, hm, hf, hk⟩ := magUnits_form m
  rw [hm]
  rcases Nat.lt_or_ge f (2 ^ 52) with hs | hl
  · obtain rfl : k = 0 := by omega
    have := roundMag_of (f := 2 * f) (k := 0) (j := 0) (.inr ⟨rfl, rfl⟩) (by omega)
    have e := divNearestEven_mul (2 * f) 1 Nat.one_pos
    simp only [pow_zero, Nat.mul_one, Nat.zero_add, Nat.zero_mul] at *
    rw [this, e]
    have := magUnits_of (f := 2 * f) (k := 0) (.inr rfl) (by omega)
    simpa using this
  · have e : 2 * (f * 2 ^ k) = f * 2 ^ (k + 1) := by rw [pow_succ]; ring
    have := roundMag_of (f := f) (k := k + 1) (j := 0) (.inl (by simpa using hl)) (by simpa using hf)
    rw [e, this, pow_zero, Nat.add_zero]
    have e1 := divNearestEven_mul f 1 Nat.one_pos
    rw [Nat.mul_one] at e1
    rw [e1]
    exact magUnits_of (.inl hl) hf.le

/-- Half of three times `f`, rounded, doubled and with `f` added, is within 1 of `4 f`. -/
theorem three_halves (f : Nat) :
    2 * divNearestEven (3 * f) 2 = 3 * f ∨ 2 * divNearestEven (3 * f) 2 = 3 * f + 1 ∨
      2 * divNearestEven (3 * f) 2 + 1 = 3 * f := by
  unfold divNearestEven; simp only; split_ifs <;> omega

/-- A quarter of three times `f`, rounded, is within a half, and even where it is that far. -/
theorem three_quarters (f : Nat) :
    (4 * divNearestEven (3 * f) 4 ≤ 3 * f + 2 ∧ 3 * f ≤ 4 * divNearestEven (3 * f) 4 + 2) ∧
      (4 * divNearestEven (3 * f) 4 = 3 * f + 2 ∨ 4 * divNearestEven (3 * f) 4 + 2 = 3 * f →
        divNearestEven (3 * f) 4 % 2 = 0) := by
  unfold divNearestEven; simp only; split_ifs <;> omega

theorem divNearestEven_near2 {s f : Nat} (h : s = 4 * f ∨ s = 4 * f + 1 ∨ s + 1 = 4 * f) :
    divNearestEven s 2 = 2 * f := by
  unfold divNearestEven; simp only; split_ifs <;> omega

theorem divNearestEven_near4 {s f : Nat} (h : s < 4 * f + 2 ∧ 4 * f < s + 2 ∨
    (s = 4 * f + 2 ∨ s + 2 = 4 * f) ∧ f % 2 = 0) : divNearestEven s 4 = f := by
  unfold divNearestEven; simp only; split_ifs <;> omega

/-- Three times a magnitude, rounded, and once more the magnitude, rounded, is four times it. -/
theorem roundMag_fourth (m : Nat) :
    roundMag (magUnits (roundMag (3 * magUnits m) 1) + magUnits m) 1 = roundMag (4 * magUnits m) 1 := by
  obtain ⟨f, k, hm, hf, hk⟩ := magUnits_form m
  rw [hm, ← Nat.mul_assoc 3, ← Nat.mul_assoc 4]
  -- the sum, in units of `2^k`
  have key : ∀ (j g : Nat), roundMag ((3 * f) * 2 ^ k) 1 = (k + j) * 2 ^ 52 + g → (2 ^ 52 ≤ g ∨ k + j = 0) →
      g ≤ 2 ^ 53 → magUnits (roundMag ((3 * f) * 2 ^ k) 1) + f * 2 ^ k = (g * 2 ^ j + f) * 2 ^ k := by
    intro j g h h1 h2
    rw [h, magUnits_of h1 h2, pow_add]; ring
  rcases Nat.lt_or_ge (3 * f) (2 ^ 53) with h53 | h53
  · obtain rfl : k = 0 := by omega
    have r := roundMag_of (f := 3 * f) (k := 0) (j := 0) (.inr ⟨rfl, rfl⟩) h53
    have e1 := divNearestEven_mul (3 * f) 1 Nat.one_pos
    rw [Nat.mul_one] at e1
    rw [pow_zero, e1] at r
    rw [key 0 _ r (.inr rfl) h53.le, pow_zero, show 3 * f * 1 + f = 4 * f by omega]
  rcases Nat.lt_or_ge (3 * f) (2 ^ 54) with h54 | h54
  · have r := roundMag_of (f := 3 * f) (k := k) (j := 1) (.inl h53) h54
    have t := three_halves f
    rw [pow_one] at r
    generalize divNearestEven (3 * f) 2 = g at r t
    rw [key 1 g r (.inl (by omega)) (by omega), pow_one]
    rcases t with t | t
    · rw [show g * 2 + f = 4 * f by omega]
    · rcases Nat.lt_or_ge f (2 ^ 52) with hs | hl
      · rw [roundMag_of (f := g * 2 + f) (k := k) (j := 1) (.inl (by omega)) (by omega),
          roundMag_of (f := 4 * f) (k := k) (j := 1) (.inl (by omega)) (by omega), pow_one,
          divNearestEven_near2 (f := f) (by omega), divNearestEven_near2 (f := f) (.inl rfl)]
      · rw [roundMag_of (f := g * 2 + f) (k := k) (j := 2) (.inl (by omega)) (by omega),
          roundMag_of (f := 4 * f) (k := k) (j := 2) (.inl (by omega)) (by omega),
          show 2 ^ 2 = 4 from rfl, divNearestEven_near4 (f := f) (by omega),
            divNearestEven_near4 (f := f) (.inl (by omega))]
  · have r := roundMag_of (f := 3 * f) (k := k) (j := 2) (.inl h54) (by omega)
    have t := three_quarters f
    rw [show 2 ^ 2 = 4 from rfl] at r
    generalize divNearestEven (3 * f) 4 = g at r t
    rw [key 2 g r (.inl (by omega)) (by omega),
      roundMag_of (f := g * 2 ^ 2 + f) (k := k) (j := 2) (.inl (by omega)) (by omega),
      roundMag_of (f := 4 * f) (k := k) (j := 2) (.inl (by omega)) (by omega),
      show 2 ^ 2 = 4 from rfl, divNearestEven_near4 (f := f) (by omega),
      divNearestEven_near4 (f := f) (.inl (by omega))]

/-- Four times a magnitude is a magnitude: it rounds to itself. -/
theorem magUnits_roundMag_quadruple (m : Nat) : magUnits (roundMag (4 * magUnits m) 1) = 4 * magUnits m := by
  have h := magUnits_roundMag_double (roundMag (2 * magUnits m) 1)
  rw [magUnits_roundMag_double m] at h
  rw [show 4 * magUnits m = 2 * (2 * magUnits m) by omega, h]

end Sys2Proof
end

