-- ==== Sys2Proof/Laws/Float.lean ====
section
/-! SUPPORT. Laws of the values `F`: the constants, exact cases of the operations, the order of rule R15 and
its clamp. -/

set_option Elab.async false

namespace Sys2Proof

/-! ### Constants -/

theorem F.zero_eq : F.zero = .fin false ⟨0, by norm_num⟩ := by decide
theorem F.one_eq : F.one = .fin false ⟨0x3FF0000000000000, by norm_num⟩ := by decide
theorem F.negOne_eq : F.negOne = .fin true ⟨0x3FF0000000000000, by norm_num⟩ := by decide
theorem F.two_eq : F.two = .fin false ⟨0x4000000000000000, by norm_num⟩ := by decide
theorem F.thousand_eq : F.thousand = .fin false ⟨0x408F400000000000, by norm_num⟩ := by decide

theorem unitsPerOne_pos : 0 < unitsPerOne := by
  unfold unitsPerOne; positivity

/-- `1.0` is `unitsPerOne` units. -/
theorem magUnits_one : magUnits 0x3FF0000000000000 = unitsPerOne := by decide +kernel

@[simp] theorem magUnits_zero : magUnits 0 = 0 := by simp [magUnits]

theorem magUnits_eq_zero {m : Nat} : magUnits m = 0 ↔ m = 0 := by
  constructor
  · intro h
    unfold magUnits at h
    split_ifs at h with he
    · exact h
    · have := Nat.mul_eq_zero.1 h
      rcases this with h1 | h1
      · omega
      · exact absurd h1 (by positivity)
  · rintro rfl; simp

/-! ### Rounding to a value -/

theorem F.roundUnits_exact (s : Bool) (m d : Nat) (hm : m < magLimit) (hd : 0 < d) :
    F.roundUnits s (magUnits m * d) d = .fin s ⟨m, hm⟩ := by
  unfold F.roundUnits
  simp only [roundMag_exact m d hd, hm, dite_true]

theorem F.roundUnits_zero (s : Bool) (d : Nat) (hd : 0 < d) :
    F.roundUnits s 0 d = .fin s ⟨0, by norm_num⟩ := by
  have := F.roundUnits_exact s 0 d (by norm_num) hd
  simpa using this

/-- What rounding answers has the sign it was given. -/
theorem F.roundUnits_sign (s : Bool) (n d : Nat) :
    (∃ m, F.roundUnits s n d = .fin s m) ∨ F.roundUnits s n d = .inf s := by
  unfold F.roundUnits
  split_ifs with h
  · exact .inl ⟨_, rfl⟩
  · exact .inr rfl

/-! ### Exact cases of the operations (rule R14) -/

theorem F.mul_one (x : F) : x.mul F.one = x := by
  rw [F.one_eq]
  cases x with
  | nan => rfl
  | inf s => simp [F.mul]
  | fin s m =>
    simp only [F.mul, magUnits_one, Bool.bne_false]
    exact F.roundUnits_exact s m.val unitsPerOne m.isLt unitsPerOne_pos

theorem F.one_mul (x : F) : F.one.mul x = x := by
  rw [F.one_eq]
  cases x with
  | nan => rfl
  | inf s => simp [F.mul]
  | fin s m =>
    simp only [F.mul, magUnits_one, Bool.false_bne]
    rw [Nat.mul_comm]
    exact F.roundUnits_exact s m.val unitsPerOne m.isLt unitsPerOne_pos

/-- A finite value times `+0.0` is a zero of its sign. -/
theorem F.fin_mul_zero (s : Bool) (m : Fin magLimit) :
    (F.fin s m).mul F.zero = .fin s ⟨0, by norm_num⟩ := by
  rw [F.zero_eq]
  simp only [F.mul, magUnits_zero, Nat.mul_zero, Bool.bne_false]
  exact F.roundUnits_zero s _ unitsPerOne_pos

/-- `+0.0` times a finite value is a zero of its sign. -/
theorem F.zero_mul_fin (s : Bool) (m : Fin magLimit) :
    F.zero.mul (.fin s m) = .fin s ⟨0, by norm_num⟩ := by
  rw [F.zero_eq]
  simp only [F.mul, magUnits_zero, Nat.zero_mul, Bool.false_bne]
  exact F.roundUnits_zero s _ unitsPerOne_pos

/-- A nonzero finite value plus a zero of either sign is itself. -/
theorem F.fin_add_zero (s t : Bool) (m : Fin magLimit) (hm : m.val ≠ 0) :
    (F.fin s m).add (.fin t ⟨0, by norm_num⟩) = .fin s m := by
  have hu : magUnits m.val ≠ 0 := fun h => hm (magUnits_eq_zero.1 h)
  have h1 := F.roundUnits_exact s m.val 1 m.isLt Nat.one_pos
  rw [Nat.mul_one] at h1
  have hn : ¬ ((magUnits m.val : Int) < 0) := by omega
  cases s <;> cases t <;> simp [F.add, F.units, hu, hn, Nat.pos_of_ne_zero hu, h1]

/-- A zero of either sign plus a nonzero finite value is that value. -/
theorem F.zero_add_fin (s t : Bool) (m : Fin magLimit) (hm : m.val ≠ 0) :
    (F.fin t ⟨0, by norm_num⟩).add (.fin s m) = .fin s m := by
  have hu : magUnits m.val ≠ 0 := fun h => hm (magUnits_eq_zero.1 h)
  have h1 := F.roundUnits_exact s m.val 1 m.isLt Nat.one_pos
  rw [Nat.mul_one] at h1
  have hn : ¬ ((magUnits m.val : Int) < 0) := by omega
  cases s <;> cases t <;> simp [F.add, F.units, hu, hn, Nat.pos_of_ne_zero hu, h1]

/-- The sum of two zeros is `-0.0` only when both are. -/
theorem F.zero_add_zero (s t : Bool) :
    (F.fin s ⟨0, by norm_num⟩).add (.fin t ⟨0, by norm_num⟩) = .fin (s && t) ⟨0, by norm_num⟩ := by
  have := F.roundUnits_zero (s && t) 1 Nat.one_pos
  cases s <;> cases t <;> simpa [F.add, F.units] using this

/-! ### Order and clamp (rule R15) -/

theorem F.le_iff {a b : F} :
    a.le b = true ↔ ∃ x y, a.key = some x ∧ b.key = some y ∧ x ≤ y := by
  unfold F.le
  cases a.key <;> cases b.key <;> simp

theorem F.lt_iff {a b : F} :
    a.lt b = true ↔ ∃ x y, a.key = some x ∧ b.key = some y ∧ x < y := by
  unfold F.lt
  cases a.key <;> cases b.key <;> simp

theorem F.isNan_iff {a : F} : a.isNan = true ↔ a.key = none := by
  cases a <;> simp [F.isNan, F.key]

theorem F.key_of_number {a : F} (h : a.isNan = false) : ∃ x, a.key = some x := by
  cases a <;> simp [F.isNan, F.key] at *

theorem F.number_of_finite {a : F} (h : a.isFinite = true) : a.isNan = false := by
  cases a <;> simp [F.isNan, F.isFinite] at *

/-- For numbers, not less is the other way at most. -/
theorem F.le_of_not_lt {a b : F} (ha : a.isNan = false) (hb : b.isNan = false) (h : a.lt b = false) :
    b.le a = true := by
  obtain ⟨x, hx⟩ := F.key_of_number ha
  obtain ⟨y, hy⟩ := F.key_of_number hb
  simp only [F.lt, hx, hy, decide_eq_false_iff_not, not_lt] at h
  simp [F.le, hx, hy, h]

theorem F.not_lt_of_le {a b : F} (h : a.le b = true) : b.lt a = false := by
  obtain ⟨x, y, hx, hy, hxy⟩ := F.le_iff.1 h
  simp [F.lt, hx, hy, hxy]

theorem F.le_refl {a : F} (ha : a.isNan = false) : a.le a = true := by
  obtain ⟨x, hx⟩ := F.key_of_number ha
  simp [F.le, hx]

theorem F.le_trans {a b c : F} (h1 : a.le b = true) (h2 : b.le c = true) : a.le c = true := by
  obtain ⟨x, y, hx, hy, hxy⟩ := F.le_iff.1 h1
  obtain ⟨y', z, hy', hz, hyz⟩ := F.le_iff.1 h2
  rw [hy] at hy'
  obtain rfl := Option.some.inj hy'
  exact F.le_iff.2 ⟨x, z, hx, hz, hxy.trans hyz⟩

theorem F.number_of_le {a b : F} (h : a.le b = true) : a.isNan = false ∧ b.isNan = false := by
  obtain ⟨x, y, hx, hy, -⟩ := F.le_iff.1 h
  constructor
  · cases a <;> simp_all [F.isNan, F.key]
  · cases b <;> simp_all [F.isNan, F.key]

/-- The clamp of a number into a range lands in the range. -/
theorem clamp_inRange {x lo hi : F} (hx : x.isNan = false) (h : lo.le hi = true) :
    lo.le (clamp x lo hi) = true ∧ (clamp x lo hi).le hi = true := by
  obtain ⟨hlo, hhi⟩ := F.number_of_le h
  unfold clamp
  split_ifs with h1 h2
  · exact ⟨F.le_refl hlo, h⟩
  · exact ⟨h, F.le_refl hhi⟩
  · exact ⟨F.le_of_not_lt hx hlo (by simpa using h1), F.le_of_not_lt hhi hx (by simpa using h2)⟩

/-- The clamp of anything, a NaN included, is not outside its range. -/
theorem clamp_not_outside {x lo hi : F} (h : lo.le hi = true) :
    (clamp x lo hi).lt lo = false ∧ hi.lt (clamp x lo hi) = false := by
  cases hx : x.isNan with
  | false =>
    have := clamp_inRange hx h
    exact ⟨F.not_lt_of_le this.1, F.not_lt_of_le this.2⟩
  | true =>
    have hk := F.isNan_iff.1 hx
    have h1 : x.lt lo = false := by simp [F.lt, hk]
    have h2 : hi.lt x = false := by
      unfold F.lt; rw [hk]; cases hi.key <;> rfl
    have e : clamp x lo hi = x := by simp [clamp, h1, h2]
    rw [e]; exact ⟨h1, h2⟩

/-- A value already in the range is not changed by the clamp. -/
theorem clamp_of_inRange {x lo hi : F} (h1 : lo.le x = true) (h2 : x.le hi = true) :
    clamp x lo hi = x := by
  simp [clamp, F.not_lt_of_le h1, F.not_lt_of_le h2]

theorem F.zero_key : F.zero.key = some 0 := by decide

theorem F.one_number : F.one.isNan = false := by decide

theorem F.zero_le_one : F.zero.le F.one = true := by decide

/-- Rounding a value without a minus sign gives no negative value. -/
theorem F.roundUnits_nonneg (n d : Nat) : F.zero.le (F.roundUnits false n d) = true := by
  rcases F.roundUnits_sign false n d with ⟨m, h⟩ | h <;> rw [h, F.le_iff]
  · exact ⟨0, _, F.zero_key, rfl, by simp⟩
  · exact ⟨0, _, F.zero_key, rfl, by simp [magLimit]⟩

/-- Division of finite values by a nonzero one. -/
theorem F.div_fin (s t : Bool) (m n : Fin magLimit) (hn : n.val ≠ 0) :
    (F.fin s m).div (.fin t n) = F.roundUnits (s ^^ t) (magUnits m.val * unitsPerOne) (magUnits n.val) := by
  simp only [F.div, if_neg hn]

/-- The exact value of a finite value that is not negative. -/
theorem F.units_nonneg {x : F} (h : F.zero.le x = true) (hf : x.isFinite = true) : 0 ≤ x.units := by
  cases x with
  | nan => simp [F.isFinite] at hf
  | inf s => simp [F.isFinite] at hf
  | fin s m =>
    cases s
    · simp [F.units]
    · have hm : m.val = 0 := by
        obtain ⟨a, b, ha, hb, hab⟩ := F.le_iff.1 h
        rw [F.zero_key] at ha
        simp only [F.key, Option.some.injEq] at ha hb
        subst ha hb
        simp at hab
        simp [hab]
      simp [F.units, hm]

/-! ### Equality in value (rule R15) -/

/-- Values that are equal have one place in the order. -/
theorem F.key_eq_of_eqv {a b : F} (h : a.eqv b = true) : a.key = b.key := by
  simp only [F.eqv, Bool.and_eq_true, F.le_iff] at h
  obtain ⟨⟨x, y, h1, h2, h3⟩, ⟨z, w, h4, h5, h6⟩⟩ := h
  rw [h1] at h5; rw [h2] at h4; cases h4; cases h5
  rw [h1, h2, le_antisymm h3 h6]

/-- Numbers of one place are equal in value. -/
theorem F.eqv_of_key {a b : F} (h : a.key = b.key) (ha : a.isNan = false) : a.eqv b = true := by
  obtain ⟨x, hx⟩ := F.key_of_number ha
  simp [F.eqv, F.le, ← h, hx]

/-! ### The averages of the routing modes -/

/-- A rounded value that is finite is its rounded magnitude. -/
theorem F.roundUnits_finite {s : Bool} {n d : Nat} (h : (F.roundUnits s n d).isFinite = true) :
    ∃ hb : roundMag n d < magLimit, F.roundUnits s n d = .fin s ⟨roundMag n d, hb⟩ := by
  unfold F.roundUnits at *
  split_ifs at * with hb
  · exact ⟨hb, rfl⟩
  · simp [F.isFinite] at h

/-- The sum of two finite values of one sign. -/
theorem F.add_same (s : Bool) (m n : Fin magLimit) :
    (F.fin s m).add (.fin s n) = F.roundUnits s (magUnits m.val + magUnits n.val) 1 := by
  have hz : magUnits m.val + magUnits n.val = 0 ∨ 0 < magUnits m.val + magUnits n.val := Nat.eq_zero_or_pos _
  rcases hz with hz | hz
  · have h1 : magUnits m.val = 0 := by omega
    have h2 : magUnits n.val = 0 := by omega
    cases s <;> simp [F.add, F.units, h1, h2]
  · cases s
    · simp only [F.add, F.units, Bool.false_eq_true, if_false]
      rw [if_neg (by omega)]
      congr 1
    · simp only [F.add, F.units, if_true]
      rw [if_neg (by omega)]
      congr 1 <;> first | omega | (simp only [decide_eq_true_eq]; omega)

theorem F.half_eq : F.half = .fin false ⟨0x3FE0000000000000, by norm_num⟩ := by decide
theorem F.quarter_eq : F.quarter = .fin false ⟨0x3FD0000000000000, by norm_num⟩ := by decide

theorem magUnits_half : magUnits 0x3FE0000000000000 * 2 = unitsPerOne := by decide +kernel
theorem magUnits_quarter : magUnits 0x3FD0000000000000 * 4 = unitsPerOne := by decide +kernel

/-- `0.5 * (d + d)` is `d`, where the sum does not overflow (rule R220). -/
theorem F.half_double {d : F} (h : (d.add d).isFinite = true) : F.half.mul (d.add d) = d := by
  cases d with
  | nan => simp [F.add, F.isFinite] at h
  | inf s => cases s <;> simp [F.add, F.isFinite] at h
  | fin s m =>
    rw [F.add_same] at *
    obtain ⟨hb, e⟩ := F.roundUnits_finite h
    rw [e, F.half_eq]
    simp only [F.mul, Bool.false_bne]
    rw [show magUnits m.val + magUnits m.val = 2 * magUnits m.val by omega, magUnits_roundMag_double,
      ← Nat.mul_assoc, magUnits_half, Nat.mul_comm]
    exact F.roundUnits_exact s m.val unitsPerOne m.isLt unitsPerOne_pos

/-- `0.25 * (((d + d) + d) + d)` is `d`, where the sum does not overflow (rule R220). -/
theorem F.quarter_fourfold {d : F} (h : (((d.add d).add d).add d).isFinite = true) :
    F.quarter.mul (((d.add d).add d).add d) = d := by
  cases d with
  | nan => simp [F.add, F.isFinite] at h
  | inf s => cases s <;> simp [F.add, F.isFinite] at h
  | fin s m =>
    have e2 : (F.fin s m).add (.fin s m) = F.roundUnits s (2 * magUnits m.val) 1 := by
      rw [F.add_same, ← Nat.two_mul]
    have h2 : (F.roundUnits s (2 * magUnits m.val) 1).isFinite = true := by
      rcases F.roundUnits_sign s (2 * magUnits m.val) 1 with ⟨x, hx⟩ | hx
      · rw [hx]; rfl
      · rw [e2, hx] at h; exact absurd h (by simp [F.add, F.isFinite])
    obtain ⟨hb, ex⟩ := F.roundUnits_finite h2
    have e3 : ((F.fin s m).add (.fin s m)).add (.fin s m) = F.roundUnits s (3 * magUnits m.val) 1 := by
      rw [e2, ex, F.add_same, magUnits_roundMag_double]; congr 1; omega
    have h3 : (F.roundUnits s (3 * magUnits m.val) 1).isFinite = true := by
      rcases F.roundUnits_sign s (3 * magUnits m.val) 1 with ⟨x, hx⟩ | hx
      · rw [hx]; rfl
      · rw [e3, hx] at h; exact absurd h (by simp [F.add, F.isFinite])
    obtain ⟨hc, ey⟩ := F.roundUnits_finite h3
    have e4 : (((F.fin s m).add (.fin s m)).add (.fin s m)).add (.fin s m)
        = F.roundUnits s (magUnits (roundMag (3 * magUnits m.val) 1) + magUnits m.val) 1 := by
      rw [e3, ey, F.add_same]
    rw [e4] at h ⊢
    obtain ⟨hd, ez⟩ := F.roundUnits_finite h
    rw [ez, F.quarter_eq]
    simp only [F.mul, Bool.false_bne]
    rw [roundMag_fourth, magUnits_roundMag_quadruple, ← Nat.mul_assoc, magUnits_quarter, Nat.mul_comm]
    exact F.roundUnits_exact s m.val unitsPerOne m.isLt unitsPerOne_pos

/-! ### Sums and quotients that stay finite -/

theorem F.roundUnits_isFinite {s : Bool} {n d b : Nat} (hd : 0 < d) (hb : b < magLimit)
    (h : n ≤ magUnits b * d) : (F.roundUnits s n d).isFinite = true := by
  have : roundMag n d ≤ b := by
    have := roundMag_mono (n := n) (d := d) (n' := magUnits b * 1) (d' := 1) hd Nat.one_pos (by simpa using h)
    rwa [roundMag_exact b 1 Nat.one_pos] at this
  unfold F.roundUnits
  rw [dif_pos (this.trans_lt hb)]
  rfl

theorem magUnits_mono {m n : Nat} (h : m ≤ n) : magUnits m ≤ magUnits n := by
  by_contra hlt
  have := roundMag_mono (n := magUnits n * 1) (d := 1) (n' := magUnits m * 1) (d' := 1) Nat.one_pos Nat.one_pos
    (by omega)
  rw [roundMag_exact _ 1 Nat.one_pos, roundMag_exact _ 1 Nat.one_pos] at this
  have : m = n := by omega
  subst this; omega

/-- A finite value over a sample rate of at least `1.0` is finite. -/
theorem F.div_isFinite {x r : F} (hx : x.isFinite = true) (hr : r.isFinite = true) (h1 : F.one.le r = true) :
    (x.div r).isFinite = true := by
  cases x with
  | nan => simp [F.isFinite] at hx
  | inf s => simp [F.isFinite] at hx
  | fin s m =>
    cases r with
    | nan => simp [F.isFinite] at hr
    | inf s => simp [F.isFinite] at hr
    | fin t n =>
      have hn : 0x3FF0000000000000 ≤ n.val := by
        rw [F.one_eq] at h1
        obtain ⟨a, b, ha, hb, hab⟩ := F.le_iff.1 h1
        cases t <;> simp [F.key] at ha hb <;> omega
      rw [F.div_fin _ _ _ _ (by omega)]
      have hu := magUnits_mono hn
      rw [magUnits_one] at hu
      exact F.roundUnits_isFinite (unitsPerOne_pos.trans_le hu) m.isLt (Nat.mul_le_mul_left _ hu)

/-- A value in `[0, 1)` plus a finite value is finite: the step of a phase does not overflow (rule R161). -/
theorem F.add_isFinite_of_unit {p x : F} (h0 : F.zero.le p = true) (h1 : p.lt F.one = true)
    (hx : x.isFinite = true) : (p.add x).isFinite = true := by
  cases x with
  | nan => simp [F.isFinite] at hx
  | inf s => simp [F.isFinite] at hx
  | fin t n =>
    cases p with
    | nan => simp [F.lt, F.key] at h1
    | inf s =>
      exfalso; revert h0 h1; cases s <;> decide
    | fin s m =>
      have hm : m.val ≤ 0x3FF0000000000000 := by
        rw [F.one_eq] at h1
        rw [F.zero_eq] at h0
        obtain ⟨a, b, ha, hb, hab⟩ := F.lt_iff.1 h1
        obtain ⟨c, d, hc, hd, hcd⟩ := F.le_iff.1 h0
        cases s <;> simp [F.key] at ha hb hc hd <;> omega
      have hu := magUnits_mono hm
      have hv := magUnits_mono (show n.val ≤ magLimit - 1 by have := n.isLt; omega)
      have top : roundMag (0x3FF0000000000000 |> magUnits |> (· + magUnits (magLimit - 1))) 1 < magLimit := by
        decide +kernel
      have le : ∀ z : Nat, z ≤ magUnits 0x3FF0000000000000 + magUnits (magLimit - 1) →
          ∀ b, (F.roundUnits b z 1).isFinite = true := by
        intro z hz b
        have := roundMag_mono (n := z) (d := 1) Nat.one_pos Nat.one_pos (Nat.mul_le_mul_right 1 hz)
        unfold F.roundUnits
        rw [dif_pos (this.trans_lt top)]
        rfl
      simp only [F.add]
      split_ifs
      · exact le _ (Nat.zero_le _) _
      · refine le _ ?_ _
        cases s <;> cases t <;> simp only [F.units, if_true, Bool.false_eq_true, if_false] <;> omega

end Sys2Proof
end

