-- ==== Sys2Proof/Laws/Config.lean ====
section
/-! SUPPORT. What may be assumed of the configuration (rules R8, R9, R11, R12, R170), and nothing more. -/

set_option Elab.async false

namespace Sys2Proof

@[simp] theorem sinF_zero : sinF F.zero = F.zero := by simp [sinF]
@[simp] theorem cosF_zero : cosF F.zero = F.one := by simp [cosF]

/-- `+0.0` is an allowed draw. -/
theorem legalDraw_zero : legalDraw F.zero = true := by decide

/-- Every draw is allowed (rule R170). -/
theorem drawF_legal (n who : Nat) : legalDraw (drawF n who) = true := by
  unfold drawF
  simp only
  split_ifs with h
  · exact h
  · exact legalDraw_zero

/-- The pattern of a NaN on a port is a NaN pattern (entry U6). -/
theorem nanWord_isNan (n port : Nat) : isNanPattern (nanWord n port) = true := by
  unfold nanWord
  simp only
  split_ifs with h
  · exact h
  · decide

/-- The parameters that stand in for invalid ones are valid. -/
theorem Params.fallback_valid : Params.fallback.valid = true := by decide +kernel

/-- The open plain data satisfies every constraint of the spec. -/
theorem params_valid : params.valid = true := by
  unfold params
  split_ifs with h
  · exact h
  · exact Params.fallback_valid

/-- `CAP_MAX` is positive (rule R9). -/
theorem capMax_pos : 1 ≤ capMax := by
  have h := params_valid
  simp only [Params.valid, Bool.and_eq_true, decide_eq_true_eq] at h
  exact h.1.1.1.1.1

/-- Every constraint on `TUNING` holds (rule R11). -/
theorem tuning_valid : tuning.valid = true := by
  have h := params_valid
  simp only [Params.valid, Bool.and_eq_true] at h
  exact h.1.1.1.1.2

/-- Every tuned line fits at the reset sample rate (rule R262). -/
theorem tuning_fits : tuning.fits capMax (clampRate resetSr) = true := by
  have h := params_valid
  simp only [Params.valid, Bool.and_eq_true] at h
  exact h.1.1.1.2

/-- `RESET_LPF` is in its range (rule R12). -/
theorem resetLpf_range :
    finiteNonneg params.resetLpf = true ∧ params.resetLpf.le (nyquist resetSr) = true := by
  have h := params_valid
  simp only [Params.valid, Bool.and_eq_true] at h
  exact ⟨h.1.1.2, h.1.2⟩

/-- The construction parameters of a lone leaf are valid (rule R252). -/
theorem leaf_valid : params.leaf.valid capMax tuning = true := by
  have h := params_valid
  simp only [Params.valid, Bool.and_eq_true] at h
  exact h.2

/-- A line without delay fits every device: its capacity is one word. -/
theorem fitsMemory_zero_one : fitsMemory F.zero F.one = true := by
  have h : (samplesOf F.zero F.one).isFinite = true ∧ capacityOf F.zero F.one = 1 := by decide +kernel
  simp [fitsMemory, capacityFits, h.1, h.2, capMax_pos]

end Sys2Proof
end

