-- ==== Sys2Proof/Laws/Decode.lean ====
section
/-! SUPPORT. Lemmas about the fields of a command word (rule R83) and the opcode map (rule R85), for
proofs about decoding and encoding. -/

set_option Elab.async false

namespace Sys2Proof

/-- The command word laid out from fields that fit is their weighted sum. -/
theorem wordOf_toNat {cls op idx : Nat} (c : Bool) (h1 : cls < 16) (h2 : op < 16) (h3 : idx < 256) :
    (wordOf cls op idx c).toNat = cls * 2 ^ 28 + op * 2 ^ 24 + idx * 2 ^ 16 + c.toNat := by
  have hc : c.toNat ≤ 1 := by cases c <;> decide
  unfold wordOf
  rw [BitVec.toNat_ofNat]
  exact Nat.mod_eq_of_lt (by omega)

theorem UnitClass.code_lt (u : UnitClass) : u.code < 8 := by cases u <;> decide

theorem Opcode.op_lt (o : Opcode) : o.op < 16 := by cases o <;> decide

/-- The row that the class and the operation of a row select is that row. -/
theorem opcodeAt_code (o : Opcode) : opcodeAt o.cls.code o.op = some o := by cases o <;> rfl

/-- A row that two field values select carries these two values. -/
theorem opcodeAt_some {cls op : Nat} {o : Opcode} (h : opcodeAt cls op = some o) :
    cls = o.cls.code ∧ op = o.op := by
  unfold opcodeAt at h
  repeat' split at h
  all_goals first
    | (cases h; exact ⟨rfl, rfl⟩)
    | cases h

/-- An instruction in row `o` is the one built from its own operands. -/
theorem Instr.build_self (i : Instr) :
    i.opcode.build i.idx i.clearFlag i.operandA i.operandB = i := by cases i <;> rfl

/-- Building an instruction of a row gives an instruction of that row. -/
theorem Opcode.build_opcode (o : Opcode) (idx : Nat) (c : Bool) (a b : Word) :
    (o.build idx c a b).opcode = o := by cases o <;> rfl

/-- The fields of a word laid out from fields that fit (rule R83). -/
theorem wordOf_fields {cls op idx : Nat} {c : Bool} (h1 : cls < 16) (h2 : op < 16) (h3 : idx < 256) :
    classField (wordOf cls op idx c) = cls ∧ opField (wordOf cls op idx c) = op ∧
    idxField (wordOf cls op idx c) = idx ∧ zeroField (wordOf cls op idx c) = 0 ∧
    clearField (wordOf cls op idx c) = c := by
  have hn := wordOf_toNat c h1 h2 h3
  have hb : c.toNat ≤ 1 := by cases c <;> decide
  unfold classField opField idxField zeroField clearField
  rw [hn]
  refine ⟨by omega, by omega, by omega, by omega, ?_⟩
  have : (cls * 2 ^ 28 + op * 2 ^ 24 + idx * 2 ^ 16 + c.toNat) % 2 = c.toNat := by omega
  rw [this]
  cases c <;> rfl

/-- What an encoded instruction's command carries. Rewrite with these: unfolding `encode` under the decoder
is more than the kernel's stack takes. -/
theorem encode_word (i : Instr) :
    (encode i).word = wordOf i.cls.code i.opcode.op i.idx i.clearFlag := rfl

theorem encode_a (i : Instr) : (encode i).a = i.operandA := rfl

theorem encode_b (i : Instr) : (encode i).b = i.operandB := rfl

/-- A command whose fields select a row and hold zeros where the row has none decodes to that row. -/
theorem decodeCommand_of {k : Command} {o : Opcode}
    (ho : opcodeAt (classField k.word) (opField k.word) = some o) (hz : zeroField k.word = 0)
    (hi : ¬(idxField k.word ≠ 0 ∧ o.usesIdx = false))
    (hc : ¬(clearField k.word = true ∧ o.usesClear = false)) :
    decodeCommand k = .ok (o.build (idxField k.word) (clearField k.word) k.a k.b) := by
  unfold decodeCommand
  rw [ho]
  simp only
  rw [if_neg (not_not.2 hz), if_neg hi, if_neg hc]

/-- Everything decoding can do when it answers an instruction. -/
theorem decodeCommand_ok {k : Command} {i : Instr} (h : decodeCommand k = .ok i) :
    ∃ o, opcodeAt (classField k.word) (opField k.word) = some o ∧ zeroField k.word = 0 ∧
      (idxField k.word = 0 ∨ o.usesIdx = true) ∧ (clearField k.word = false ∨ o.usesClear = true) ∧
      i = o.build (idxField k.word) (clearField k.word) k.a k.b := by
  unfold decodeCommand at h
  split at h
  · cases h
  · rename_i o ho
    split_ifs at h with h1 h2 h3
    refine ⟨o, ho, not_not.1 h1, ?_, ?_, by cases h; rfl⟩
    · by_cases hx : idxField k.word = 0
      · exact .inl hx
      · exact .inr (by simpa [hx] using h2)
    · by_cases hx : clearField k.word = true
      · exact .inr (by simpa [hx] using h3)
      · exact .inl (by simpa using hx)

/-- A field that a mask covers is the same in the masked word. -/
theorem field_and (w m : CmdWord) (lo len : Nat) (hm : m.extractLsb' lo len = BitVec.allOnes len) :
    (w &&& m).toNat / 2 ^ lo % 2 ^ len = w.toNat / 2 ^ lo % 2 ^ len := by
  have h : (w &&& m).extractLsb' lo len = w.extractLsb' lo len := by
    rw [BitVec.extractLsb'_and, hm, BitVec.and_allOnes]
  have := congrArg BitVec.toNat h
  simpa [BitVec.extractLsb'_toNat, Nat.shiftRight_eq_div_pow] using this

theorem classField_and (w m : CmdWord) (hm : m.extractLsb' 28 4 = BitVec.allOnes 4) : classField (w &&& m) = classField w := by
  have := field_and w m 28 4 hm
  unfold classField; have h1 := w.isLt; have h2 := (w &&& m).isLt; omega

theorem opField_and (w m : CmdWord) (hm : m.extractLsb' 24 4 = BitVec.allOnes 4) : opField (w &&& m) = opField w :=
  field_and w m 24 4 hm

theorem zeroField_and (w m : CmdWord) (hm : m.extractLsb' 1 15 = BitVec.allOnes 15) : zeroField (w &&& m) = zeroField w := by
  have := field_and w m 1 15 hm
  simpa [zeroField] using this

theorem idxField_and (w m : CmdWord) (hm : m.extractLsb' 16 8 = BitVec.allOnes 8) : idxField (w &&& m) = idxField w :=
  field_and w m 16 8 hm

theorem clearField_and (w m : CmdWord) (hm : m.extractLsb' 0 1 = BitVec.allOnes 1) : clearField (w &&& m) = clearField w := by
  have := field_and w m 0 1 hm
  simp at this
  simp [clearField, this]

/-- The patterns and masks of the rows, field by field (rule R85). -/
theorem opcodeRows_fields : ∀ r ∈ opcodeRows, classField r.pattern = r.opcode.cls.code ∧ opField r.pattern = r.opcode.op ∧ zeroField r.pattern = 0 ∧
   r.mask.extractLsb' 28 4 = BitVec.allOnes 4 ∧ r.mask.extractLsb' 24 4 = BitVec.allOnes 4 ∧ r.mask.extractLsb' 1 15 = BitVec.allOnes 15 ∧
   (r.opcode.usesIdx = false → r.mask.extractLsb' 16 8 = BitVec.allOnes 8 ∧ idxField r.pattern = 0) ∧ (r.opcode.usesClear = false → r.mask.extractLsb' 0 1 = BitVec.allOnes 1 ∧ clearField r.pattern = false) := by
  decide +kernel

/-- Every row of the map is the row of one operation. -/
theorem opcodeRows_unique : ∀ r ∈ opcodeRows, ∀ r' ∈ opcodeRows, r.opcode = r'.opcode → r = r' := by
  decide +kernel

end Sys2Proof
end

