-- ==== Sys2Proof/Laws/Memory.lean ====
section
/-! SUPPORT. Laws of the delay memories: read after write, frames, and that every operation keeps the
canonical form and the range of addresses (rules R60, R63). -/

set_option Elab.async false

namespace Sys2Proof.Machine

/-- All listed addresses lie above `i`. -/
def Memory.above (i : Nat) (m : Memory) : Prop := ∀ c ∈ m, i < c.1

theorem Memory.wf_cons {i : Nat} {x : F} {m : Memory} :
    Memory.wf ((i, x) :: m) = true ↔ x ≠ F.zero ∧ Memory.above i m ∧ Memory.wf m = true := by
  simp [Memory.wf, Memory.above, and_assoc]

theorem Memory.wf_nil : Memory.wf [] = true := rfl

@[simp] theorem Memory.wf_cleared : Memory.wf Memory.cleared = true := rfl
@[simp] theorem Memory.read_cleared (i : Nat) : Memory.read Memory.cleared i = F.zero := rfl
@[simp] theorem Memory.within_cleared (n : Nat) : Memory.within Memory.cleared n = true := rfl

theorem Memory.read_above {i j : Nat} {m : Memory} (h : Memory.above i m) (hj : j ≤ i) :
    Memory.read m j = F.zero := by
  induction m with
  | nil => rfl
  | cons c m ih =>
    have h1 := h c (List.mem_cons_self ..)
    simp only [Memory.read]
    rw [if_neg (by omega)]
    exact ih fun c' hc' => h c' (List.mem_cons_of_mem _ hc')

/-- What a write lists: the written address, or one listed before. -/
theorem Memory.mem_write {m : Memory} {i : Nat} {v : F} {c : Nat × F} (h : c ∈ Memory.write m i v) :
    c = (i, v) ∨ c ∈ m := by
  induction m with
  | nil =>
    simp only [Memory.write] at h
    split_ifs at h <;> simp_all
  | cons d m ih =>
    obtain ⟨j, x⟩ := d
    simp only [Memory.write] at h
    split_ifs at h
    · exact .inr h
    · rcases List.mem_cons.1 h with h | h
      · exact .inl h
      · exact .inr h
    · exact .inr (List.mem_cons_of_mem _ h)
    · rcases List.mem_cons.1 h with h | h
      · exact .inl h
      · exact .inr (List.mem_cons_of_mem _ h)
    · rcases List.mem_cons.1 h with h | h
      · exact .inr (h ▸ List.mem_cons_self ..)
      · rcases ih h with h | h
        · exact .inl h
        · exact .inr (List.mem_cons_of_mem _ h)

/-- A write keeps the canonical form. -/
theorem Memory.wf_write {m : Memory} (h : Memory.wf m = true) (i : Nat) (v : F) :
    Memory.wf (Memory.write m i v) = true := by
  induction m with
  | nil =>
    simp only [Memory.write]
    split_ifs with hv
    · rfl
    · exact Memory.wf_cons.2 ⟨hv, by simp [Memory.above], rfl⟩
  | cons d m ih =>
    obtain ⟨j, x⟩ := d
    obtain ⟨hx, ha, hm⟩ := Memory.wf_cons.1 h
    simp only [Memory.write]
    split_ifs with h1 h2 h3 h4
    · exact h
    · refine Memory.wf_cons.2 ⟨h2, ?_, h⟩
      intro c hc
      rcases List.mem_cons.1 hc with rfl | hc
      · exact h1
      · exact h1.trans (ha c hc)
    · exact hm
    · exact Memory.wf_cons.2 ⟨h4, h3 ▸ ha, hm⟩
    · refine Memory.wf_cons.2 ⟨hx, ?_, ih hm⟩
      intro c hc
      rcases Memory.mem_write hc with rfl | hc
      · simp only; omega
      · exact ha c hc

/-- A resize keeps the canonical form. -/
theorem Memory.wf_resize {m : Memory} (h : Memory.wf m = true) (n : Nat) :
    Memory.wf (Memory.resize m n) = true := by
  induction m with
  | nil => rfl
  | cons d m ih =>
    obtain ⟨j, x⟩ := d
    obtain ⟨hx, ha, hm⟩ := Memory.wf_cons.1 h
    simp only [Memory.resize, List.filter_cons] at *
    split_ifs
    · refine Memory.wf_cons.2 ⟨hx, ?_, ih hm⟩
      intro c hc
      exact ha c (List.mem_filter.1 hc).1
    · exact ih hm

/-- The written word is read back. -/
theorem Memory.read_write_self {m : Memory} (h : Memory.wf m = true) (i : Nat) (v : F) :
    Memory.read (Memory.write m i v) i = v := by
  induction m with
  | nil =>
    simp only [Memory.write]
    split_ifs with hv
    · simp [Memory.read, hv]
    · simp [Memory.read]
  | cons d m ih =>
    obtain ⟨j, x⟩ := d
    obtain ⟨hx, ha, hm⟩ := Memory.wf_cons.1 h
    simp only [Memory.write]
    split_ifs with h1 h2 h3 h4
    · rw [h2]
      simp only [Memory.read]
      rw [if_neg (by omega)]
      exact Memory.read_above ha h1.le
    · simp [Memory.read]
    · rw [h4]; exact Memory.read_above ha h3.le
    · simp [Memory.read]
    · simp only [Memory.read]
      rw [if_neg h3]
      exact ih hm

/-- Every other word is as before. -/
theorem Memory.read_write_other {m : Memory} {i j : Nat} (v : F) (hij : j ≠ i) :
    Memory.read (Memory.write m i v) j = Memory.read m j := by
  induction m with
  | nil =>
    simp only [Memory.write]
    split_ifs
    · rfl
    · simp [Memory.read, hij]
  | cons d m ih =>
    obtain ⟨k, x⟩ := d
    simp only [Memory.write]
    split_ifs with h1 h2 h3 h4
    · rfl
    · simp [Memory.read, hij]
    · simp only [Memory.read]; rw [if_neg (by omega)]
    · simp only [Memory.read]; rw [if_neg hij, if_neg (by omega)]
    · simp only [Memory.read, ih]

/-- The words a resize keeps, and the zeros it leaves (rule R103). -/
theorem Memory.read_resize (m : Memory) (n i : Nat) :
    Memory.read (Memory.resize m n) i = if i < n then Memory.read m i else F.zero := by
  induction m with
  | nil => simp [Memory.resize, Memory.read]
  | cons d m ih =>
    obtain ⟨j, x⟩ := d
    simp only [Memory.resize, List.filter_cons] at *
    by_cases hj : j < n
    · simp only [hj, decide_true, if_true, Memory.read, ih]
      by_cases hij : i = j <;> simp [hij, hj]
    · simp only [hj, decide_false, Bool.false_eq_true, if_false, Memory.read, ih]
      by_cases hij : i = j
      · subst hij; simp [hj]
      · simp [hij]

theorem Memory.within_iff {m : Memory} {n : Nat} :
    Memory.within m n = true ↔ ∀ c ∈ m, c.1 < n := by
  simp [Memory.within]

/-- A write inside the capacity keeps every address inside it. -/
theorem Memory.within_write {m : Memory} {n i : Nat} (h : Memory.within m n = true) (hi : i < n) (v : F) :
    Memory.within (Memory.write m i v) n = true := by
  rw [Memory.within_iff] at *
  intro c hc
  rcases Memory.mem_write hc with rfl | hc
  · exact hi
  · exact h c hc

/-- After a resize to `n` words every address is below `n`. -/
theorem Memory.within_resize (m : Memory) (n : Nat) : Memory.within (Memory.resize m n) n = true := by
  rw [Memory.within_iff]
  intro c hc
  simpa using (List.mem_filter.1 hc).2

end Sys2Proof.Machine
end

