-- ==== Sys2Proof/Laws/State.lean ====
section
/-! SUPPORT. One lemma per field per update of the state, and of the records the operations write. -/

set_option Elab.async false

namespace Sys2Proof.Machine

variable (s : State) (d : Device) (r0 r1 : Word) (rest : List Input)

@[simp] theorem State.answer_device : (s.answer d r0 r1).device = d := rfl
@[simp] theorem State.answer_rsp : (s.answer d r0 r1).rsp = some ⟨r0, r1⟩ := rfl
@[simp] theorem State.answer_input : (s.answer d r0 r1).input = s.input := rfl
@[simp] theorem State.answer_free : (s.answer d r0 r1).free = s.free + 1 := rfl

@[simp] theorem State.answerIllegal_device : s.answerIllegal.device = s.device := rfl
@[simp] theorem State.answerIllegal_rsp : s.answerIllegal.rsp = some ⟨0, 0⟩ := rfl
@[simp] theorem State.answerIllegal_input : s.answerIllegal.input = s.input := rfl
@[simp] theorem State.answerIllegal_free : s.answerIllegal.free = s.free := rfl

@[simp] theorem State.afterReset_device : s.afterReset.device = s.device.afterReset := rfl
@[simp] theorem State.afterReset_rsp : s.afterReset.rsp = none := rfl
@[simp] theorem State.afterReset_input : s.afterReset.input = s.input := rfl
@[simp] theorem State.afterReset_free : s.afterReset.free = s.free := rfl

@[simp] theorem State.idle_device : s.idle.device = s.device := rfl
@[simp] theorem State.idle_rsp : s.idle.rsp = none := rfl
@[simp] theorem State.idle_input : s.idle.input = s.input := rfl
@[simp] theorem State.idle_free : s.idle.free = s.free := rfl

@[simp] theorem State.took_device : (s.took rest).device = s.device := rfl
@[simp] theorem State.took_rsp : (s.took rest).rsp = s.rsp := rfl
@[simp] theorem State.took_input : (s.took rest).input = rest := rfl
@[simp] theorem State.took_free : (s.took rest).free = s.free := rfl

variable (k : Command)

@[simp] theorem State.presenting_device : (s.presenting k).device = deviceFor k s.device := rfl
@[simp] theorem State.presenting_rsp : (s.presenting k).rsp = s.rsp := rfl
@[simp] theorem State.presenting_input : (s.presenting k).input = ⟨false, k⟩ :: s.input := rfl
@[simp] theorem State.presenting_free : (s.presenting k).free = s.free := rfl

/-! ### Delay line -/

variable (l : DelayLine) (x : F)

@[simp] theorem relag_sampleRate : (relag l).sampleRate = l.sampleRate := rfl
@[simp] theorem relag_maxTime : (relag l).maxTime = l.maxTime := rfl
@[simp] theorem relag_time : (relag l).time = l.time := rfl
@[simp] theorem relag_feedbackGain : (relag l).feedbackGain = l.feedbackGain := rfl
@[simp] theorem relag_capacity : (relag l).capacity = l.capacity := rfl
@[simp] theorem relag_buffer : (relag l).buffer = l.buffer := rfl
@[simp] theorem relag_writePos : (relag l).writePos = l.writePos := rfl

@[simp] theorem setTime_sampleRate : (l.setTime x).sampleRate = l.sampleRate := rfl
@[simp] theorem setTime_maxTime : (l.setTime x).maxTime = l.maxTime := rfl
@[simp] theorem setTime_time : (l.setTime x).time = clamp x F.zero l.maxTime := rfl
@[simp] theorem setTime_feedbackGain : (l.setTime x).feedbackGain = l.feedbackGain := rfl
@[simp] theorem setTime_capacity : (l.setTime x).capacity = l.capacity := rfl
@[simp] theorem setTime_buffer : (l.setTime x).buffer = l.buffer := rfl
@[simp] theorem setTime_writePos : (l.setTime x).writePos = l.writePos := rfl

@[simp] theorem setRate_sampleRate : (l.setRate x).sampleRate = clampRate x := rfl
@[simp] theorem setRate_maxTime : (l.setRate x).maxTime = l.maxTime := rfl
@[simp] theorem setRate_time : (l.setRate x).time = clamp l.time F.zero l.maxTime := rfl
@[simp] theorem setRate_feedbackGain : (l.setRate x).feedbackGain = l.feedbackGain := rfl
@[simp] theorem setRate_capacity : (l.setRate x).capacity = capacityOf l.maxTime (clampRate x) := rfl
@[simp] theorem setRate_buffer : (l.setRate x).buffer = [] := rfl
@[simp] theorem setRate_writePos : (l.setRate x).writePos = 0 := rfl

@[simp] theorem run_sampleRate : (l.run x).1.sampleRate = l.sampleRate := rfl
@[simp] theorem run_maxTime : (l.run x).1.maxTime = l.maxTime := rfl
@[simp] theorem run_time : (l.run x).1.time = l.time := rfl
@[simp] theorem run_feedbackGain : (l.run x).1.feedbackGain = l.feedbackGain := rfl
@[simp] theorem run_capacity : (l.run x).1.capacity = l.capacity := rfl
@[simp] theorem run_writePos : (l.run x).1.writePos = (l.writePos + 1) % l.capacity := rfl
@[simp] theorem run_lagFloor : (l.run x).1.lagFloor = l.lagFloor := rfl
@[simp] theorem run_lagCeil : (l.run x).1.lagCeil = l.lagCeil := rfl
@[simp] theorem run_frac : (l.run x).1.frac = l.frac := rfl
@[simp] theorem run_readPosFloor : (l.run x).1.readPosFloor = (l.readPosFloor + 1) % l.capacity := rfl
@[simp] theorem run_readPosCeil : (l.run x).1.readPosCeil = (l.readPosCeil + 1) % l.capacity := rfl
@[simp] theorem run_buffer :
    (l.run x).1.buffer = l.buffer.write l.writePos (x.add (l.output.mul l.feedbackGain)) := rfl
@[simp] theorem run_output : (l.run x).2 = l.output := rfl

/-! ### Reverberator -/

variable (v : Reverb) (n : Nat) (i : Stereo F)

@[simp] theorem blend1_sampleRate : (v.blend1 i).1.sampleRate = v.sampleRate := rfl
@[simp] theorem blend2_sampleRate : (v.blend2 i).1.sampleRate = v.sampleRate := rfl
@[simp] theorem blend3_sampleRate : (v.blend3 i).1.sampleRate = v.sampleRate := rfl
@[simp] theorem blend4_sampleRate : (v.blend4 n i).1.sampleRate = v.sampleRate := rfl
@[simp] theorem blend1_wet : (v.blend1 i).1.wet = v.wet := rfl
@[simp] theorem blend2_wet : (v.blend2 i).1.wet = v.wet := rfl
@[simp] theorem blend3_wet : (v.blend3 i).1.wet = v.wet := rfl
@[simp] theorem blend4_wet : (v.blend4 n i).1.wet = v.wet := rfl
@[simp] theorem blend1_mode : (v.blend1 i).1.mode = v.mode := rfl
@[simp] theorem blend2_mode : (v.blend2 i).1.mode = v.mode := rfl
@[simp] theorem blend3_mode : (v.blend3 i).1.mode = v.mode := rfl
@[simp] theorem blend4_mode : (v.blend4 n i).1.mode = v.mode := rfl
@[simp] theorem blend1_lowpassCutoff : (v.blend1 i).1.lowpassCutoff = v.lowpassCutoff := rfl
@[simp] theorem blend2_lowpassCutoff : (v.blend2 i).1.lowpassCutoff = v.lowpassCutoff := rfl
@[simp] theorem blend3_lowpassCutoff : (v.blend3 i).1.lowpassCutoff = v.lowpassCutoff := rfl
@[simp] theorem blend4_lowpassCutoff : (v.blend4 n i).1.lowpassCutoff = v.lowpassCutoff := rfl
@[simp] theorem blend1_last : (v.blend1 i).1.last = v.last := rfl
@[simp] theorem blend2_last : (v.blend2 i).1.last = v.last := rfl
@[simp] theorem blend3_last : (v.blend3 i).1.last = v.last := rfl
@[simp] theorem blend4_last : (v.blend4 n i).1.last = v.last := rfl
@[simp] theorem blend1_olp : (v.blend1 i).1.olp = v.olp := rfl
@[simp] theorem blend2_olp : (v.blend2 i).1.olp = v.olp := rfl
@[simp] theorem blend3_olp : (v.blend3 i).1.olp = v.olp := rfl
@[simp] theorem blend4_olp : (v.blend4 n i).1.olp = v.olp := rfl

/-- What the routing of a run leaves unchanged, in every mode: the control registers, the output lowpasses
and the last output. -/
theorem route_frame :
    (v.route n i).1.sampleRate = v.sampleRate ∧ (v.route n i).1.wet = v.wet ∧
    (v.route n i).1.mode = v.mode ∧ (v.route n i).1.lowpassCutoff = v.lowpassCutoff ∧
    (v.route n i).1.last = v.last ∧ (v.route n i).1.olp = v.olp := by
  unfold Reverb.route
  cases h : v.mode <;> simp [Reverb.parallel, Reverb.serial, Reverb.hybrid, h]

end Sys2Proof.Machine
end

