-- ==== Sys2Proof/Laws/Ops.lean ====
section
/-! SUPPORT. One lemma for each shared operation of the command port: everything it can do when it answers
a next state. Proofs about commands cite these instead of unfolding. -/

set_option Elab.async false

namespace Sys2Proof.Machine

variable {s t : State}

/-! ### Responses -/

theorem done_next {d : Device} (h : s.done d = .next t) : t = s.answer d noResult noResult := by
  simpa [State.done] using h.symm

theorem gives_next {d : Device} {x : F} (h : s.gives d x = .next t) :
    t = s.answer d (resultF s.free 0 x) noResult := by
  simpa [State.gives] using h.symm

theorem givesPair_next {d : Device} {p : Stereo F} (h : s.givesPair d p = .next t) :
    t = s.answer d (resultF s.free 0 p.left) (resultF s.free 1 p.right) := by
  simpa [State.givesPair] using h.symm

/-! ### Preconditions -/

theorem finiteOperand_of {w : Word} (k : F → Out) (h : (operandF w).isFinite = true) :
    finiteOperand w k = k (operandF w) := by simp [finiteOperand, h]

theorem finiteOperand_next {w : Word} {k : F → Out} (h : finiteOperand w k = .next t) :
    (operandF w).isFinite = true ∧ k (operandF w) = .next t := by
  unfold finiteOperand at h
  split at h
  · exact ⟨‹_›, h⟩
  · cases h

theorem numberOperand_of {w : Word} (k : F → Out) (h : (operandF w).isNan = false) :
    numberOperand w k = k (operandF w) := by simp [numberOperand, h]

theorem numberOperand_next {w : Word} {k : F → Out} (h : numberOperand w k = .next t) :
    (operandF w).isNan = false ∧ k (operandF w) = .next t := by
  unfold numberOperand at h
  split at h
  · cases h
  · exact ⟨Bool.eq_false_iff.2 ‹¬ _›, h⟩

theorem whenFits_of {fits : Bool} (o : Out) (h : fits = true) : whenFits fits o = o := by
  simp [whenFits, h]

theorem whenFits_next {fits : Bool} {o : Out} (h : whenFits fits o = .next t) :
    fits = true ∧ o = .next t := by
  unfold whenFits at h
  split at h
  · exact ⟨‹_›, h⟩
  · cases h

/-! ### Class of the device -/

theorem onRv_of {x : Reverb} (k : Reverb → Out) (h : s.device = .rv x) : onRv s k = k x := by
  simp [onRv, h]

theorem onRv_other (k : Reverb → Out) (h : s.device.cls ≠ .rv) : onRv s k = .next s.answerIllegal := by
  unfold onRv
  split
  · rename_i x hx
    exact absurd (by rw [hx]; rfl) h
  · rfl

theorem onRv_next {k : Reverb → Out} (h : onRv s k = .next t) :
    (∃ x, s.device = .rv x ∧ k x = .next t) ∨ (s.device.cls ≠ .rv ∧ t = s.answerIllegal) := by
  unfold onRv at h
  split at h
  · rename_i x hx
    exact .inl ⟨x, hx, h⟩
  · rename_i hx
    refine .inr ⟨fun hc => ?_, by simpa using h.symm⟩
    cases hd : s.device <;> simp_all [Device.cls]

theorem onDl_of {x : DelayLine} (k : DelayLine → Out) (h : s.device = .dl x) : onDl s k = k x := by
  simp [onDl, h]

theorem onDl_other (k : DelayLine → Out) (h : s.device.cls ≠ .dl) : onDl s k = .next s.answerIllegal := by
  unfold onDl
  split
  · rename_i x hx
    exact absurd (by rw [hx]; rfl) h
  · rfl

theorem onDl_next {k : DelayLine → Out} (h : onDl s k = .next t) :
    (∃ x, s.device = .dl x ∧ k x = .next t) ∨ (s.device.cls ≠ .dl ∧ t = s.answerIllegal) := by
  unfold onDl at h
  split at h
  · rename_i x hx
    exact .inl ⟨x, hx, h⟩
  · rename_i hx
    refine .inr ⟨fun hc => ?_, by simpa using h.symm⟩
    cases hd : s.device <;> simp_all [Device.cls]

theorem onCf_of {x : CombFilter} (k : CombFilter → Out) (h : s.device = .cf x) : onCf s k = k x := by
  simp [onCf, h]

theorem onCf_other (k : CombFilter → Out) (h : s.device.cls ≠ .cf) : onCf s k = .next s.answerIllegal := by
  unfold onCf
  split
  · rename_i x hx
    exact absurd (by rw [hx]; rfl) h
  · rfl

theorem onCf_next {k : CombFilter → Out} (h : onCf s k = .next t) :
    (∃ x, s.device = .cf x ∧ k x = .next t) ∨ (s.device.cls ≠ .cf ∧ t = s.answerIllegal) := by
  unfold onCf at h
  split at h
  · rename_i x hx
    exact .inl ⟨x, hx, h⟩
  · rename_i hx
    refine .inr ⟨fun hc => ?_, by simpa using h.symm⟩
    cases hd : s.device <;> simp_all [Device.cls]

theorem onAp_of {x : AllpassFilter} (k : AllpassFilter → Out) (h : s.device = .ap x) : onAp s k = k x := by
  simp [onAp, h]

theorem onAp_other (k : AllpassFilter → Out) (h : s.device.cls ≠ .ap) : onAp s k = .next s.answerIllegal := by
  unfold onAp
  split
  · rename_i x hx
    exact absurd (by rw [hx]; rfl) h
  · rfl

theorem onAp_next {k : AllpassFilter → Out} (h : onAp s k = .next t) :
    (∃ x, s.device = .ap x ∧ k x = .next t) ∨ (s.device.cls ≠ .ap ∧ t = s.answerIllegal) := by
  unfold onAp at h
  split at h
  · rename_i x hx
    exact .inl ⟨x, hx, h⟩
  · rename_i hx
    refine .inr ⟨fun hc => ?_, by simpa using h.symm⟩
    cases hd : s.device <;> simp_all [Device.cls]

theorem onBq_of {x : Biquad} (k : Biquad → Out) (h : s.device = .bq x) : onBq s k = k x := by
  simp [onBq, h]

theorem onBq_other (k : Biquad → Out) (h : s.device.cls ≠ .bq) : onBq s k = .next s.answerIllegal := by
  unfold onBq
  split
  · rename_i x hx
    exact absurd (by rw [hx]; rfl) h
  · rfl

theorem onBq_next {k : Biquad → Out} (h : onBq s k = .next t) :
    (∃ x, s.device = .bq x ∧ k x = .next t) ∨ (s.device.cls ≠ .bq ∧ t = s.answerIllegal) := by
  unfold onBq at h
  split at h
  · rename_i x hx
    exact .inl ⟨x, hx, h⟩
  · rename_i hx
    refine .inr ⟨fun hc => ?_, by simpa using h.symm⟩
    cases hd : s.device <;> simp_all [Device.cls]

theorem onLfo_of {x : Lfo} (k : Lfo → Out) (h : s.device = .lfo x) : onLfo s k = k x := by
  simp [onLfo, h]

theorem onLfo_other (k : Lfo → Out) (h : s.device.cls ≠ .lfo) : onLfo s k = .next s.answerIllegal := by
  unfold onLfo
  split
  · rename_i x hx
    exact absurd (by rw [hx]; rfl) h
  · rfl

theorem onLfo_next {k : Lfo → Out} (h : onLfo s k = .next t) :
    (∃ x, s.device = .lfo x ∧ k x = .next t) ∨ (s.device.cls ≠ .lfo ∧ t = s.answerIllegal) := by
  unfold onLfo at h
  split at h
  · rename_i x hx
    exact .inl ⟨x, hx, h⟩
  · rename_i hx
    refine .inr ⟨fun hc => ?_, by simpa using h.symm⟩
    cases hd : s.device <;> simp_all [Device.cls]

theorem onRm_of {x : RandomMod} (k : RandomMod → Out) (h : s.device = .rm x) : onRm s k = k x := by
  simp [onRm, h]

theorem onRm_other (k : RandomMod → Out) (h : s.device.cls ≠ .rm) : onRm s k = .next s.answerIllegal := by
  unfold onRm
  split
  · rename_i x hx
    exact absurd (by rw [hx]; rfl) h
  · rfl

theorem onRm_next {k : RandomMod → Out} (h : onRm s k = .next t) :
    (∃ x, s.device = .rm x ∧ k x = .next t) ∨ (s.device.cls ≠ .rm ∧ t = s.answerIllegal) := by
  unfold onRm at h
  split at h
  · rename_i x hx
    exact .inl ⟨x, hx, h⟩
  · rename_i hx
    refine .inr ⟨fun hc => ?_, by simpa using h.symm⟩
    cases hd : s.device <;> simp_all [Device.cls]

theorem onBk_of {x : Block} (k : Block → Out) (h : s.device = .bk x) : onBk s k = k x := by
  simp [onBk, h]

theorem onBk_other (k : Block → Out) (h : s.device.cls ≠ .bk) : onBk s k = .next s.answerIllegal := by
  unfold onBk
  split
  · rename_i x hx
    exact absurd (by rw [hx]; rfl) h
  · rfl

theorem onBk_next {k : Block → Out} (h : onBk s k = .next t) :
    (∃ x, s.device = .bk x ∧ k x = .next t) ∨ (s.device.cls ≠ .bk ∧ t = s.answerIllegal) := by
  unfold onBk at h
  split at h
  · rename_i x hx
    exact .inl ⟨x, hx, h⟩
  · rename_i hx
    refine .inr ⟨fun hc => ?_, by simpa using h.symm⟩
    cases hd : s.device <;> simp_all [Device.cls]

/-! ### The command port -/

theorem execCommand_next {k : Command} (h : execCommand k s = .next t) :
    (∃ i, decodeCommand k = .ok i ∧ exec i s = .next t) ∨
    (∃ e, decodeCommand k = .error e ∧ t = s.answerIllegal) := by
  unfold execCommand at h
  split at h
  · rename_i i hi
    exact .inl ⟨i, hi, h⟩
  · rename_i e he
    exact .inr ⟨e, he, by simpa using h.symm⟩

theorem execInput_next {x : Input} (h : execInput x s = .next t) :
    (x.rst = true ∧ t = s.afterReset) ∨ (x.rst = false ∧ execCommand x.command s = .next t) := by
  unfold execInput at h
  split at h
  · exact .inl ⟨‹_›, by simpa using h.symm⟩
  · exact .inr ⟨Bool.eq_false_iff.2 ‹¬ _›, h⟩

/-- Everything a step can do when it answers a next state: idle, reset, an illegal word, or an
instruction. -/
theorem step_next (h : step s = .next t) :
    (s.input = [] ∧ t = s.idle) ∨
    ∃ x rest, s.input = x :: rest ∧
      ((x.rst = true ∧ t = (s.took rest).afterReset) ∨
       (x.rst = false ∧ ∃ e, decodeCommand x.command = .error e ∧ t = (s.took rest).answerIllegal) ∨
       (x.rst = false ∧ ∃ i, decodeCommand x.command = .ok i ∧ exec i (s.took rest) = .next t)) := by
  unfold step at h
  split at h
  · exact .inl ⟨‹_›, by simpa using h.symm⟩
  · rename_i x rest hx
    refine .inr ⟨x, rest, hx, ?_⟩
    rcases execInput_next h with h | ⟨hr, hc⟩
    · exact .inl h
    · rcases execCommand_next hc with ⟨i, hi, hn⟩ | ⟨e, he, ht⟩
      · exact .inr (.inr ⟨hr, i, hi, hn⟩)
      · exact .inr (.inl ⟨hr, e, he, ht⟩)

/-! ### Integers and result words -/

theorem modPos_lt (i : Int) {n : Nat} (h : 0 < n) : modPos i n < n := by
  have h0 := Int.emod_nonneg i (b := (n : Int)) (by omega)
  have h1 := Int.emod_lt_of_pos i (b := (n : Int)) (by omega)
  unfold modPos
  omega

/-- A read position that lags the write position by `k` does so again once both have advanced by one. -/
theorem modPos_advance {w k n : Nat} (h : 0 < n) :
    (modPos ((w : Int) - (k : Int)) n + 1) % n = modPos (((w + 1) % n : Nat) - (k : Int)) n := by
  have h0 := Int.emod_nonneg ((w : Int) - k) (b := (n : Int)) (by omega)
  unfold modPos
  have e1 : ((((w : Int) - k) % (n : Int)).toNat + 1 : Nat) % n =
      ((((w : Int) - k) % (n : Int) + 1) % (n : Int)).toNat := by
    have : ((((((w : Int) - k) % (n : Int)).toNat + 1) % n : Nat) : Int) =
        (((w : Int) - k) % (n : Int) + 1) % (n : Int) := by
      push_cast
      rw [Int.toNat_of_nonneg h0]
    omega
  rw [e1]
  congr 1
  push_cast
  rw [Int.emod_add_emod, Int.emod_sub_emod]
  congr 1
  ring

@[simp] theorem resultF_zero (n port : Nat) : resultF n port F.zero = 0 := by
  unfold resultF F.zero
  rfl

end Sys2Proof.Machine
end

