-- ==== Sys2Proof/Laws/PerInstr.lean ====
section
/-! SUPPORT. The per-instruction family `EncodesOwnRow`: the command word of a well-formed instruction is
selected by its own row of the opcode map and by no other (rules R85, R88), one lemma per constructor. -/

set_option Elab.async false

namespace Sys2Proof.Laws

/-- The encoded word of a well-formed instruction selects exactly the row of its mnemonic. -/
def EncodesOwnRow.Statement (i : Instr) : Prop :=
  i.wellFormed = true → ∀ r ∈ opcodeRows, r.selects (encode i).word = decide (r.opcode = i.opcode)

/-- The words of the two rows with a block index, for all its 256 values. -/
theorem rvSetwet_rows : ∀ n : Fin 256, ∀ r ∈ opcodeRows,
    r.selects (wordOf 0 2 n.val false) = decide (r.opcode = Opcode.rvSetwet) := by decide +kernel

theorem rvGetwet_rows : ∀ n : Fin 256, ∀ r ∈ opcodeRows,
    r.selects (wordOf 0 7 n.val false) = decide (r.opcode = Opcode.rvGetwet) := by decide +kernel

theorem EncodesOwnRow.rvRun (a b : Word) : EncodesOwnRow.Statement (.rvRun a b) :=
  fun _ => (by decide +kernel : ∀ r ∈ opcodeRows,
    r.selects (wordOf Opcode.rvRun.cls.code Opcode.rvRun.op 0 false) = decide (r.opcode = Opcode.rvRun))

theorem EncodesOwnRow.rvSetsr (a : Word) : EncodesOwnRow.Statement (.rvSetsr a) :=
  fun _ => (by decide +kernel : ∀ r ∈ opcodeRows,
    r.selects (wordOf Opcode.rvSetsr.cls.code Opcode.rvSetsr.op 0 false) = decide (r.opcode = Opcode.rvSetsr))

theorem EncodesOwnRow.rvSetwet (idx : Nat) (a : Word) : EncodesOwnRow.Statement (.rvSetwet idx a) :=
  fun h r hr => rvSetwet_rows ⟨idx, by simpa [Instr.wellFormed, idxFits] using h⟩ r hr

theorem EncodesOwnRow.rvSetlpf (a : Word) : EncodesOwnRow.Statement (.rvSetlpf a) :=
  fun _ => (by decide +kernel : ∀ r ∈ opcodeRows,
    r.selects (wordOf Opcode.rvSetlpf.cls.code Opcode.rvSetlpf.op 0 false) = decide (r.opcode = Opcode.rvSetlpf))

theorem EncodesOwnRow.rvSetmode (a : Word) : EncodesOwnRow.Statement (.rvSetmode a) :=
  fun _ => (by decide +kernel : ∀ r ∈ opcodeRows,
    r.selects (wordOf Opcode.rvSetmode.cls.code Opcode.rvSetmode.op 0 false) = decide (r.opcode = Opcode.rvSetmode))

theorem EncodesOwnRow.rvClear : EncodesOwnRow.Statement .rvClear :=
  fun _ => (by decide +kernel : ∀ r ∈ opcodeRows,
    r.selects (wordOf Opcode.rvClear.cls.code Opcode.rvClear.op 0 false) = decide (r.opcode = Opcode.rvClear))

theorem EncodesOwnRow.rvGetsr : EncodesOwnRow.Statement .rvGetsr :=
  fun _ => (by decide +kernel : ∀ r ∈ opcodeRows,
    r.selects (wordOf Opcode.rvGetsr.cls.code Opcode.rvGetsr.op 0 false) = decide (r.opcode = Opcode.rvGetsr))

theorem EncodesOwnRow.rvGetwet (idx : Nat) : EncodesOwnRow.Statement (.rvGetwet idx) :=
  fun h r hr => rvGetwet_rows ⟨idx, by simpa [Instr.wellFormed, idxFits] using h⟩ r hr

theorem EncodesOwnRow.rvGetlpf : EncodesOwnRow.Statement .rvGetlpf :=
  fun _ => (by decide +kernel : ∀ r ∈ opcodeRows,
    r.selects (wordOf Opcode.rvGetlpf.cls.code Opcode.rvGetlpf.op 0 false) = decide (r.opcode = Opcode.rvGetlpf))

theorem EncodesOwnRow.rvGetmode : EncodesOwnRow.Statement .rvGetmode :=
  fun _ => (by decide +kernel : ∀ r ∈ opcodeRows,
    r.selects (wordOf Opcode.rvGetmode.cls.code Opcode.rvGetmode.op 0 false) = decide (r.opcode = Opcode.rvGetmode))

theorem EncodesOwnRow.rvGetout : EncodesOwnRow.Statement .rvGetout :=
  fun _ => (by decide +kernel : ∀ r ∈ opcodeRows,
    r.selects (wordOf Opcode.rvGetout.cls.code Opcode.rvGetout.op 0 false) = decide (r.opcode = Opcode.rvGetout))

theorem EncodesOwnRow.dlRun (a : Word) : EncodesOwnRow.Statement (.dlRun a) :=
  fun _ => (by decide +kernel : ∀ r ∈ opcodeRows,
    r.selects (wordOf Opcode.dlRun.cls.code Opcode.dlRun.op 0 false) = decide (r.opcode = Opcode.dlRun))

theorem EncodesOwnRow.dlSetsr (a : Word) : EncodesOwnRow.Statement (.dlSetsr a) :=
  fun _ => (by decide +kernel : ∀ r ∈ opcodeRows,
    r.selects (wordOf Opcode.dlSetsr.cls.code Opcode.dlSetsr.op 0 false) = decide (r.opcode = Opcode.dlSetsr))

theorem EncodesOwnRow.dlSettime (a : Word) : EncodesOwnRow.Statement (.dlSettime a) :=
  fun _ => (by decide +kernel : ∀ r ∈ opcodeRows,
    r.selects (wordOf Opcode.dlSettime.cls.code Opcode.dlSettime.op 0 false) = decide (r.opcode = Opcode.dlSettime))

theorem EncodesOwnRow.dlSetmax (c : Bool) (a : Word) : EncodesOwnRow.Statement (.dlSetmax c a) := by
  intro _
  show ∀ r ∈ opcodeRows, r.selects (wordOf 1 3 0 c) = decide (r.opcode = Opcode.dlSetmax)
  cases c <;> decide +kernel

theorem EncodesOwnRow.dlClear : EncodesOwnRow.Statement .dlClear :=
  fun _ => (by decide +kernel : ∀ r ∈ opcodeRows,
    r.selects (wordOf Opcode.dlClear.cls.code Opcode.dlClear.op 0 false) = decide (r.opcode = Opcode.dlClear))

theorem EncodesOwnRow.cfRun (a : Word) : EncodesOwnRow.Statement (.cfRun a) :=
  fun _ => (by decide +kernel : ∀ r ∈ opcodeRows,
    r.selects (wordOf Opcode.cfRun.cls.code Opcode.cfRun.op 0 false) = decide (r.opcode = Opcode.cfRun))

theorem EncodesOwnRow.cfSetsr (a : Word) : EncodesOwnRow.Statement (.cfSetsr a) :=
  fun _ => (by decide +kernel : ∀ r ∈ opcodeRows,
    r.selects (wordOf Opcode.cfSetsr.cls.code Opcode.cfSetsr.op 0 false) = decide (r.opcode = Opcode.cfSetsr))

theorem EncodesOwnRow.cfSettime (a : Word) : EncodesOwnRow.Statement (.cfSettime a) :=
  fun _ => (by decide +kernel : ∀ r ∈ opcodeRows,
    r.selects (wordOf Opcode.cfSettime.cls.code Opcode.cfSettime.op 0 false) = decide (r.opcode = Opcode.cfSettime))

theorem EncodesOwnRow.cfClear : EncodesOwnRow.Statement .cfClear :=
  fun _ => (by decide +kernel : ∀ r ∈ opcodeRows,
    r.selects (wordOf Opcode.cfClear.cls.code Opcode.cfClear.op 0 false) = decide (r.opcode = Opcode.cfClear))

theorem EncodesOwnRow.apRun (a : Word) : EncodesOwnRow.Statement (.apRun a) :=
  fun _ => (by decide +kernel : ∀ r ∈ opcodeRows,
    r.selects (wordOf Opcode.apRun.cls.code Opcode.apRun.op 0 false) = decide (r.opcode = Opcode.apRun))

theorem EncodesOwnRow.apSetsr (a : Word) : EncodesOwnRow.Statement (.apSetsr a) :=
  fun _ => (by decide +kernel : ∀ r ∈ opcodeRows,
    r.selects (wordOf Opcode.apSetsr.cls.code Opcode.apSetsr.op 0 false) = decide (r.opcode = Opcode.apSetsr))

theorem EncodesOwnRow.apSettime (a : Word) : EncodesOwnRow.Statement (.apSettime a) :=
  fun _ => (by decide +kernel : ∀ r ∈ opcodeRows,
    r.selects (wordOf Opcode.apSettime.cls.code Opcode.apSettime.op 0 false) = decide (r.opcode = Opcode.apSettime))

theorem EncodesOwnRow.apClear : EncodesOwnRow.Statement .apClear :=
  fun _ => (by decide +kernel : ∀ r ∈ opcodeRows,
    r.selects (wordOf Opcode.apClear.cls.code Opcode.apClear.op 0 false) = decide (r.opcode = Opcode.apClear))

theorem EncodesOwnRow.bqRun (a : Word) : EncodesOwnRow.Statement (.bqRun a) :=
  fun _ => (by decide +kernel : ∀ r ∈ opcodeRows,
    r.selects (wordOf Opcode.bqRun.cls.code Opcode.bqRun.op 0 false) = decide (r.opcode = Opcode.bqRun))

theorem EncodesOwnRow.bqSetsr (a : Word) : EncodesOwnRow.Statement (.bqSetsr a) :=
  fun _ => (by decide +kernel : ∀ r ∈ opcodeRows,
    r.selects (wordOf Opcode.bqSetsr.cls.code Opcode.bqSetsr.op 0 false) = decide (r.opcode = Opcode.bqSetsr))

theorem EncodesOwnRow.bqSetcut (a : Word) : EncodesOwnRow.Statement (.bqSetcut a) :=
  fun _ => (by decide +kernel : ∀ r ∈ opcodeRows,
    r.selects (wordOf Opcode.bqSetcut.cls.code Opcode.bqSetcut.op 0 false) = decide (r.opcode = Opcode.bqSetcut))

theorem EncodesOwnRow.bqSetq (a : Word) : EncodesOwnRow.Statement (.bqSetq a) :=
  fun _ => (by decide +kernel : ∀ r ∈ opcodeRows,
    r.selects (wordOf Opcode.bqSetq.cls.code Opcode.bqSetq.op 0 false) = decide (r.opcode = Opcode.bqSetq))

theorem EncodesOwnRow.bqSetgain (a : Word) : EncodesOwnRow.Statement (.bqSetgain a) :=
  fun _ => (by decide +kernel : ∀ r ∈ opcodeRows,
    r.selects (wordOf Opcode.bqSetgain.cls.code Opcode.bqSetgain.op 0 false) = decide (r.opcode = Opcode.bqSetgain))

theorem EncodesOwnRow.bqSettype (a : Word) : EncodesOwnRow.Statement (.bqSettype a) :=
  fun _ => (by decide +kernel : ∀ r ∈ opcodeRows,
    r.selects (wordOf Opcode.bqSettype.cls.code Opcode.bqSettype.op 0 false) = decide (r.opcode = Opcode.bqSettype))

theorem EncodesOwnRow.bqClear : EncodesOwnRow.Statement .bqClear :=
  fun _ => (by decide +kernel : ∀ r ∈ opcodeRows,
    r.selects (wordOf Opcode.bqClear.cls.code Opcode.bqClear.op 0 false) = decide (r.opcode = Opcode.bqClear))

theorem EncodesOwnRow.lfoRun : EncodesOwnRow.Statement .lfoRun :=
  fun _ => (by decide +kernel : ∀ r ∈ opcodeRows,
    r.selects (wordOf Opcode.lfoRun.cls.code Opcode.lfoRun.op 0 false) = decide (r.opcode = Opcode.lfoRun))

theorem EncodesOwnRow.lfoSetsr (a : Word) : EncodesOwnRow.Statement (.lfoSetsr a) :=
  fun _ => (by decide +kernel : ∀ r ∈ opcodeRows,
    r.selects (wordOf Opcode.lfoSetsr.cls.code Opcode.lfoSetsr.op 0 false) = decide (r.opcode = Opcode.lfoSetsr))

theorem EncodesOwnRow.rmRun : EncodesOwnRow.Statement .rmRun :=
  fun _ => (by decide +kernel : ∀ r ∈ opcodeRows,
    r.selects (wordOf Opcode.rmRun.cls.code Opcode.rmRun.op 0 false) = decide (r.opcode = Opcode.rmRun))

theorem EncodesOwnRow.rmSetsr (a : Word) : EncodesOwnRow.Statement (.rmSetsr a) :=
  fun _ => (by decide +kernel : ∀ r ∈ opcodeRows,
    r.selects (wordOf Opcode.rmSetsr.cls.code Opcode.rmSetsr.op 0 false) = decide (r.opcode = Opcode.rmSetsr))

theorem EncodesOwnRow.bkRun (a b : Word) : EncodesOwnRow.Statement (.bkRun a b) :=
  fun _ => (by decide +kernel : ∀ r ∈ opcodeRows,
    r.selects (wordOf Opcode.bkRun.cls.code Opcode.bkRun.op 0 false) = decide (r.opcode = Opcode.bkRun))

theorem EncodesOwnRow.bkSetsr (a : Word) : EncodesOwnRow.Statement (.bkSetsr a) :=
  fun _ => (by decide +kernel : ∀ r ∈ opcodeRows,
    r.selects (wordOf Opcode.bkSetsr.cls.code Opcode.bkSetsr.op 0 false) = decide (r.opcode = Opcode.bkSetsr))

theorem EncodesOwnRow.bkClear : EncodesOwnRow.Statement .bkClear :=
  fun _ => (by decide +kernel : ∀ r ∈ opcodeRows,
    r.selects (wordOf Opcode.bkClear.cls.code Opcode.bkClear.op 0 false) = decide (r.opcode = Opcode.bkClear))

end Sys2Proof.Laws
end

