-- ==== Sys2Proof/Laws/Units.lean ====
section
/-! SUPPORT. Sample rates, times and capacities: what the clamps of the setters establish, in the terms of
the invariants of `Safety.lean`. -/

set_option Elab.async false

namespace Sys2Proof.Machine

/-- The clamp of a sample rate gives a legal one (rules R24, R104). -/
theorem clampRate_legal {x : F} (h : x.isFinite = true) : rateLegal (clampRate x) := by
  unfold rateLegal clampRate
  split_ifs with h1
  · decide
  · exact ⟨h, F.le_of_not_lt (F.number_of_finite h) F.one_number (Bool.eq_false_iff.2 h1)⟩

/-- A legal sample rate is a positive finite value. -/
theorem rateLegal_fin {r : F} (h : rateLegal r) : ∃ m : Fin magLimit, r = .fin false m ∧ m.val ≠ 0 := by
  obtain ⟨hf, h1⟩ := h
  cases r with
  | nan => simp [F.isFinite] at hf
  | inf s => simp [F.isFinite] at hf
  | fin s m =>
    obtain ⟨a, b, ha, hb, hab⟩ := F.le_iff.1 h1
    rw [F.one_eq] at ha
    simp only [F.key, Option.some.injEq] at ha hb
    subst ha hb
    cases s
    · refine ⟨m, rfl, fun h => ?_⟩
      simp [h] at hab
    · simp at hab
      omega

/-- The Nyquist frequency of a legal rate is no negative value. -/
theorem nyquist_nonneg {r : F} (h : rateLegal r) : F.zero.le (nyquist r) = true := by
  obtain ⟨m, rfl, -⟩ := rateLegal_fin h
  unfold nyquist
  rw [F.two_eq, F.div_fin _ _ _ _ (by norm_num)]
  exact F.roundUnits_nonneg _ _

/-- What `finiteNonneg` says. -/
theorem finiteNonneg_iff {x : F} (h : finiteNonneg x = true) : F.zero.le x = true ∧ x.isFinite = true := by
  simp [finiteNonneg] at h; exact ⟨h.2, h.1⟩

/-- A delay of a legal line is no negative number of samples. -/
theorem samplesOf_nonneg {m r : F} (hm : finiteNonneg m = true) (hr : rateLegal r)
    (hf : (samplesOf m r).isFinite = true) : F.zero.le (samplesOf m r) = true := by
  obtain ⟨hz, hmf⟩ := finiteNonneg_iff hm
  obtain ⟨n, rfl, -⟩ := rateLegal_fin hr
  obtain ⟨s, k, rfl⟩ : ∃ s k, m = .fin s k := by
    cases m <;> simp [F.isFinite] at hmf; exact ⟨_, _, rfl⟩
  unfold samplesOf at *
  cases s
  · simp only [F.mul] at *
    rw [F.thousand_eq] at *
    rcases F.roundUnits_sign (false ^^ false) (magUnits k.val * magUnits n.val) unitsPerOne with ⟨x, hx⟩ | hx
    · rw [hx] at *
      rw [F.div_fin _ _ _ _ (by norm_num)]
      exact F.roundUnits_nonneg _ _
    · rw [hx]
      decide
  · have hk : k.val = 0 := by
      obtain ⟨a, b, ha, hb, hab⟩ := F.le_iff.1 hz
      rw [F.zero_key] at ha
      simp only [F.key, Option.some.injEq] at ha hb
      subst ha hb
      simp at hab
      simp [hab]
    obtain rfl : k = ⟨0, by norm_num⟩ := Fin.ext hk
    simp only [F.mul, magUnits_zero, Nat.zero_mul]
    rw [F.roundUnits_zero _ _ unitsPerOne_pos, F.thousand_eq, F.div_fin _ _ _ _ (by norm_num)]
    simp only [magUnits_zero, Nat.zero_mul]
    rw [F.roundUnits_zero]
    · decide
    · exact Nat.pos_of_ne_zero (fun h => by simpa using magUnits_eq_zero.1 h)

/-- A capacity that fits is at least one word (rule R24). -/
theorem capacityOf_pos {m r : F} (hm : finiteNonneg m = true) (hr : rateLegal r)
    (hf : fitsMemory m r = true) : 1 ≤ capacityOf m r := by
  have hfin : (samplesOf m r).isFinite = true := by
    simp [fitsMemory, capacityFits] at hf; exact hf.1
  have h0 := F.units_nonneg (samplesOf_nonneg hm hr hfin) hfin
  unfold capacityOf F.ceil
  rw [if_pos hfin]
  have hu : (0:Int) < (unitsPerOne : Int) := by exact_mod_cast unitsPerOne_pos
  generalize (unitsPerOne : Int) = U at hu ⊢
  generalize (samplesOf m r).units = z at h0 ⊢
  have : (-z) / U ≤ 0 := by
    have : (-z) / U ≤ 0 / U := Int.ediv_le_ediv hu (by omega)
    simpa using this
  omega

/-- The lower clamp of `new_max` gives a legal `max_time` (rule R103). -/
theorem clampMax_nonneg {m : F} (hm : m.isFinite = true) : finiteNonneg (clampMax m) = true := by
  unfold clampMax
  split_ifs with h
  · decide
  · simp [finiteNonneg, hm]
    exact F.le_of_not_lt (F.number_of_finite hm) (by decide) (Bool.eq_false_iff.2 h)


/-- What a run of a random modulator does to its registers, in both cases of rule R165. -/
theorem RandomMod.run_cases (m : RandomMod) (r : F) :
    (m.stepsPerPeriod ≤ m.elapsedSteps ∧
      (m.run r).1 = { m with current := m.next, next := r, elapsedSteps := 1 }) ∨
    (m.elapsedSteps < m.stepsPerPeriod ∧ (m.run r).1 = { m with elapsedSteps := m.elapsedSteps + 1 }) := by
  by_cases h : m.stepsPerPeriod ≤ m.elapsedSteps
  · exact .inl ⟨h, by simp [RandomMod.run, RandomMod.turn, h]⟩
  · exact .inr ⟨by omega, by simp [RandomMod.run, RandomMod.turn, h]⟩

end Sys2Proof.Machine
end

