-- ==== Sys2Proof/Tests/Slice0.lean ====
section
/-! SUPPORT. Tests: the well-formedness smoke, every row decoded from a word written out from rule R85, single
steps with the expected values of `95_test_vectors.md` (named in each test), and a witness for the hypotheses of
every statement of the obligations file. The theorems are checked one after the other: checked side by side, so
many of them need more threads than the memory limit of the check allows. -/

set_option Elab.async false

namespace Sys2Proof.Tests

open Sys2Proof.Machine

/-! ### Well-formedness (rule R86: `idx` is one byte) -/

theorem test_setwet_idx_256_refused : (Instr.rvSetwet 256 0).wellFormed = false := by decide
theorem test_getwet_idx_256_refused : (Instr.rvGetwet 256).wellFormed = false := by decide
theorem test_setwet_idx_255_accepted : (Instr.rvSetwet 255 0).wellFormed = true := by decide

/-! ### Decoding (rules R83 to R87; section 2.6 of the vectors) -/

/-- What the decoder reads from a command word, with `A = 5` and `B = 6`. -/
def decoded (w : CmdWord) : Option Instr := (decodeCommand ⟨w, 5, 6⟩).toOption

/-- Why the decoder refuses a command word. -/
def refusedFor (w : CmdWord) : Option Illegal :=
  match decodeCommand ⟨w, 5, 6⟩ with
  | .ok _ => none
  | .error e => some e

/-- The `RV` rows, by class 0 and op 0 to 10. -/
theorem test_decode_rv :
    decoded 0x00000000 = some (.rvRun 5 6) ∧ decoded 0x01000000 = some (.rvSetsr 5) ∧
    decoded 0x02030000 = some (.rvSetwet 3 5) ∧ decoded 0x02FF0000 = some (.rvSetwet 255 5) ∧
    decoded 0x03000000 = some (.rvSetlpf 5) ∧ decoded 0x04000000 = some (.rvSetmode 5) ∧
    decoded 0x05000000 = some .rvClear ∧ decoded 0x06000000 = some .rvGetsr ∧
    decoded 0x07000000 = some (.rvGetwet 0) ∧ decoded 0x07040000 = some (.rvGetwet 4) ∧
    decoded 0x08000000 = some .rvGetlpf ∧ decoded 0x09000000 = some .rvGetmode ∧
    decoded 0x0A000000 = some .rvGetout := by decide +kernel

/-- The `DL` rows, with both values of `c`. -/
theorem test_decode_dl :
    decoded 0x10000000 = some (.dlRun 5) ∧ decoded 0x11000000 = some (.dlSetsr 5) ∧
    decoded 0x12000000 = some (.dlSettime 5) ∧ decoded 0x13000000 = some (.dlSetmax false 5) ∧
    decoded 0x13000001 = some (.dlSetmax true 5) ∧ decoded 0x17000000 = some .dlClear := by decide +kernel

/-- The `CF` and `AP` rows. -/
theorem test_decode_cf_ap :
    decoded 0x20000000 = some (.cfRun 5) ∧ decoded 0x21000000 = some (.cfSetsr 5) ∧
    decoded 0x22000000 = some (.cfSettime 5) ∧ decoded 0x27000000 = some .cfClear ∧
    decoded 0x30000000 = some (.apRun 5) ∧ decoded 0x31000000 = some (.apSetsr 5) ∧
    decoded 0x32000000 = some (.apSettime 5) ∧ decoded 0x37000000 = some .apClear := by decide +kernel

/-- The `BQ` rows. -/
theorem test_decode_bq :
    decoded 0x40000000 = some (.bqRun 5) ∧ decoded 0x41000000 = some (.bqSetsr 5) ∧
    decoded 0x42000000 = some (.bqSetcut 5) ∧ decoded 0x43000000 = some (.bqSetq 5) ∧
    decoded 0x44000000 = some (.bqSetgain 5) ∧ decoded 0x45000000 = some (.bqSettype 5) ∧
    decoded 0x47000000 = some .bqClear := by decide +kernel

/-- The `LFO`, `RM` and `BK` rows. -/
theorem test_decode_modulators_blocks :
    decoded 0x50000000 = some .lfoRun ∧ decoded 0x51000000 = some (.lfoSetsr 5) ∧
    decoded 0x60000000 = some .rmRun ∧ decoded 0x61000000 = some (.rmSetsr 5) ∧
    decoded 0x70000000 = some (.bkRun 5 6) ∧ decoded 0x71000000 = some (.bkSetsr 5) ∧
    decoded 0x77000000 = some .bkClear := by decide +kernel

/-- Illegal words: an `op` without a row, and a class without rows. -/
theorem test_decode_reserved :
    refusedFor 0x0B000000 = some .reservedOp ∧ refusedFor 0x0F000000 = some .reservedOp ∧
    refusedFor 0x14000000 = some .reservedOp ∧ refusedFor 0x18000000 = some .reservedOp ∧
    refusedFor 0x46000000 = some .reservedOp ∧ refusedFor 0x52000000 = some .reservedOp ∧
    refusedFor 0x62000000 = some .reservedOp ∧ refusedFor 0x76000000 = some .reservedOp ∧
    refusedFor 0x80000000 = some .reservedClass ∧ refusedFor 0xFFFFFFFF = some .reservedClass := by
  decide +kernel

/-- Illegal words: a field that must be zero is not. -/
theorem test_decode_nonzero_fields :
    refusedFor 0x01010000 = some .idxField ∧ refusedFor 0x00000001 = some .clearFlag ∧
    refusedFor 0x00008000 = some .zeroField ∧ refusedFor 0x13000002 = some .zeroField ∧
    refusedFor 0x12000001 = some .clearFlag := by decide +kernel

/-- Line 2 of program P1: `RV.SETWET idx=3, 0.25`; without its `idx` the line is refused (rule R90). -/
theorem test_assemble_setwet :
    (AsmLine.mk .rvSetwet (some 3) none (some 0x3FD0000000000000) none).assemble.map encode
      = some ⟨0x02030000, 0x3FD0000000000000, 0⟩ ∧
    (AsmLine.mk .rvSetwet none none (some 0x3FD0000000000000) none).assemble = none := by decide +kernel

/-! ### Values -/

/-- A value by its pattern. -/
abbrev f (w : Word) : F := F.ofBits w

/-- A state with this device, nothing on the ports. -/
def st (d : Device) : State := { device := d, rsp := none, input := [], free := 0 }

/-- The two result words of an outcome. -/
def results : Out → Option (Word × Word)
  | .next t => t.rsp.map fun r => (r.r0, r.r1)
  | _ => none

/-- The device an outcome leaves. -/
def left : Out → Option Device
  | .next t => some t.device
  | _ => none

/-- A property of the delay line an outcome leaves. -/
def line (o : Out) (p : DelayLine → Bool) : Bool :=
  match left o with
  | some (.dl d) => p d
  | _ => false

/-- A property of the comb filter an outcome leaves. -/
def comb (o : Out) (p : CombFilter → Bool) : Bool :=
  match left o with
  | some (.cf c) => p c
  | _ => false

/-- A property of the allpass filter an outcome leaves. -/
def allpass (o : Out) (p : AllpassFilter → Bool) : Bool :=
  match left o with
  | some (.ap a) => p a
  | _ => false

/-- A property of the biquad an outcome leaves. -/
def biquad (o : Out) (p : Biquad → Bool) : Bool :=
  match left o with
  | some (.bq q) => p q
  | _ => false

/-- A property of the reverberator an outcome leaves. -/
def reverb (o : Out) (p : Reverb → Bool) : Bool :=
  match left o with
  | some (.rv v) => p v
  | _ => false

/-! ### Delay line (section 2.1) -/

/-- `DL1`: sample rate 1000.0, `max_time` 10.0, `time` 3.0, feedback gain 0.0. -/
def dl1 : DelayLine := mkDelayLine F.thousand (f 0x4024000000000000) (f 0x4008000000000000) F.zero

/-- `DL1` after inputs `1.0 .. 5.0` (vector DL9). -/
def dl9 : DelayLine :=
  { dl1 with
    buffer := [(0, F.one), (1, F.two), (2, f 0x4008000000000000), (3, f 0x4010000000000000),
      (4, f 0x4014000000000000)]
    writePos := 5, readPosFloor := 2, readPosCeil := 2 }

/-- DL1. -/
theorem test_dl_construction :
    dl1.capacity = 11 ∧ dl1.lagFloor = 3 ∧ dl1.lagCeil = 3 ∧ dl1.frac = F.zero ∧ dl1.readPosFloor = 8 ∧
      dl1.readPosCeil = 8 := by decide +kernel

/-- DL2, run 3, written with the state of a line that took an impulse three runs before. -/
theorem test_dl_run :
    results (exec (.dlRun 0)
      (st (.dl { dl1 with buffer := [(0, F.one)], writePos := 3, readPosFloor := 0, readPosCeil := 0 })))
      = some (0x3FF0000000000000, 0) := by decide +kernel

/-- DL9: `DL.SETTIME 1.0`. -/
theorem test_dl_settime :
    line (exec (.dlSettime 0x3FF0000000000000) (st (.dl dl9)))
      (fun d => decide (d = { dl9 with
        time := F.one, lagFloor := 1, lagCeil := 1, readPosFloor := 4, readPosCeil := 4 })) = true := by
  decide +kernel

/-- DL8: `DL.SETTIME 25.0` and `-4.0` clamp. -/
theorem test_dl_settime_clamps :
    line (exec (.dlSettime 0x4039000000000000) (st (.dl dl1)))
      (fun d => decide (d.time = f 0x4024000000000000)) = true ∧
    line (exec (.dlSettime 0xC010000000000000) (st (.dl dl1))) (fun d => decide (d.time = F.zero)) = true := by
  decide +kernel

/-- DL10: the live resize to 4.0 ms. -/
theorem test_dl_setmax_live :
    dl9.setMax false (f 0x4010000000000000) =
      { dl9 with maxTime := f 0x4010000000000000, capacity := 5, writePos := 0 } := by decide +kernel

/-- DL12: the clearing resize to 2.0 ms. -/
theorem test_dl_setmax_clearing :
    dl9.setMax true F.two =
      { dl9 with
        maxTime := F.two, capacity := 3, buffer := [], writePos := 0, time := F.two, lagFloor := 2,
        lagCeil := 2, readPosFloor := 1, readPosCeil := 1 } := by decide +kernel

/-- DL13: `DL.SETSR 2000.0`. -/
theorem test_dl_setsr :
    dl9.setRate (f 0x409F400000000000) =
      { dl9 with
        sampleRate := f 0x409F400000000000, capacity := 21, buffer := [], writePos := 0, lagFloor := 6,
        lagCeil := 6, readPosFloor := 15, readPosCeil := 15 } := by decide +kernel

/-- DL14: `DL.SETSR 0.25` clamps the rate. -/
theorem test_dl_setsr_clamps :
    let d := dl9.setRate F.quarter
    d.sampleRate = F.one ∧ d.capacity = 2 ∧ d.lagFloor = 0 ∧ d.lagCeil = 1 ∧
      d.frac = f 0x3F689374BC6A7EFA ∧ d.readPosCeil = 1 := by decide +kernel

/-- DL15. -/
theorem test_dl_clear :
    left (exec .dlClear (st (.dl dl9))) = some (.dl { dl9 with buffer := [] }) := by decide +kernel

/-! ### Comb and allpass filters (section 2.2) -/

/-- A line of lag 2 at run `n` with this memory. -/
def lag2 (n : Nat) (m : Memory) : DelayLine :=
  { mkDelayLine F.thousand (f 0x4024000000000000) F.two F.zero with
    buffer := m, writePos := n, readPosFloor := n - 2, readPosCeil := n - 2 }

/-- CF1 at run `n`, after an impulse. -/
def cf1 (n : Nat) : CombFilter :=
  { ff := lag2 n [(0, F.one)], fb := lag2 n [(1, F.one)], gain := F.one, feedforward := F.half,
    feedback := F.half, out := F.zero }

/-- CF1: the feedforward echo at run 2, the feedback echo at run 3. -/
theorem test_cf_run :
    results (exec (.cfRun 0) (st (.cf (cf1 2)))) = some (0x3FE0000000000000, 0) ∧
    results (exec (.cfRun 0) (st (.cf (cf1 3)))) = some (0x3FE0000000000000, 0) := by decide +kernel

/-- CF5: `CF.SETTIME 25.0`. -/
theorem test_cf_settime :
    comb (exec (.cfSettime 0x4039000000000000) (st (.cf (cf1 2))))
      (fun c => c.ff.lagFloor == 10 && c.fb.lagFloor == 10 && c.ff.readPosFloor == 3
        && c.fb.readPosCeil == 3) = true := by decide +kernel

/-- CF4: both lines rebuilt. -/
theorem test_cf_setsr :
    (cf1 2).setRate F.thousand =
      { cf1 2 with ff := (lag2 0 []).retime F.two, fb := (lag2 0 []).retime F.two } := by decide +kernel

/-- CF3. -/
theorem test_cf_clear :
    comb (exec .cfClear (st (.cf { cf1 2 with out := F.one })))
      (fun c => decide (c.ff.buffer = [] ∧ c.fb.buffer = [] ∧ c.out = F.zero ∧ c.ff.writePos = 2)) = true := by
  decide +kernel

/-- AP1 at run `n`, after an impulse. -/
def ap1 (n : Nat) : AllpassFilter :=
  { ff := lag2 n [(0, F.one)], fb := lag2 n [(1, f 0xBFE0000000000000)], gain := F.half, out := F.zero }

/-- AP1: `1.0` at run 2, `-0.25` at run 3; and `-0.5` for an impulse. -/
theorem test_ap_run :
    results (exec (.apRun 0) (st (.ap (ap1 2)))) = some (0x3FF0000000000000, 0) ∧
    results (exec (.apRun 0) (st (.ap (ap1 3)))) = some (0xBFD0000000000000, 0) := by decide +kernel

/-- P3, line 5: `AP.SETTIME 1.0`. -/
theorem test_ap_settime :
    allpass (exec (.apSettime 0x3FF0000000000000) (st (.ap (ap1 4))))
      (fun a => a.ff.readPosFloor == 3 && a.fb.readPosFloor == 3) = true := by decide +kernel

/-- As CF4. -/
theorem test_ap_setsr :
    (ap1 2).setRate F.thousand =
      { ap1 2 with ff := (lag2 0 []).retime F.two, fb := (lag2 0 []).retime F.two } := by decide +kernel

/-- P3, line 9. -/
theorem test_ap_clear :
    allpass (exec .apClear (st (.ap { ap1 2 with out := F.one })))
      (fun a => decide (a.ff.buffer = [] ∧ a.fb.buffer = [] ∧ a.out = F.zero)) = true := by decide +kernel

/-! ### Biquad (sections 2.3, 2.4) -/

/-- BQ1 after two runs of an impulse. -/
def bq1 : Biquad :=
  { sampleRate := f 0x40E5888000000000, type := .lowpass, cutoff := F.thousand, q := F.half, gain := F.zero,
    coefs := ⟨f 0xBFE0000000000000, F.quarter, F.half, F.quarter, f 0x3FC0000000000000⟩,
    w0 := F.half, w1 := F.one, w2 := F.zero }

/-- BQ1, run 2: output `0.25`, history `(0.0, 0.5, 1.0)`. -/
theorem test_bq_run :
    results (exec (.bqRun 0) (st (.bq bq1))) = some (0x3FD0000000000000, 0) ∧
    biquad (exec (.bqRun 0) (st (.bq bq1)))
      (fun q => decide (q.w0 = F.zero ∧ q.w1 = F.half ∧ q.w2 = F.one)) = true := by decide +kernel

/-- BS2, from cutoff 22050.0: the cutoff is clamped to the new Nyquist frequency. -/
theorem test_bq_setsr :
    biquad (exec (.bqSetsr 0x40BF400000000000) (st (.bq { bq1 with cutoff := f 0x40D5888000000000 })))
      (fun q => decide (q.sampleRate = f 0x40BF400000000000 ∧ q.cutoff = f 0x40AF400000000000)) = true := by
  decide +kernel

/-- BS1 and BS3. -/
theorem test_bq_setcut :
    biquad (exec (.bqSetcut 0x40DD4C0000000000) (st (.bq bq1)))
      (fun q => decide (q.cutoff = f 0x40D5888000000000)) = true ∧
    biquad (exec (.bqSetcut 0xC014000000000000) (st (.bq bq1))) (fun q => decide (q.cutoff = F.zero)) = true := by
  decide +kernel

/-- BS6. -/
theorem test_bq_setq_setgain :
    biquad (exec (.bqSetq 0) (st (.bq bq1))) (fun q => decide (q.q = F.zero)) = true ∧
    biquad (exec (.bqSetgain 0xC018000000000000) (st (.bq bq1)))
      (fun q => decide (q.gain = f 0xC018000000000000)) = true := by decide +kernel

/-- The type after a `BQ.SETTYPE`. -/
def typeAfter (a : Word) : Option Nat :=
  match left (exec (.bqSettype a) (st (.bq bq1))) with
  | some (.bq q) => some q.type.code
  | _ => none

/-- BS5, and the ends of the range: -1, 0, 5, 7, 8, 9. -/
theorem test_bq_settype :
    typeAfter 0xFFFFFFFFFFFFFFFF = some 0 ∧ typeAfter 0 = some 0 ∧ typeAfter 5 = some 5 ∧
    typeAfter 7 = some 7 ∧ typeAfter 8 = some 7 ∧ typeAfter 9 = some 7 := by decide +kernel

/-- BQ4. -/
theorem test_bq_clear :
    left (exec .bqClear (st (.bq bq1))) = some (.bq { bq1 with w0 := F.zero, w1 := F.zero, w2 := F.zero }) := by
  decide +kernel

/-! ### Modulators (section 2.5) -/

/-- LF1: an `LFO` of 250 Hz at 1000.0. -/
def lf1 : Lfo := { sampleRate := F.thousand, frequency := f 0x406F400000000000, phase := F.zero }

/-- LF1, first run: the phase; and, for a standing phase, `SIN(+0.0) = +0.0` (rule R8). -/
theorem test_lfo_run :
    lf1.run.1.phase = F.quarter ∧
    results (exec .lfoRun (st (.lfo { lf1 with frequency := F.zero }))) = some (0, 0) := by decide +kernel

/-- LF5: `LFO.SETSR 0.0`; the next phase is `wrap(0.25 + 250.0)`. -/
theorem test_lfo_setsr :
    left (exec (.lfoSetsr 0) (st (.lfo { lf1 with phase := F.quarter })))
      = some (.lfo { lf1 with sampleRate := F.one, phase := F.quarter }) ∧
    (Lfo.run { lf1 with sampleRate := F.one, phase := F.quarter }).1.phase = F.quarter := by decide +kernel

/-- RM1 before its second run: `current` 0.0, `next` 1.0. -/
def rm1 : RandomMod :=
  { sampleRate := F.thousand, frequency := f 0x406F400000000000, stepsPerPeriod := 4, elapsedSteps := 1,
    current := F.zero, next := F.one }

/-- RM1, run 1; and run 4, with the draw -1.0. -/
theorem test_rm_run :
    results (exec .rmRun (st (.rm rm1))) = some (0x3FD0000000000000, 0) ∧
    RandomMod.run { rm1 with elapsedSteps := 4 } F.negOne =
      ({ rm1 with elapsedSteps := 1, current := F.one, next := F.negOne }, F.one) := by decide +kernel

/-- RM3: `RM.SETSR 500.0` leaves the counter above the new period. -/
theorem test_rm_setsr :
    left (exec (.rmSetsr 0x407F400000000000) (st (.rm { rm1 with elapsedSteps := 3 })))
      = some (.rm { rm1 with sampleRate := f 0x407F400000000000, stepsPerPeriod := 2, elapsedSteps := 3 }) := by
  decide +kernel

/-! ### Blocks and the reverberator (section 3) -/

/-- A line of `TCFG` out of reset: capacity 11, lag `n`, time `t`. -/
def lineT (n : Nat) (t : Word) : DelayLine :=
  { sampleRate := F.thousand, maxTime := f 0x4024000000000000, time := f t, feedbackGain := F.zero, capacity := 11,
    buffer := [], writePos := 0, lagFloor := n, lagCeil := n, frac := F.zero, readPosFloor := 11 - n,
    readPosCeil := 11 - n }

/-- The comb filter `rec(t)` of `TCFG`. -/
def combT (n : Nat) (t : Word) : CombFilter :=
  { ff := lineT n t, fb := lineT n t, gain := F.half, feedforward := F.half, feedback := F.quarter, out := F.zero }

/-- The allpass filter `rec(t)` of `TCFG`. -/
def apT (n : Nat) (t : Word) : AllpassFilter :=
  { ff := lineT n t, fb := lineT n t, gain := F.half, out := F.zero }

/-- A random modulator of `TCFG`. -/
def rmT : RandomMod :=
  { sampleRate := F.thousand, frequency := F.thousand, stepsPerPeriod := 1, elapsedSteps := 1, current := F.zero,
    next := F.zero }

/-- A lowpass with the coefficients `COEF_T` of `TCFG`. -/
def lpT : Biquad :=
  { sampleRate := F.thousand, type := .lowpass, cutoff := f 0x4059000000000000, q := F.half, gain := F.zero,
    coefs := ⟨F.zero, F.zero, F.half, F.half, F.zero⟩, w0 := F.zero, w1 := F.zero, w2 := F.zero }

/-- Block 1 of `TCFG` out of reset. -/
def blockT1 : CombBlock :=
  { comb := ⟨⟨combT 2 0x4000000000000000, combT 3 0x4008000000000000⟩,
      ⟨combT 4 0x4010000000000000, combT 5 0x4014000000000000⟩⟩
    lp := ⟨lpT, lpT⟩ }

/-- Block 2 of `TCFG` out of reset. -/
def blockT2 : CombBlock :=
  { comb := ⟨⟨combT 3 0x4008000000000000, combT 5 0x4014000000000000⟩,
      ⟨combT 2 0x4000000000000000, combT 7 0x401C000000000000⟩⟩
    lp := ⟨lpT, lpT⟩ }

/-- Block 3 of `TCFG` out of reset. -/
def blockT3 : LfoBlock :=
  let c : Chain4 AllpassFilter :=
    ⟨apT 1 0x3FF0000000000000, apT 2 0x4000000000000000, apT 3 0x4008000000000000, apT 4 0x4010000000000000⟩
  { ap := ⟨c, c⟩, lp := ⟨lpT, lpT⟩, lfo := ⟨lf1, { lf1 with frequency := f 0x407F400000000000 }⟩ }

/-- Block 4 of `TCFG` out of reset. -/
def blockT4 : RmBlock :=
  let c : Chain6 AllpassFilter :=
    ⟨apT 1 0x3FF0000000000000, apT 2 0x4000000000000000, apT 3 0x4008000000000000, apT 4 0x4010000000000000,
      apT 5 0x4014000000000000, apT 6 0x4018000000000000⟩
  { ap := ⟨c, c⟩, lp := ⟨lpT, lpT⟩, rm := ⟨⟨rmT, rmT⟩, ⟨rmT, rmT⟩⟩ }

/-- The device of `TCFG` out of reset. -/
def rvT : Reverb :=
  { sampleRate := F.thousand, wet := ⟨F.one, F.one, F.one, F.one⟩, mode := .parallel,
    lowpassCutoff := f 0x4059000000000000, last := ⟨F.zero, F.zero⟩, block1 := blockT1, block2 := blockT2,
    block3 := blockT3, block4 := blockT4, olp := ⟨lpT, lpT⟩ }

/-- `BK.CLEAR` zeroes the output of a comb filter and keeps its lines' positions. -/
theorem test_bk_clear :
    left (exec .bkClear (st (.bk (.early { blockT1 with comb := ⟨⟨cf1 2, cf1 3⟩, ⟨cf1 4, cf1 5⟩⟩ }))))
      = some (.bk (.early { blockT1 with
          comb := ⟨⟨(cf1 2).clear, (cf1 3).clear⟩, ⟨(cf1 4).clear, (cf1 5).clear⟩⟩ })) := by decide +kernel

/-- Rule R210: at 100.0 the lines shrink, and the cutoff is clamped to 50.0. -/
theorem test_rv_setsr :
    let v := rvT.setRate (f 0x4059000000000000)
    v.sampleRate = f 0x4059000000000000 ∧ v.lowpassCutoff = f 0x4049000000000000 ∧
      v.block1.comb.left.first.ff.capacity = 2 ∧ v.block4.ap.right.f6.fb.capacity = 2 ∧
      v.block3.lfo.left.sampleRate = f 0x4059000000000000 ∧ v.block4.rm.left.second.stepsPerPeriod = 1 ∧
      v.olp.right.cutoff = f 0x4049000000000000 := by decide +kernel

/-- The wets after `RV.SETWET idx, 0.5` on a device whose wets are all 1.0. -/
def wetsAfter (idx : Nat) : Option Wets :=
  match left (exec (.rvSetwet idx 0x3FE0000000000000) (st (.rv rvT))) with
  | some (.rv v) => some v.wet
  | _ => none

/-- P1, line 1, at both ends of the legal indices; rule R211: an index that names no block has no effect. -/
theorem test_rv_setwet :
    wetsAfter 0 = some rvT.wet ∧ wetsAfter 1 = some ⟨F.half, F.one, F.one, F.one⟩ ∧
    wetsAfter 4 = some ⟨F.one, F.one, F.one, F.half⟩ ∧ wetsAfter 5 = some rvT.wet := by decide +kernel

/-- `RV.SETLPF 1000.0` at sample rate 1000.0 clamps to 500.0. -/
theorem test_rv_setlpf :
    reverb (exec (.rvSetlpf 0x408F400000000000) (st (.rv rvT)))
      (fun v => decide (v.lowpassCutoff = f 0x407F400000000000 ∧ v.olp.right.cutoff = f 0x407F400000000000)) = true := by
  decide +kernel

/-- The mode after an `RV.SETMODE`. -/
def modeAfter (a : Word) : Option Mode :=
  match left (exec (.rvSetmode a) (st (.rv { rvT with mode := .serial }))) with
  | some (.rv v) => some v.mode
  | _ => none

/-- Rule R213, at the ends of the range: -1, 0, 1, 2, 3. -/
theorem test_rv_setmode :
    modeAfter 0xFFFFFFFFFFFFFFFF = some .parallel ∧ modeAfter 0 = some .parallel ∧
    modeAfter 1 = some .serial ∧ modeAfter 2 = some .hybrid ∧ modeAfter 3 = some .hybrid := by decide +kernel

/-- P5: after `RV.CLEAR`, `last` is `(+0.0, +0.0)`; wets and mode stay. -/
theorem test_rv_clear :
    reverb (exec .rvClear (st (.rv { rvT with last := ⟨F.one, F.two⟩, mode := .hybrid })))
      (fun v => decide (v.last = ⟨F.zero, F.zero⟩ ∧ v.mode = .hybrid ∧ v.wet = rvT.wet)) = true := by
  decide +kernel

/-- P1, lines 15 to 17, and the other two getters. -/
theorem test_rv_getters :
    let s := st (.rv { rvT with
      wet := ⟨F.one, F.half, F.quarter, f 0x3FE8000000000000⟩, mode := .hybrid, last := ⟨F.half, F.negOne⟩ })
    results (exec .rvGetout s) = some (0x3FE0000000000000, 0xBFF0000000000000) ∧
    results (exec .rvGetmode s) = some (2, 0) ∧ results (exec (.rvGetwet 4) s) = some (0x3FE8000000000000, 0) ∧
    results (exec (.rvGetwet 1) s) = some (0x3FF0000000000000, 0) ∧ results (exec (.rvGetwet 0) s) = some (0, 0) ∧
    results (exec (.rvGetwet 5) s) = some (0, 0) ∧ results (exec .rvGetsr s) = some (0x408F400000000000, 0) ∧
    results (exec .rvGetlpf s) = some (0x4059000000000000, 0) := by decide +kernel

/-! ### Witnesses: for each statement with hypotheses, a state and operands that meet them all -/

/-- `1.0` and `0.5` as operand words. -/
def one64 : Word := 0x3FF0000000000000
def half64 : Word := 0x3FE0000000000000
/-- The largest finite operand. -/
def big64 : Word := 0x7FEFFFFFFFFFFFFF
/-- A NaN and an infinity as operand words. -/
def nan64 : Word := 0x7FF8000000000000
def inf64 : Word := 0x7FF0000000000000

/-- A line of one word, which fits every device. -/
def quiet : DelayLine := mkDelayLine F.one F.zero F.zero F.half

theorem quiet_maxTime : quiet.maxTime = F.zero := by decide +kernel
theorem quiet_rate : quiet.sampleRate = F.one := by decide +kernel
theorem one64_eq : F.ofBits one64 = F.one := rfl
theorem clampRate_one : clampRate F.one = F.one := by decide +kernel

theorem quiet_fitsAt : quiet.fitsAt (F.ofBits one64) = true := by
  rw [DelayLine.fitsAt, quiet_maxTime, one64_eq, clampRate_one]; exact fitsMemory_zero_one

theorem quiet_inv : quiet.Inv where
  rate := by unfold rateLegal; decide +kernel
  maxTime := by decide +kernel
  time_low := by decide +kernel
  time_high := by decide +kernel
  capacity_eq := by decide +kernel
  capacity_pos := by decide +kernel
  fits := by rw [quiet_maxTime, quiet_rate]; exact fitsMemory_zero_one
  lagFloor_eq := by decide +kernel
  lagCeil_eq := by decide +kernel
  frac_eq := by decide +kernel
  writePos_lt := by decide +kernel
  readPosFloor_eq := by decide +kernel
  readPosCeil_eq := by decide +kernel
  buffer_wf := by decide +kernel
  buffer_within := by decide +kernel

/-- Filters, blocks and a reverberator over lines of one word. -/
def cfQ : CombFilter := { cf1 0 with ff := quiet, fb := quiet }
def apQ : AllpassFilter := { ap1 0 with ff := quiet, fb := quiet }
def combQ : CombBlock := { blockT1 with comb := ⟨⟨cfQ, cfQ⟩, ⟨cfQ, cfQ⟩⟩ }
def lfoQ : LfoBlock := { blockT3 with ap := ⟨⟨apQ, apQ, apQ, apQ⟩, ⟨apQ, apQ, apQ, apQ⟩⟩ }
def rmQ : RmBlock :=
  { blockT4 with ap := ⟨⟨apQ, apQ, apQ, apQ, apQ, apQ⟩, ⟨apQ, apQ, apQ, apQ, apQ, apQ⟩⟩ }
def rvQ : Reverb := { rvT with block1 := combQ, block2 := combQ, block3 := lfoQ, block4 := rmQ }

theorem cfQ_fitsAt : cfQ.fitsAt (F.ofBits one64) = true := by simp [CombFilter.fitsAt, cfQ, quiet_fitsAt]
theorem apQ_fitsAt : apQ.fitsAt (F.ofBits one64) = true := by simp [AllpassFilter.fitsAt, apQ, quiet_fitsAt]
theorem combQ_fitsAt : combQ.fitsAt (F.ofBits one64) = true := by
  simp [CombBlock.fitsAt, combQ, Stereo.all, Pair.all, cfQ_fitsAt]
theorem lfoQ_fitsAt : lfoQ.fitsAt (F.ofBits one64) = true := by
  simp [LfoBlock.fitsAt, lfoQ, Stereo.all, Chain4.all, apQ_fitsAt]
theorem rmQ_fitsAt : rmQ.fitsAt (F.ofBits one64) = true := by
  simp [RmBlock.fitsAt, rmQ, Stereo.all, Chain6.all, apQ_fitsAt]
theorem rvQ_fitsAt : rvQ.fitsAt (F.ofBits one64) = true := by
  simp [Reverb.fitsAt, rvQ, combQ_fitsAt, lfoQ_fitsAt, rmQ_fitsAt]

theorem witness_DlRunReadsInterpolatedThenWrites : (st (.dl dl9)).device = .dl dl9 := rfl

theorem dlRun_completes (d : DelayLine) (a : Word) : ∃ t, exec (.dlRun a) (st (.dl d)) = .next t := ⟨_, rfl⟩

theorem witness_DlRunChangesOneWord :
    (st (.dl quiet)).device = .dl quiet ∧ quiet.Inv ∧ ∃ t, exec (.dlRun one64) (st (.dl quiet)) = .next t :=
  ⟨rfl, quiet_inv, dlRun_completes _ _⟩

theorem witness_DlSettimeRetimes :
    (st (.dl dl9)).device = .dl dl9 ∧ (F.ofBits one64).isFinite = true := ⟨rfl, rfl⟩

/-- Both branches of `new_max`'s clamp: `0.0` as it is, and `-1.0` clamped to `0.0`; a memory for the live resize. -/
theorem witness_DlSetmaxResizes :
    let d := { quiet with buffer := [(0, F.one)] }
    (st (.dl d)).device = .dl d ∧
    (F.ofBits (0 : Word)).isFinite = true ∧ fitsMemory (clampMax (F.ofBits 0)) d.sampleRate = true ∧
    (F.ofBits 0xBFF0000000000000).isFinite = true ∧
    fitsMemory (clampMax (F.ofBits 0xBFF0000000000000)) d.sampleRate = true ∧
    d.buffer.within d.capacity = true := by
  have h : clampMax (F.ofBits 0) = F.zero ∧ clampMax (F.ofBits 0xBFF0000000000000) = F.zero := by
    decide +kernel
  have hq : fitsMemory F.zero quiet.sampleRate = true := by rw [quiet_rate]; exact fitsMemory_zero_one
  rw [h.1, h.2]
  exact ⟨rfl, rfl, hq, rfl, hq, by decide +kernel⟩

theorem witness_DlSetsrRebuilds :
    (st (.dl quiet)).device = .dl quiet ∧ (F.ofBits one64).isFinite = true ∧
      quiet.fitsAt (F.ofBits one64) = true := ⟨rfl, rfl, quiet_fitsAt⟩

theorem witness_DlClearZeroesWords : (st (.dl dl9)).device = .dl dl9 := rfl

/-- An `RM` of 250 Hz. The other units have no hypothesis. -/
theorem witness_UnitConstructionValues :
    ((clampRate F.thousand).div (f 0x406F400000000000)).isFinite = true := by decide +kernel

theorem witness_DlLagsBelowCapacity : quiet.Inv ∧ quiet.time.isFinite = true := ⟨quiet_inv, by decide +kernel⟩

/-- Silent lines of capacity 3, of lag 1 and of lag 0. -/
def lag1 : DelayLine := mkDelayLine F.thousand F.two F.one F.zero
def lag0 : DelayLine := mkDelayLine F.thousand F.two F.zero F.zero

/-- The states of a line that is given `1.0` again and again. -/
def fed (d : DelayLine) : Nat → State
  | 0 => st (.dl d)
  | n + 1 =>
    match exec (.dlRun one64) (fed d n) with
    | .next t => t
    | _ => fed d n

theorem fed_dl (d : DelayLine) (n : Nat) : ∃ e, (fed d n).device = .dl e := by
  induction n with
  | zero => exact ⟨_, rfl⟩
  | succ n ih =>
    obtain ⟨e, h⟩ := ih
    exact ⟨(e.run (operandF one64)).1, by simp [fed, exec, execDlRun, onDl, h, State.gives, State.answer]⟩

theorem fed_runs (d : DelayLine) (n : Nat) : exec (.dlRun one64) (fed d n) = .next (fed d (n + 1)) := by
  obtain ⟨e, h⟩ := fed_dl d n
  simp [fed, exec, execDlRun, onDl, h, State.gives]

/-- Both values of the delay: the lag, and the capacity for lag 0. -/
theorem witness_DlPureDelay (d : DelayLine) (hd : d = lag1 ∨ d = lag0) :
    d.buffer.wf = true ∧ d.writePos < d.capacity ∧ d.lagFloor < d.capacity ∧
    d.readPosFloor = (((d.writePos : Int) - (d.lagFloor : Int)) % (d.capacity : Int)).toNat ∧
    d.feedbackGain = F.zero ∧ d.frac = F.zero ∧ (∀ i, d.buffer.read i = F.zero) ∧
    (fed d 0).device = .dl d ∧ (∀ _ : Nat, (F.ofBits one64).isFinite = true) ∧
    (∀ n, exec (.dlRun one64) (fed d n) = .next (fed d (n + 1))) ∧ lag1.lagFloor = 1 ∧ lag0.lagFloor = 0 := by
  rcases hd with rfl | rfl <;>
    exact ⟨by decide +kernel, by decide +kernel, by decide +kernel, by decide +kernel, by decide +kernel,
      by decide +kernel, fun _ => rfl, rfl, fun _ => rfl, fed_runs _, by decide +kernel, by decide +kernel⟩

theorem witness_CfRunCombinesBothLines : (st (.cf (cf1 2))).device = .cf (cf1 2) := rfl

theorem witness_CfSettersReachBothLines :
    (st (.cf cfQ)).device = .cf cfQ ∧ (F.ofBits one64).isFinite = true ∧
      cfQ.ff.fitsAt (F.ofBits one64) = true ∧ cfQ.fb.fitsAt (F.ofBits one64) = true :=
  ⟨rfl, rfl, quiet_fitsAt, quiet_fitsAt⟩

theorem witness_ApRunCombinesBothLines : (st (.ap (ap1 2))).device = .ap (ap1 2) := rfl

theorem witness_ApSettersReachBothLines :
    (st (.ap apQ)).device = .ap apQ ∧ (F.ofBits one64).isFinite = true ∧
      apQ.ff.fitsAt (F.ofBits one64) = true ∧ apQ.fb.fitsAt (F.ofBits one64) = true :=
  ⟨rfl, rfl, quiet_fitsAt, quiet_fitsAt⟩

theorem witness_BqRunShiftsThenRecurs : (st (.bq bq1)).device = .bq bq1 := rfl

theorem witness_BqSettersRecompute :
    (st (.bq bq1)).device = .bq bq1 ∧ (F.ofBits half64).isFinite = true := ⟨rfl, rfl⟩

/-- The three clauses: -1, 0 and 7, 8. -/
theorem witness_BqSettypeClamps :
    (st (.bq bq1)).device = .bq bq1 ∧ (0xFFFFFFFFFFFFFFFF : Word).toInt < 0 ∧ (8 : Word).toInt > 7 ∧
      ¬ ((0 : Word).toInt < 0) ∧ ¬ ((7 : Word).toInt > 7) := ⟨rfl, by decide, by decide, by decide, by decide⟩

theorem witness_BqClearZeroesHistory : (st (.bq bq1)).device = .bq bq1 := rfl

theorem witness_LfoRunAdvancesPhase : (st (.lfo lf1)).device = .lfo lf1 := rfl

/-- A finite value, and the ends of both ranges: `0.0`, the largest value below `1.0`, `1.0`, the largest value
below `2.0`. -/
theorem witness_WrapReducesToUnitInterval :
    (f 0x406F400000000000).isFinite = true ∧ F.zero.le F.zero = true ∧ F.zero.lt F.one = true ∧
      F.zero.le (f 0x3FEFFFFFFFFFFFFF) = true ∧ (f 0x3FEFFFFFFFFFFFFF).lt F.one = true ∧
      F.one.le F.one = true ∧ F.one.lt F.two = true ∧
      F.one.le (f 0x3FFFFFFFFFFFFFFF) = true ∧ (f 0x3FFFFFFFFFFFFFFF).lt F.two = true := by decide +kernel

theorem witness_ModulatorSetsrKeepsPosition :
    (F.ofBits half64).isFinite = true ∧ (st (.lfo lf1)).device = .lfo lf1 ∧
      (st (.rm rm1)).device = .rm rm1 ∧ (F.one.div rm1.frequency).isFinite = true := by decide +kernel

theorem witness_RmRunRampsToDraw : (st (.rm rm1)).device = .rm rm1 := rfl

theorem rm1_inv : rm1.Inv where
  rate := by unfold rateLegal; decide +kernel
  frequency := by decide +kernel
  steps_eq := by decide +kernel
  current := by decide +kernel
  next := by decide +kernel

/-- A counter inside its period, and one that a change of rate left above it. -/
theorem witness_RmCounterBounded :
    (st (.rm rm1)).device = .rm rm1 ∧ rm1.Inv ∧ (rm1.sampleRate.div rm1.frequency).isFinite = true ∧
      { rm1 with elapsedSteps := 9 }.Inv :=
  ⟨rfl, rm1_inv, by decide +kernel, ⟨rm1_inv.rate, rm1_inv.frequency, rm1_inv.steps_eq, rm1_inv.current, rm1_inv.next⟩⟩

theorem witness_RmFirstRunIsZero :
    F.thousand.isFinite = true ∧ finitePos (f 0x406F400000000000) = true ∧
      ((clampRate F.thousand).div (f 0x406F400000000000)).isFinite = true ∧
      (st (.rm (mkRandomMod F.thousand (f 0x406F400000000000)))).device
        = .rm (mkRandomMod F.thousand (f 0x406F400000000000)) := by decide +kernel

theorem witness_BkRunCombBlocksMix :
    (st (.bk (.early blockT1))).device = .bk (.early blockT1) ∧
      (st (.bk (.midDense blockT2))).device = .bk (.midDense blockT2) := ⟨rfl, rfl⟩

theorem witness_BkRunLfoBlockRetunesAfter : (st (.bk (.lfoAllpass blockT3))).device = .bk (.lfoAllpass blockT3) := rfl

theorem witness_BkRunRmBlockRetunesAfter : (st (.bk (.rmAllpass blockT4))).device = .bk (.rmAllpass blockT4) := rfl

theorem witness_BkSetsrReachesEveryUnit :
    (F.ofBits one64).isFinite = true ∧
      combQ.fitsAt (F.ofBits one64) = true ∧ (st (.bk (.early combQ))).device = .bk (.early combQ) ∧
      (st (.bk (.midDense combQ))).device = .bk (.midDense combQ) ∧
      lfoQ.fitsAt (F.ofBits one64) = true ∧ (st (.bk (.lfoAllpass lfoQ))).device = .bk (.lfoAllpass lfoQ) ∧
      rmQ.fitsAt (F.ofBits one64) = true ∧ (st (.bk (.rmAllpass rmQ))).device = .bk (.rmAllpass rmQ) :=
  ⟨rfl, combQ_fitsAt, rfl, rfl, lfoQ_fitsAt, rfl, rmQ_fitsAt, rfl⟩

theorem witness_BkClearSparesModulators :
    (st (.bk (.early blockT1))).device = .bk (.early blockT1) ∧
      (st (.bk (.midDense blockT2))).device = .bk (.midDense blockT2) ∧
      (st (.bk (.lfoAllpass blockT3))).device = .bk (.lfoAllpass blockT3) ∧
      (st (.bk (.rmAllpass blockT4))).device = .bk (.rmAllpass blockT4) := ⟨rfl, rfl, rfl, rfl⟩

/-- Two blocks that agree on the left and differ on the right, and the other way round. -/
theorem witness_ModulatedChannelsIndependent :
    (let j := { blockT3 with ap := ⟨blockT3.ap.left, lfoQ.ap.right⟩ }
     blockT3.ap.left = j.ap.left ∧ blockT3.lp.left = j.lp.left ∧ blockT3.lfo.left = j.lfo.left) ∧
    (let j := { blockT3 with ap := ⟨lfoQ.ap.left, blockT3.ap.right⟩ }
     blockT3.ap.right = j.ap.right ∧ blockT3.lp.right = j.lp.right ∧ blockT3.lfo.right = j.lfo.right) ∧
    (let j := { blockT4 with ap := ⟨blockT4.ap.left, rmQ.ap.right⟩ }
     blockT4.ap.left = j.ap.left ∧ blockT4.lp.left = j.lp.left ∧ blockT4.rm.left = j.rm.left) ∧
    (let j := { blockT4 with ap := ⟨rmQ.ap.left, blockT4.ap.right⟩ }
     blockT4.ap.right = j.ap.right ∧ blockT4.lp.right = j.lp.right ∧ blockT4.rm.right = j.rm.right) :=
  ⟨⟨rfl, rfl, rfl⟩, ⟨rfl, rfl, rfl⟩, ⟨rfl, rfl, rfl⟩, ⟨rfl, rfl, rfl⟩⟩

theorem witness_RvRunParallel : (st (.rv rvT)).device = .rv rvT ∧ rvT.mode = .parallel := ⟨rfl, rfl⟩

theorem witness_RvRunSerial :
    let v := { rvT with mode := .serial }
    (st (.rv v)).device = .rv v ∧ v.mode = .serial := ⟨rfl, rfl⟩

theorem witness_RvRunHybrid :
    let v := { rvT with mode := .hybrid }
    (st (.rv v)).device = .rv v ∧ v.mode = .hybrid := ⟨rfl, rfl⟩

/-- A device with all wets `0.0`, one of them `-0.0`, over lines of one word. -/
def rvDry (m : Mode) : Reverb := { rvQ with wet := ⟨F.zero, F.zero.neg, F.zero, F.zero⟩, mode := m }

/-- The samples `1.0` and `0.5`. -/
def dryIn : Stereo F := ⟨F.ofBits one64, F.ofBits half64⟩

def bothFinite (p : Stereo F) : Bool := p.left.isFinite && p.right.isFinite

theorem rmQ_output (n : Nat) (x : Stereo F) : (rmQ.run n x).2 = (rmQ.run 0 x).2 := rfl
theorem rvDry_blend4 (m : Mode) (n : Nat) (x : Stereo F) :
    ((rvDry m).blend4 n x).2 = ((rvDry m).blend4 0 x).2 := rfl

/-- The first two clauses, with an infinity on the side that may be one; then the three modes. In each the outputs of
the blocks are those with the draws of counter 0 (`rmQ_output`, `rvDry_blend4`). -/
theorem witness_BlendEndpoints :
    F.zero.eqv F.zero = true ∧ F.zero.neg.eqv F.zero = true ∧ F.half.isFinite = true ∧ (F.ofBits inf64).isNan = false ∧
    (∀ m, (st (.rv (rvDry m))).device = .rv (rvDry m) ∧ (rvDry m).mode = m ∧
      (rvDry m).wet = ⟨F.zero, F.zero.neg, F.zero, F.zero⟩) ∧
    bothFinite dryIn = true ∧
    (((F.one.add F.one).add F.one).add F.one).isFinite = true ∧
    (((F.half.add F.half).add F.half).add F.half).isFinite = true ∧
    (let v := rvDry .parallel
     bothFinite (v.block1.run dryIn).2 = true ∧ bothFinite (v.block2.run dryIn).2 = true ∧
      bothFinite (v.block3.run dryIn).2 = true ∧ bothFinite (v.block4.run 0 dryIn).2 = true) ∧
    (let v := rvDry .serial
     let s1 := (v.blend1 dryIn).2
     let s2 := (v.blend2 s1).2
     let s3 := (v.blend3 s2).2
     bothFinite (v.block1.run dryIn).2 = true ∧ bothFinite (v.block2.run s1).2 = true ∧
      bothFinite (v.block3.run s2).2 = true ∧ bothFinite (v.block4.run 0 s3).2 = true) ∧
    (let v := rvDry .hybrid
     let t3 := (v.blend3 dryIn).2
     let t4 := (v.blend4 0 t3).2
     bothFinite (v.block3.run dryIn).2 = true ∧ bothFinite (v.block4.run 0 t3).2 = true ∧
      bothFinite (v.block1.run t4).2 = true ∧ bothFinite (v.block2.run t4).2 = true) :=
  ⟨by decide +kernel, by decide +kernel, by decide +kernel, by decide +kernel, fun _ => ⟨rfl, rfl, rfl⟩,
    by decide +kernel, by decide +kernel, by decide +kernel, by decide +kernel, by decide +kernel, by decide +kernel⟩

theorem witness_RvSetsrPropagates :
    (st (.rv rvQ)).device = .rv rvQ ∧ (F.ofBits one64).isFinite = true ∧
      rvQ.fitsAt (F.ofBits one64) = true := ⟨rfl, rfl, rvQ_fitsAt⟩

theorem witness_RvSetsrLeavesOneRate :
    (st (.rv rvQ)).device = .rv rvQ ∧ ∃ t, exec (.rvSetsr one64) (st (.rv rvQ)) = .next t := by
  refine ⟨rfl, ?_⟩
  simp only [exec, execRvSetsr, onRv, st, finiteOperand, whenFits, operandF, rvQ_fitsAt, if_true]
  exact ⟨_, rfl⟩

/-- The operand, and the indices 0, 1, 4, 5, at the ends of the clauses. -/
theorem witness_RvSetwetClampsOrIgnores :
    (st (.rv rvT)).device = .rv rvT ∧ (F.ofBits half64).isFinite = true ∧ wetsAfter 0 = some rvT.wet ∧
      wetsAfter 1 ≠ some rvT.wet ∧ wetsAfter 4 ≠ some rvT.wet ∧ wetsAfter 5 = some rvT.wet :=
  ⟨rfl, rfl, by decide +kernel, by decide +kernel, by decide +kernel, by decide +kernel⟩

theorem witness_RvSetlpfReachesOutputsOnly :
    (st (.rv rvT)).device = .rv rvT ∧ (F.ofBits half64).isFinite = true := ⟨rfl, rfl⟩

/-- The three clauses: -1, 0 and 2, 3. -/
theorem witness_RvSetmodeClamps :
    (st (.rv rvT)).device = .rv rvT ∧ (0xFFFFFFFFFFFFFFFF : Word).toInt < 0 ∧ (3 : Word).toInt > 2 ∧
      ¬ ((0 : Word).toInt < 0) ∧ ¬ ((2 : Word).toInt > 2) := ⟨rfl, by decide, by decide, by decide, by decide⟩

theorem witness_RvClearSilences : (st (.rv rvT)).device = .rv rvT := rfl

theorem witness_RvGettersReadOnly : (st (.rv rvT)).device = .rv rvT := rfl

/-- The device; the clauses at their ends are in `test_rv_getters`. -/
theorem witness_RvGetwetReadsOrZero : (st (.rv rvT)).device = .rv rvT := rfl

theorem rvRun_completes (v : Reverb) (a b : Word) : ∃ t, exec (.rvRun a b) (st (.rv v)) = .next t := ⟨_, rfl⟩

theorem witness_RvGetoutRepeatsRun :
    (st (.rv rvT)).device = .rv rvT ∧ ∃ t, exec (.rvRun one64 half64) (st (.rv rvT)) = .next t :=
  ⟨rfl, rvRun_completes _ _ _⟩

/-- Two devices in different modes, with different inputs. -/
theorem witness_ModulatorsIgnoreModeAndInput :
    let v := { rvT with mode := .serial, block1 := combQ }
    (st (.rv rvT)).device = .rv rvT ∧ (st (.rv v)).device = .rv v ∧ (st (.rv rvT)).free = (st (.rv v)).free ∧
      rvT.block3.lfo = v.block3.lfo ∧ rvT.block4.rm = v.block4.rm ∧
      (∃ t, exec (.rvRun one64 half64) (st (.rv rvT)) = .next t) ∧
      ∃ t, exec (.rvRun half64 half64) (st (.rv v)) = .next t :=
  ⟨rfl, rfl, rfl, rfl, rfl, rvRun_completes _ _ _, rvRun_completes _ _ _⟩

theorem witness_RvInitSetsControls :
    (st (.rv rvQ)).device = .rv rvQ ∧ (F.ofBits one64).isFinite = true ∧ (F.ofBits half64).isFinite = true ∧
      rvQ.fitsAt (F.ofBits one64) = true := ⟨rfl, rfl, rfl, rvQ_fitsAt⟩

/-- A state with one input. -/
def given (d : Device) (rst : Bool) (w : CmdWord) : State :=
  { st d with input := [⟨rst, ⟨w, half64, 0⟩⟩] }

theorem witness_StepRunsDecodedInstruction :
    (given (.rv rvT) false 0x02030000).input = [⟨false, ⟨0x02030000, half64, 0⟩⟩] ∧
      decodeCommand ⟨0x02030000, half64, 0⟩ = .ok (.rvSetwet 3 half64) := ⟨rfl, rfl⟩

theorem rmSetsr_completes (m : RandomMod) : ∃ t, step (given (.rm m) false 0x61000000) = .next t := ⟨_, rfl⟩
theorem bkClear_completes (k : Block) : ∃ t, step (given (.bk k) false 0x77000000) = .next t := ⟨_, rfl⟩
theorem bkClear_runs (k : Block) : ∃ t, exec .bkClear (st (.bk k)) = .next t := ⟨_, rfl⟩
theorem bkRun_completes (k : Block) (a b : Word) : ∃ t, exec (.bkRun a b) (st (.bk k)) = .next t := ⟨_, rfl⟩
theorem illegal_completes (v : Reverb) : ∃ t, step (given (.rv v) false 0x01010000) = .next t := ⟨_, rfl⟩
theorem setwet_completes (v : Reverb) : ∃ t, step (given (.rv v) false 0x02000000) = .next t := ⟨_, rfl⟩

/-- A legal command and an illegal one; rows with two results, one and none. -/
theorem witness_EveryCommandIsAnswered :
    (given (.rv rvT) false 0x02000000).input = [⟨false, ⟨0x02000000, half64, 0⟩⟩] ∧
    (∃ t, step (given (.rv rvT) false 0x02000000) = .next t) ∧
    (given (.rv rvT) false 0x01010000).input = [⟨false, ⟨0x01010000, half64, 0⟩⟩] ∧
    (∃ t, step (given (.rv rvT) false 0x01010000) = .next t) ∧
    (∃ t, exec (.rvRun one64 half64) (st (.rv rvT)) = .next t) ∧
    (Instr.dlRun one64).opcode.results ≤ 1 ∧ (∃ t, exec (.dlRun one64) (st (.dl dl1)) = .next t) ∧
    Instr.bkClear.opcode.results = 0 ∧ ∃ t, exec .bkClear (st (.bk (.early blockT1))) = .next t :=
  ⟨rfl, setwet_completes _, rfl, illegal_completes _, rvRun_completes _ _ _, by decide, dlRun_completes _ _, rfl,
    bkClear_runs _⟩

/-- A word that no row selects, and a word of another class. -/
theorem witness_IllegalCommandHasNoEffect :
    (given (.rv rvT) false 0x01010000).input = [⟨false, ⟨0x01010000, half64, 0⟩⟩] ∧
    (∀ r ∈ opcodeRows, r.selects 0x01010000 = false) ∧
    (given (.rv rvT) false 0x10000000).input = [⟨false, ⟨0x10000000, half64, 0⟩⟩] ∧
    (∃ r ∈ opcodeRows, r.selects 0x10000000 = true ∧ r.opcode.cls ≠ .rv) ∧
    (Instr.dlRun one64).cls ≠ (st (.rv rvT)).device.cls :=
  ⟨rfl, by decide +kernel, rfl, by decide +kernel, by decide⟩

/-- A device, a lone leaf and a lone block, each with a command beside `rst`. -/
theorem witness_ResetWinsOverCommand :
    (given (.rv rvT) true 0x02000000).input = [⟨true, ⟨0x02000000, half64, 0⟩⟩] ∧
    (given (.lfo lf1) true 0x50000000).input = [⟨true, ⟨0x50000000, half64, 0⟩⟩] ∧
    (given (.bk (.rmAllpass blockT4)) true 0x77000000).input = [⟨true, ⟨0x77000000, half64, 0⟩⟩] :=
  ⟨rfl, rfl, rfl⟩

theorem witness_IdleHoldsState : (st (.rv rvT)).input = [] := rfl

theorem witness_DecodeOfEncode : (Instr.rvSetwet 255 half64).wellFormed = true := by decide

/-- A word that a row selects, which decodes, and one that none selects. -/
theorem witness_DecodeExactlyWhereOneRowSelects :
    (∃ r ∈ opcodeRows, r.selects 0x0A000000 = true) ∧ (∃ i, decodeCommand ⟨0x0A000000, 0, 0⟩ = .ok i) ∧
      ¬ ∃ r ∈ opcodeRows, r.selects 0x0B000000 = true := ⟨by decide +kernel, ⟨_, rfl⟩, by decide +kernel⟩

theorem lfoRun_completes (l : Lfo) : ∃ t, step (given (.lfo l) false 0x50000000) = .next t := ⟨_, rfl⟩

/-- An `RM`, and an `LFO` at the largest phase below `1.0`. -/
theorem witness_StepKeepsInvariant :
    (given (.rm rm1) false 0x61000000).Inv ∧ (∃ t, step (given (.rm rm1) false 0x61000000) = .next t) ∧
    let l := { lf1 with phase := f 0x3FEFFFFFFFFFFFFF }
    (given (.lfo l) false 0x50000000).Inv ∧ ∃ t, step (given (.lfo l) false 0x50000000) = .next t :=
  ⟨rm1_inv, rmSetsr_completes _,
    ⟨by unfold rateLegal; decide +kernel, by decide +kernel, by decide +kernel, by decide +kernel⟩,
    lfoRun_completes _⟩

theorem witness_DeviceIdentityIsFixed :
    (∃ t, step (given (.bk (.lfoAllpass blockT3)) false 0x77000000) = .next t) ∧
      (given (.bk (.lfoAllpass blockT3)) false 0x77000000).device = .bk (.lfoAllpass blockT3) ∧
      ∃ t, exec (.bkRun one64 half64) (st (.bk (.lfoAllpass blockT3))) = .next t :=
  ⟨bkClear_completes _, rfl, bkRun_completes _ _ _⟩

/-- A NaN meets both hypotheses, an infinity the first alone; every class; the indices 1 and 4. -/
theorem witness_SetterRefusesNonFinite :
    (F.ofBits nan64).isFinite = false ∧ (F.ofBits nan64).isNan = true ∧ (F.ofBits inf64).isFinite = false ∧
      (F.ofBits inf64).isNan = false ∧ (st (.rv rvT)).device = .rv rvT ∧ (st (.dl dl1)).device = .dl dl1 ∧
      (st (.cf cfQ)).device = .cf cfQ ∧ (st (.ap apQ)).device = .ap apQ ∧ (st (.bq bq1)).device = .bq bq1 ∧
      (st (.lfo lf1)).device = .lfo lf1 ∧ (st (.rm rm1)).device = .rm rm1 ∧
      (st (.bk (.early combQ))).device = .bk (.early combQ) :=
  ⟨rfl, rfl, rfl, rfl, rfl, rfl, rfl, rfl, rfl, rfl, rfl, rfl⟩

/-- A line whose number of samples overflows at every large rate. -/
def vast : DelayLine := { quiet with sampleRate := F.ofBits big64, maxTime := F.ofBits big64 }
def cfVast : CombFilter := { cfQ with ff := vast }
def apVast : AllpassFilter := { apQ with fb := vast }
def combVast : CombBlock := { combQ with comb := ⟨⟨cfVast, cfQ⟩, ⟨cfQ, cfQ⟩⟩ }

theorem vast_samples : (samplesOf (F.ofBits big64) (F.ofBits big64)).isFinite = false := by decide +kernel

theorem vast_misfit : fitsMemory (F.ofBits big64) (F.ofBits big64) = false := by
  simp [fitsMemory, capacityFits, vast_samples]

theorem vast_fitsAt : vast.fitsAt (F.ofBits big64) = false := by
  have h : clampRate (F.ofBits big64) = F.ofBits big64 := by decide +kernel
  rw [DelayLine.fitsAt, h]; exact vast_misfit

theorem combVast_fitsAt : combVast.fitsAt (F.ofBits big64) = false := by
  simp [CombBlock.fitsAt, combVast, Stereo.all, Pair.all, CombFilter.fitsAt, cfVast, vast_fitsAt]

theorem witness_OversizedMemoryRefused :
    (F.ofBits big64).isFinite = true ∧
    { rvQ with block1 := combVast }.fitsAt (F.ofBits big64) = false ∧ vast.fitsAt (F.ofBits big64) = false ∧
    fitsMemory (clampMax (F.ofBits big64)) vast.sampleRate = false ∧ cfVast.fitsAt (F.ofBits big64) = false ∧
    apVast.fitsAt (F.ofBits big64) = false ∧ Block.fitsAt (.early combVast) (F.ofBits big64) = false := by
  have h : clampMax (F.ofBits big64) = F.ofBits big64 := by decide +kernel
  refine ⟨rfl, ?_, vast_fitsAt, by rw [h]; exact vast_misfit, ?_, ?_, combVast_fitsAt⟩
  · simp [Reverb.fitsAt, combVast_fitsAt]
  · simp [CombFilter.fitsAt, cfVast, vast_fitsAt]
  · simp [AllpassFilter.fitsAt, apVast, vast_fitsAt]

/-- A state whose next command has the operand `a`. -/
def givenA (d : Device) (w : CmdWord) (a : Word) : State := { st d with input := [⟨false, ⟨w, a, 0⟩⟩] }

/-- A NaN and an infinite operand of a setter, and the infinite cutoff that is inside the domain; a line that does
not fit, and a command inside the domain, for which the next state exists. -/
theorem witness_StepNeverFaults :
    (decodeCommand ⟨0x43000000, nan64, 0⟩ = .ok (.bqSetq nan64) ∧ operandInDomain (.bqSetq nan64) = false ∧
      operandInDomain (.bqSetq inf64) = false ∧ operandInDomain (.bqSetcut inf64) = true ∧
      (givenA (.bq bq1) 0x43000000 nan64).device.cls = .bq) ∧
    (decodeCommand ⟨0x11000000, big64, 0⟩ = .ok (.dlSetsr big64) ∧ operandInDomain (.dlSetsr big64) = true ∧
      memoryInDomain (.dlSetsr big64) (givenA (.dl vast) 0x11000000 big64).device = false) ∧
    (decodeCommand ⟨0x11000000, one64, 0⟩ = .ok (.dlSetsr one64) ∧ operandInDomain (.dlSetsr one64) = true ∧
      memoryInDomain (.dlSetsr one64) (givenA (.dl quiet) 0x11000000 one64).device = true) :=
  ⟨⟨rfl, rfl, rfl, rfl, rfl⟩, ⟨rfl, rfl, vast_fitsAt⟩, ⟨rfl, rfl, quiet_fitsAt⟩⟩

/-! ### The runs that take longest to check: blocks and the reverberator -/

/-- The impulse of section 3.1. -/
def impulse : Instr := .bkRun 0x3FF0000000000000 0x3FF0000000000000

/-- Section 3.1, run 0 of the four blocks. -/
theorem test_bk_run :
    results (exec impulse (st (.bk (.early blockT1)))) = some (0x3FC69FBE76C8B439, 0x3FE0F7CED916872B) ∧
    results (exec impulse (st (.bk (.midDense blockT2)))) = some (0x3FC69FBE76C8B439, 0x3FE0F7CED916872B) ∧
    results (exec impulse (st (.bk (.lfoAllpass blockT3)))) = some (0x3FA0000000000000, 0x3FA0000000000000) ∧
    results (exec impulse (st (.bk (.rmAllpass blockT4)))) = some (0x3F80000000000000, 0x3F80000000000000) := by
  decide +kernel

/-- Section 3.2, run 0, input `(1.0, 0.5)`, wets `1.0`, mode 2, which has blocks in series and in parallel. -/
theorem test_rv_run :
    results (exec (.rvRun 0x3FF0000000000000 0x3FE0000000000000) (st (.rv { rvT with mode := .hybrid })))
      = some (0x3EF0F7CED916872B, 0x3F0973B645A1CAC0) := by decide +kernel

end Sys2Proof.Tests
end

section
/-! Proofs for `00_scope.md`: a setter refuses an operand outside the domain of the step (entry U5). -/

set_option Elab.async false

namespace Sys2Proof.Machine

variable {s : State} {a : Word}

/-! ### The refusing side of the preconditions

`Laws/Ops.lean` says when `finiteOperand` and `numberOperand` go on; these say when they refuse. -/

theorem finiteOperand_refused (k : F → Out) (h : (F.ofBits a).isFinite = false) :
    finiteOperand a k = .refused .nonFiniteOperand := by simp [finiteOperand, operandF, h]

theorem numberOperand_refused (k : F → Out) (h : (F.ofBits a).isNan = true) :
    numberOperand a k = .refused .nonFiniteOperand := by simp [numberOperand, operandF, h]

/-! ### Legal block indices -/

theorem blockIdx_legal {idx : Nat} (h1 : 1 ≤ idx) (h4 : idx ≤ 4) : ∃ k, blockIdx idx = some k := by
  interval_cases idx <;> exact ⟨_, rfl⟩

/-- `RV.SETWET` reads its operand exactly because its index names a block (rule R211). -/
theorem exec_rvSetwet_of {v : Reverb} {k : BlockIdx} {idx : Nat} (hv : s.device = .rv v)
    (hk : blockIdx idx = some k) :
    exec (.rvSetwet idx a) s = numberOperand a fun w => s.done (.rv (v.setWet k w)) :=
  (onRv_of _ hv).trans (by simp only [hk])

theorem exec_rvSetwet_refused {v : Reverb} {idx : Nat} (hv : s.device = .rv v) (h1 : 1 ≤ idx)
    (h4 : idx ≤ 4) (ha : (F.ofBits a).isNan = true) :
    exec (.rvSetwet idx a) s = .refused .nonFiniteOperand := by
  obtain ⟨k, hk⟩ := blockIdx_legal h1 h4
  exact (exec_rvSetwet_of hv hk).trans (numberOperand_refused _ ha)

end Sys2Proof.Machine

namespace Sys2Proof.Proofs

open Sys2Proof.Machine

/-- Settles O58: on a device of its class a setter is its precondition on the operand (`onRv_of` and its
seven companions), and the precondition refuses. `RV.SETWET` comes to it only with a legal index. -/
theorem setterRefusesNonFinite : Obligations.SetterRefusesNonFinite := by
  intro s a
  constructor
  · intro ha
    have refuses (k : F → Out) : finiteOperand a k = .refused .nonFiniteOperand := finiteOperand_refused k ha
    refine ⟨fun v hv => ?rv, fun d hd => ?dl, fun c hc => ?cf, fun f hf => ?ap, fun q hq => ?bq,
      fun l hl => ?lfo, fun m hm => ?rm, fun b hb => ?bk⟩
    case rv => exact (onRv_of _ hv).trans (refuses _)
    case dl =>
      exact ⟨(onDl_of _ hd).trans (refuses _), (onDl_of _ hd).trans (refuses _),
        fun _ => (onDl_of _ hd).trans (refuses _)⟩
    case cf => exact ⟨(onCf_of _ hc).trans (refuses _), (onCf_of _ hc).trans (refuses _)⟩
    case ap => exact ⟨(onAp_of _ hf).trans (refuses _), (onAp_of _ hf).trans (refuses _)⟩
    case bq =>
      exact ⟨(onBq_of _ hq).trans (refuses _), (onBq_of _ hq).trans (refuses _),
        (onBq_of _ hq).trans (refuses _)⟩
    case lfo => exact (onLfo_of _ hl).trans (refuses _)
    case rm => exact (onRm_of _ hm).trans (refuses _)
    case bk => exact (onBk_of _ hb).trans (refuses _)
  · intro ha
    refine ⟨fun v hv => ⟨?lpf, fun idx h1 h4 => ?wet⟩, fun q hq => ?cut⟩
    case lpf => exact (onRv_of _ hv).trans (numberOperand_refused _ ha)
    case wet => exact exec_rvSetwet_refused hv h1 h4 ha
    case cut => exact (onBq_of _ hq).trans (numberOperand_refused _ ha)

end Sys2Proof.Proofs
end

section
/-! Laws of the arithmetic that `10_state.md` rests on: whole parts are exact, a fractional part is in
`[0, 1)`, and the number of samples of a delay is monotone in its time (rules R16, R25, R163). -/

set_option Elab.async false

namespace Sys2Proof

/-! ### Whole numbers are magnitudes -/

theorem unitsPerOne_eq : unitsPerOne = 2 ^ 1074 := rfl

theorem two_pow_mul_le {a b k e : Nat} (h : a + k ≤ b + e) : 2 ^ a * 2 ^ k ≤ 2 ^ b * 2 ^ e := by
  rw [← pow_add, ← pow_add]
  exact Nat.pow_le_pow_right Nat.two_pos h

/-- A significand on any grid is the exact value of a magnitude. -/
theorem exists_magUnits {g : Nat} (hg : g ≤ 2 ^ 53) (k : Nat) : ∃ m, magUnits m = g * 2 ^ k := by
  induction k with
  | zero => exact ⟨0 * 2 ^ 52 + g, magUnits_of (.inr rfl) hg⟩
  | succ k ih =>
    obtain ⟨m, hm⟩ := ih
    refine ⟨roundMag (2 * magUnits m) 1, ?_⟩
    rw [magUnits_roundMag_double, hm, pow_succ]
    ring

theorem whole_lt_limit : 2 ^ 53 * 2 ^ 1074 < magUnits magLimit := by decide +kernel

/-- A whole number less than `1.0` away from a finite magnitude is itself a finite magnitude: above `2^52`
every magnitude is whole, and below it every whole number is a significand. -/
theorem exists_magUnits_whole {m q : Nat} (hm : m < magLimit)
    (hlo : magUnits m < q * unitsPerOne + unitsPerOne)
    (hhi : q * unitsPerOne < magUnits m + unitsPerOne) : ∃ n < magLimit, magUnits n = q * unitsPerOne := by
  obtain ⟨f, k, hf, hf53, -⟩ := magUnits_form m
  rcases Nat.lt_or_ge k 1074 with hk | hk
  · have hM : magUnits m < 2 ^ 52 * unitsPerOne := by
      rw [hf, unitsPerOne_eq]
      calc f * 2 ^ k < 2 ^ 53 * 2 ^ k := Nat.mul_lt_mul_of_pos_right hf53 (by positivity)
        _ ≤ 2 ^ 52 * 2 ^ 1074 := two_pow_mul_le (by omega)
    have hq : q ≤ 2 ^ 53 := by
      have : q * unitsPerOne < (2 ^ 52 + 1) * unitsPerOne := by rw [Nat.add_mul]; omega
      have := Nat.lt_of_mul_lt_mul_right this
      omega
    obtain ⟨n, hn⟩ := exists_magUnits hq 1074
    refine ⟨n, ?_, hn⟩
    by_contra hlim
    have h1 := magUnits_mono (not_lt.1 hlim)
    have h2 := Nat.mul_le_mul_right (2 ^ 1074) hq
    have h3 := whole_lt_limit
    rw [hn] at h1
    exact absurd (h1.trans h2) (not_le.2 h3)
  · have hc : magUnits m = f * 2 ^ (k - 1074) * unitsPerOne := by
      rw [hf, unitsPerOne_eq, Nat.mul_assoc, ← pow_add, Nat.sub_add_cancel hk]
    refine ⟨m, hm, ?_⟩
    have h1 : f * 2 ^ (k - 1074) < q + 1 :=
      Nat.lt_of_mul_lt_mul_right (a := unitsPerOne) (by rw [← hc, Nat.succ_mul]; exact hlo)
    have h2 : q < f * 2 ^ (k - 1074) + 1 :=
      Nat.lt_of_mul_lt_mul_right (a := unitsPerOne) (by rw [Nat.succ_mul, ← hc]; exact hhi)
    rw [hc, show q = f * 2 ^ (k - 1074) by omega]

/-- The part of a magnitude below `1.0` is at most the largest value below `1.0`. -/
theorem magUnits_mod_one_le (m : Nat) : magUnits m % unitsPerOne ≤ magUnits 0x3FEFFFFFFFFFFFFF := by
  have htop : magUnits 0x3FEFFFFFFFFFFFFF = (2 ^ 53 - 1) * 2 ^ 1021 := by decide +kernel
  obtain ⟨f, k, hf, hf53, -⟩ := magUnits_form m
  rw [htop]
  rcases Nat.lt_or_ge k 1021 with hk | hk
  · calc magUnits m % unitsPerOne ≤ f * 2 ^ k := hf ▸ Nat.mod_le _ _
      _ ≤ 2 ^ 53 * 2 ^ k := Nat.mul_le_mul_right _ hf53.le
      _ ≤ 2 ^ 52 * 2 ^ 1021 := two_pow_mul_le (by omega)
      _ ≤ (2 ^ 53 - 1) * 2 ^ 1021 := Nat.mul_le_mul_right _ (by norm_num)
  · have hM : magUnits m = f * 2 ^ (k - 1021) * 2 ^ 1021 := by
      rw [hf, Nat.mul_assoc, ← pow_add, Nat.sub_add_cancel hk]
    rw [hM, unitsPerOne_eq, show (2 : Nat) ^ 1074 = 2 ^ 53 * 2 ^ 1021 by rw [← pow_add],
      Nat.mul_mod_mul_right]
    exact Nat.mul_le_mul_right _ (Nat.le_sub_one_of_lt (Nat.mod_lt _ (by norm_num)))

/-! ### Signs and rounding -/

theorem F.zero_number : F.zero.isNan = false := by decide
theorem F.zero_lt_one : F.zero.lt F.one = true := by decide

/-- A finite value that is not negative is a magnitude with a plus sign, or a zero. -/
theorem finiteNonneg_fin {s : Bool} {m : Fin magLimit} :
    finiteNonneg (.fin s m) = true ↔ (s = true → m.val = 0) := by
  cases s <;> simp [finiteNonneg, F.isFinite, F.le, F.zero_key] <;> simp [F.key]

theorem finiteNonneg_cases {x : F} (h : finiteNonneg x = true) :
    ∃ s m, x = .fin s m ∧ (s = true → m.val = 0) := by
  cases x with
  | fin s m => exact ⟨s, m, rfl, finiteNonneg_fin.1 h⟩
  | nan => simp [finiteNonneg, F.isFinite] at h
  | inf s => simp [finiteNonneg, F.isFinite] at h

/-- Between values that are not negative the order is that of the magnitudes. -/
theorem F.fin_le_fin {s t : Bool} {m n : Fin magLimit} (hs : s = true → m.val = 0)
    (ht : t = true → n.val = 0) : (F.fin s m).le (.fin t n) = true ↔ m.val ≤ n.val := by
  cases s <;> cases t <;> simp_all [F.le, F.key]

/-- Rounding what has a minus sign only when it is zero gives no negative value. -/
theorem F.zero_le_roundUnits {s : Bool} {n d : Nat} (hd : 0 < d) (h : s = true → n = 0) :
    F.zero.le (F.roundUnits s n d) = true := by
  cases s with
  | false => exact F.roundUnits_nonneg n d
  | true => rw [h rfl, F.roundUnits_zero _ _ hd]; decide

/-- Rounding is monotone: what is below a finite rounded value rounds to a finite value below it. -/
theorem F.roundUnits_mono {s t : Bool} {n d n' d' : Nat} (hd : 0 < d) (hd' : 0 < d')
    (hs : s = true → n = 0) (ht : t = true → n' = 0) (h : n * d' ≤ n' * d)
    (hfin : (F.roundUnits t n' d').isFinite = true) :
    finiteNonneg (F.roundUnits s n d) = true ∧ finiteNonneg (F.roundUnits t n' d') = true ∧
      (F.roundUnits s n d).le (F.roundUnits t n' d') = true := by
  obtain ⟨hb', e'⟩ := F.roundUnits_finite hfin
  have hle := roundMag_mono hd hd' h
  have hb : roundMag n d < magLimit := hle.trans_lt hb'
  have e : F.roundUnits s n d = .fin s ⟨roundMag n d, hb⟩ := by simp [F.roundUnits, hb]
  have zero {k c : Nat} (hc : 0 < c) (hk : k = 0) : roundMag k c = 0 := by
    simpa [hk] using roundMag_exact 0 c hc
  have hs' := fun hS => zero hd (hs hS)
  have ht' := fun hT => zero hd' (ht hT)
  rw [e, e']
  exact ⟨finiteNonneg_fin.2 hs', finiteNonneg_fin.2 ht', (F.fin_le_fin hs' ht').2 hle⟩

/-- What is at most the value of a magnitude below that of `1.0` rounds to a value below `1.0`. -/
theorem F.roundUnits_lt_one (s : Bool) {n b : Nat} (h : n ≤ magUnits b) (hone : b < 0x3FF0000000000000) :
    (F.roundUnits s n 1).lt F.one = true := by
  have hle : roundMag n 1 ≤ b := by
    have := roundMag_mono (n := n) (d := 1) (n' := magUnits b * 1) (d' := 1) Nat.one_pos Nat.one_pos
      (by simpa using h)
    rwa [roundMag_exact b 1 Nat.one_pos] at this
  have hb : roundMag n 1 < magLimit := hle.trans_lt (hone.trans (by decide))
  have e : F.roundUnits s n 1 = .fin s ⟨roundMag n 1, hb⟩ := by simp [F.roundUnits, hb]
  rw [e, F.one_eq, F.lt_iff]
  refine ⟨_, _, rfl, rfl, ?_⟩
  cases s <;> simp only [if_true, Bool.false_eq_true, if_false] <;> omega

/-- A difference of finite values is the exact difference, rounded; a minus sign stands only before a
difference that is not positive. -/
theorem F.sub_finite {a b : F} (ha : a.isFinite = true) (hb : b.isFinite = true) :
    ∃ s, a.sub b = F.roundUnits s (a.units - b.units).natAbs 1 ∧ (s = true → a.units ≤ b.units) := by
  cases a with
  | nan => simp [F.isFinite] at ha
  | inf s => simp [F.isFinite] at ha
  | fin s m =>
    cases b with
    | nan => simp [F.isFinite] at hb
    | inf t => simp [F.isFinite] at hb
    | fin t n =>
      have hneg : (F.fin (!t) n).units = -(F.fin t n).units := by cases t <;> simp [F.units]
      simp only [F.sub, F.neg, F.add, hneg]
      split_ifs with hz
      · exact ⟨s && !t, by rw [← sub_eq_add_neg] at hz; simp [hz], fun _ => by omega⟩
      · exact ⟨_, by rw [← sub_eq_add_neg], fun h => by have := of_decide_eq_true h; omega⟩

/-! ### Floor and ceil (rule R16) -/

theorem F.floor_of_finite {x : F} (h : x.isFinite = true) : x.floor = x.units / (unitsPerOne : Int) :=
  if_pos h

theorem F.ceil_of_finite {x : F} (h : x.isFinite = true) : x.ceil = -((-x.units) / (unitsPerOne : Int)) := by
  exact if_pos h

/-- A finite value is at least its floor and less than one above it, in units. -/
theorem F.floor_bounds {x : F} (h : x.isFinite = true) :
    x.floor * unitsPerOne ≤ x.units ∧ x.units < x.floor * unitsPerOne + unitsPerOne := by
  have hU : (0 : Int) < unitsPerOne := by exact_mod_cast unitsPerOne_pos
  rw [F.floor_of_finite h]
  exact ⟨Int.ediv_mul_le _ hU.ne', by have := Int.lt_ediv_add_one_mul_self x.units hU; linarith⟩

/-- The exact value of a value that is not negative. -/
theorem F.units_of_nonneg {s : Bool} {m : Fin magLimit} (hs : s = true → m.val = 0) :
    (F.fin s m).units = magUnits m.val := by
  cases s <;> simp_all [F.units]

/-- The order of finite values is that of their exact values. -/
theorem F.units_le_units {a b : F} (ha : finiteNonneg a = true) (hb : finiteNonneg b = true)
    (h : a.le b = true) : a.units ≤ b.units := by
  obtain ⟨s, m, rfl, hs⟩ := finiteNonneg_cases ha
  obtain ⟨t, n, rfl, ht⟩ := finiteNonneg_cases hb
  rw [F.units_of_nonneg hs, F.units_of_nonneg ht]
  exact_mod_cast magUnits_mono ((F.fin_le_fin hs ht).1 h)

theorem F.ceil_mono {a b : F} (ha : finiteNonneg a = true) (hb : finiteNonneg b = true)
    (h : a.le b = true) : a.ceil ≤ b.ceil := by
  have hU : (0 : Int) < unitsPerOne := by exact_mod_cast unitsPerOne_pos
  have hu := F.units_le_units ha hb h
  rw [F.ceil_of_finite (Machine.finiteNonneg_iff ha).2, F.ceil_of_finite (Machine.finiteNonneg_iff hb).2]
  exact neg_le_neg (Int.ediv_le_ediv hU (neg_le_neg hu))

theorem F.floor_le_ceil {x : F} (h : x.isFinite = true) : x.floor ≤ x.ceil := by
  have hU : (0 : Int) < unitsPerOne := by exact_mod_cast unitsPerOne_pos
  have h1 := Int.ediv_mul_le x.units hU.ne'
  have h2 := Int.ediv_mul_le (-x.units) hU.ne'
  rw [F.floor_of_finite h, F.ceil_of_finite h]
  generalize (unitsPerOne : Int) = U at *
  nlinarith

theorem F.floor_nonneg {x : F} (h : finiteNonneg x = true) : 0 ≤ x.floor := by
  obtain ⟨hz, hf⟩ := Machine.finiteNonneg_iff h
  rw [F.floor_of_finite hf]
  exact Int.ediv_nonneg (F.units_nonneg hz hf) (Int.natCast_nonneg _)

/-- The floor of a finite value is less than `1.0` away from it, in magnitude. -/
theorem F.natAbs_floor_near (s : Bool) (m : Fin magLimit) :
    magUnits m.val < (F.fin s m).floor.natAbs * unitsPerOne + unitsPerOne ∧
      (F.fin s m).floor.natAbs * unitsPerOne < magUnits m.val + unitsPerOne := by
  obtain ⟨hlo, hhi⟩ := F.floor_bounds (x := .fin s m) rfl
  generalize (F.fin s m).floor = p at *
  have hU := unitsPerOne_pos
  generalize unitsPerOne = U at *
  cases s <;> simp only [F.units, if_true, Bool.false_eq_true, if_false] at hlo hhi
  · have hp : 0 ≤ p := by nlinarith
    lift p to Nat using hp
    rw [Int.natAbs_natCast]
    exact ⟨by exact_mod_cast hhi, by norm_cast at hlo; omega⟩
  · have hp : p ≤ 0 := by nlinarith
    obtain ⟨k, rfl⟩ := Int.exists_eq_neg_ofNat hp
    rw [Int.natAbs_neg, Int.natAbs_natCast]
    constructor <;> zify <;> linarith

/-- An integer that is the value of a magnitude is exact as an `F` (rule R16). -/
theorem F.ofInt_exact {p : Int} {n : Nat} (hn : n < magLimit) (h : magUnits n = p.natAbs * unitsPerOne) :
    F.ofInt p = .fin (decide (p < 0)) ⟨n, hn⟩ ∧ (F.ofInt p).units = p * unitsPerOne := by
  have e : F.ofInt p = .fin (decide (p < 0)) ⟨n, hn⟩ := by
    unfold F.ofInt
    rw [← h, ← Nat.mul_one (magUnits n)]
    exact F.roundUnits_exact _ n 1 hn Nat.one_pos
  refine ⟨e, ?_⟩
  rw [e]
  rcases lt_or_ge p 0 with hp | hp
  · simp only [F.units, hp, decide_true, if_true, h, Nat.cast_mul, Int.ofNat_natAbs_of_nonpos hp.le]
    ring
  · simp only [F.units, hp.not_gt, decide_false, Bool.false_eq_true, if_false, h, Nat.cast_mul,
      Int.natAbs_of_nonneg hp]

/-- The floor of a finite value, as an `F`, is exact. -/
theorem F.ofInt_floor {x : F} (h : x.isFinite = true) :
    (F.ofInt x.floor).isFinite = true ∧ (F.ofInt x.floor).units = x.floor * unitsPerOne := by
  cases x with
  | nan => simp [F.isFinite] at h
  | inf s => simp [F.isFinite] at h
  | fin s m =>
    obtain ⟨hlo, hhi⟩ := F.natAbs_floor_near s m
    obtain ⟨n, hn, hnu⟩ := exists_magUnits_whole m.isLt hlo hhi
    obtain ⟨e, hu⟩ := F.ofInt_exact hn hnu
    exact ⟨by rw [e]; rfl, hu⟩

/-! ### Fractional parts (rules R25, R163) -/

/-- A finite value less its floor is not negative. -/
theorem F.zero_le_sub_floor {x : F} (h : x.isFinite = true) : F.zero.le (x.sub (F.ofInt x.floor)) = true := by
  obtain ⟨hf, hu⟩ := F.ofInt_floor h
  obtain ⟨s, e, hs⟩ := F.sub_finite h hf
  rw [hu] at e hs
  rw [e]
  refine F.zero_le_roundUnits Nat.one_pos fun hS => ?_
  have hle := (F.floor_bounds h).1
  have := hs hS
  omega

/-- Of a value that is not negative the fractional part is below `1.0`. A small negative value has one that
rounds to `1.0`, which is why `wrap` tests for it (rule R163). -/
theorem F.sub_floor_lt_one {x : F} (h : finiteNonneg x = true) :
    (x.sub (F.ofInt x.floor)).lt F.one = true := by
  have hf := (Machine.finiteNonneg_iff h).2
  obtain ⟨hof, hu⟩ := F.ofInt_floor hf
  obtain ⟨s, e, -⟩ := F.sub_finite hf hof
  obtain ⟨t, m, rfl, ht⟩ := finiteNonneg_cases h
  have hz : ((F.fin t m).units - (F.ofInt (F.fin t m).floor).units).natAbs =
      magUnits m.val % unitsPerOne := by
    rw [hu, F.floor_of_finite hf, F.units_of_nonneg ht, mul_comm, ← Int.emod_def]
    norm_cast
  rw [e, hz]
  exact F.roundUnits_lt_one s (magUnits_mod_one_le _) (by norm_num)

end Sys2Proof

namespace Sys2Proof.Machine

/-- `wrap` takes every finite phase into `[0, 1)` (rule R163). -/
theorem wrapPhase_unit {p : F} (h : p.isFinite = true) :
    F.zero.le (wrapPhase p) = true ∧ (wrapPhase p).lt F.one = true := by
  have h0 := F.zero_le_sub_floor h
  unfold wrapPhase
  simp only
  split_ifs with h1
  · exact ⟨by decide, by decide⟩
  · refine ⟨h0, ?_⟩
    obtain ⟨-, hn⟩ := F.number_of_le h0
    by_contra hlt
    exact h1 (F.le_of_not_lt hn F.one_number (Bool.eq_false_iff.2 hlt))

end Sys2Proof.Machine

namespace Sys2Proof

/-! ### Samples of a delay (rule R25) -/

/-- A product with a positive value is monotone, and finite below a finite product. -/
theorem F.mul_mono {a b : F} {n : Fin magLimit} (ha : finiteNonneg a = true) (hb : finiteNonneg b = true)
    (h : a.le b = true) (hfin : (b.mul (.fin false n)).isFinite = true) :
    finiteNonneg (a.mul (.fin false n)) = true ∧ finiteNonneg (b.mul (.fin false n)) = true ∧
      (a.mul (.fin false n)).le (b.mul (.fin false n)) = true := by
  obtain ⟨s, k, rfl, hs⟩ := finiteNonneg_cases ha
  obtain ⟨t, l, rfl, ht⟩ := finiteNonneg_cases hb
  have hu := magUnits_mono ((F.fin_le_fin hs ht).1 h)
  simp only [F.mul, Bool.bne_false] at *
  exact F.roundUnits_mono unitsPerOne_pos unitsPerOne_pos (fun hS => by simp [hs hS])
    (fun hT => by simp [ht hT]) (Nat.mul_le_mul_right _ (Nat.mul_le_mul_right _ hu)) hfin

/-- A quotient by a positive value is monotone, and finite below a finite quotient. -/
theorem F.div_mono {a b : F} {n : Fin magLimit} (hn : n.val ≠ 0) (ha : finiteNonneg a = true)
    (hb : finiteNonneg b = true) (h : a.le b = true) (hfin : (b.div (.fin false n)).isFinite = true) :
    finiteNonneg (a.div (.fin false n)) = true ∧ finiteNonneg (b.div (.fin false n)) = true ∧
      (a.div (.fin false n)).le (b.div (.fin false n)) = true := by
  obtain ⟨s, k, rfl, hs⟩ := finiteNonneg_cases ha
  obtain ⟨t, l, rfl, ht⟩ := finiteNonneg_cases hb
  have hu := magUnits_mono ((F.fin_le_fin hs ht).1 h)
  have hd : 0 < magUnits n.val := Nat.pos_of_ne_zero fun h0 => hn (magUnits_eq_zero.1 h0)
  simp only [F.div_fin _ _ _ _ hn, Bool.bne_false] at *
  exact F.roundUnits_mono hd hd (fun hS => by simp [hs hS])
    (fun hT => by simp [ht hT]) (Nat.mul_le_mul_right _ (Nat.mul_le_mul_right _ hu)) hfin

/-- A quotient by a finite value is finite only when the dividend is. -/
theorem F.finite_of_div {x : F} {n : Fin magLimit} (h : (x.div (.fin false n)).isFinite = true) :
    x.isFinite = true := by
  cases x <;> simp_all [F.div, F.isFinite]

end Sys2Proof

namespace Sys2Proof.Machine

/-- A shorter delay is fewer samples, and a finite number of them, although both operations round. -/
theorem samplesOf_mono {a b r : F} (hr : rateLegal r) (ha : finiteNonneg a = true)
    (hb : finiteNonneg b = true) (h : a.le b = true) (hfin : (samplesOf b r).isFinite = true) :
    finiteNonneg (samplesOf a r) = true ∧ finiteNonneg (samplesOf b r) = true ∧
      (samplesOf a r).le (samplesOf b r) = true := by
  obtain ⟨n, rfl, -⟩ := rateLegal_fin hr
  unfold samplesOf at *
  rw [F.thousand_eq] at *
  obtain ⟨hma, hmb, hm⟩ := F.mul_mono ha hb h (F.finite_of_div hfin)
  exact F.div_mono (by norm_num) hma hmb hm hfin

end Sys2Proof.Machine
end

section
/-! Proofs for `10_state.md`: the delay line (rules R24 to R26) and the construction of every unit
(rules R27, R28, R30, R32, R33). -/

set_option Elab.async false

namespace Sys2Proof

/-! ### Words and values (rule R18) -/

/-- The two fields of a word laid out from a sign and a magnitude. -/
theorem signMag_fields (s : Bool) {m : Nat} (hm : m < 2 ^ 63) :
    (BitVec.ofNat 64 (s.toNat * 2 ^ 63 + m)).toNat % 2 ^ 63 = m ∧
      (BitVec.ofNat 64 (s.toNat * 2 ^ 63 + m)).msb = s := by
  rw [BitVec.msb_eq_decide, BitVec.toNat_ofNat]
  cases s <;> simp <;> omega

theorem F.ofBits_fin {w : Word} {s : Bool} {m : Fin magLimit} (hm : w.toNat % 2 ^ 63 = m.val)
    (hs : w.msb = s) : F.ofBits w = .fin s m := by
  subst hs
  exact (dif_pos (hm ▸ m.isLt)).trans (congrArg _ (Fin.ext hm))

theorem F.ofBits_inf {w : Word} {s : Bool} (hm : w.toNat % 2 ^ 63 = magLimit) (hs : w.msb = s) :
    F.ofBits w = .inf s := by
  subst hs
  exact (dif_neg (by rw [hm]; exact lt_irrefl _)).trans (if_pos hm)

theorem F.ofBits_nan {w : Word} (h : isNanPattern w = true) : F.ofBits w = .nan := by
  have hm : magLimit < w.toNat % 2 ^ 63 := of_decide_eq_true h
  exact (dif_neg hm.not_gt).trans (if_neg hm.ne')

/-- A value on a port reads back as itself, where the pattern for a NaN is a NaN's (rule R18, entry U6). -/
theorem F.ofBits_toBitsOr {q : Word} (hq : isNanPattern q = true) (x : F) : F.ofBits (x.toBitsOr q) = x := by
  cases x with
  | nan => exact F.ofBits_nan hq
  | inf s =>
    obtain ⟨hm, hs⟩ := signMag_fields s (m := magLimit) (by norm_num)
    exact F.ofBits_inf hm hs
  | fin s m =>
    obtain ⟨hm, hs⟩ := signMag_fields s (m.isLt.trans (by norm_num))
    exact F.ofBits_fin hm hs

/-! ### Clamped integers (rule R147) -/

/-- The code of the type an integer is clamped to. -/
theorem BiquadType.code_ofInt (t : Int) :
    ((BiquadType.ofInt t).code : Int) = if t < 0 then 0 else if t > 7 then 7 else t := by
  unfold BiquadType.ofInt
  split_ifs <;> simp only [BiquadType.code] <;> omega

end Sys2Proof

namespace Sys2Proof.Machine

/-- A result word carries its value (rule R18). -/
@[simp] theorem ofBits_resultF (n port : Nat) (x : F) : F.ofBits (resultF n port x) = x :=
  F.ofBits_toBitsOr (nanWord_isNan n port) x

/-- What `DL.RUN` answers on a delay line (rule R101). -/
theorem exec_dlRun {s : State} {d : DelayLine} (hd : s.device = .dl d) (a : Word) :
    exec (.dlRun a) s = s.gives (.dl (d.run (F.ofBits a)).1) (d.run (F.ofBits a)).2 :=
  onDl_of _ hd

/-! ### The time of a good line (rule R25) -/

namespace DelayLine.Inv

variable {d : DelayLine}

theorem samples_max_finite (h : d.Inv) : (samplesOf d.maxTime d.sampleRate).isFinite = true := by
  have := h.fits
  simp only [fitsMemory, capacityFits, Bool.and_eq_true] at this
  exact this.1

/-- A finite time of a good line is in `[0, max_time]`. -/
theorem time_range (h : d.Inv) (ht : d.time.isFinite = true) :
    finiteNonneg d.time = true ∧ d.time.le d.maxTime = true := by
  have hn := F.number_of_finite ht
  have hlow : F.zero.le d.time = true := F.le_of_not_lt hn F.zero_number h.time_low
  exact ⟨by simp [finiteNonneg, ht, hlow],
    F.le_of_not_lt (F.number_of_finite (finiteNonneg_iff h.maxTime).2) hn h.time_high⟩

/-- The delay in samples of a good line is between zero and that of its `max_time`, rounding included. -/
theorem samples_range (h : d.Inv) (ht : d.time.isFinite = true) :
    finiteNonneg (samplesOf d.time d.sampleRate) = true ∧
      finiteNonneg (samplesOf d.maxTime d.sampleRate) = true ∧
      (samplesOf d.time d.sampleRate).le (samplesOf d.maxTime d.sampleRate) = true := by
  obtain ⟨hn, hle⟩ := h.time_range ht
  exact samplesOf_mono h.rate hn h.maxTime hle h.samples_max_finite

theorem lagFloor_le_lagCeil (h : d.Inv) (ht : d.time.isFinite = true) : d.lagFloor ≤ d.lagCeil := by
  rw [h.lagFloor_eq, h.lagCeil_eq]
  exact Int.toNat_le_toNat (F.floor_le_ceil (finiteNonneg_iff (h.samples_range ht).1).2)

/-- The longest lag of a good line leaves one word of its memory (rule R25). -/
theorem lagCeil_lt_capacity (h : d.Inv) (ht : d.time.isFinite = true) : d.lagCeil < d.capacity := by
  obtain ⟨hds, hdm, hle⟩ := h.samples_range ht
  have hceil := F.ceil_mono hds hdm hle
  have hpos := (F.floor_nonneg hds).trans (F.floor_le_ceil (finiteNonneg_iff hds).2)
  rw [h.lagCeil_eq, h.capacity_eq, capacityOf]
  omega

theorem frac_unit (h : d.Inv) (ht : d.time.isFinite = true) :
    F.zero.le d.frac = true ∧ d.frac.lt F.one = true := by
  have hds := (h.samples_range ht).1
  rw [h.frac_eq]
  exact ⟨F.zero_le_sub_floor (finiteNonneg_iff hds).2, F.sub_floor_lt_one hds⟩

end DelayLine.Inv

end Sys2Proof.Machine

namespace Sys2Proof.Proofs

open Sys2Proof.Machine

/-- Settles O9: the number of samples is monotone in the time through both roundings (`samplesOf_mono`), and
a fractional part is below `1.0` (`F.sub_floor_lt_one`). -/
theorem dlLagsBelowCapacity : Obligations.DlLagsBelowCapacity := by
  intro d h ht
  have hlt := h.lagCeil_lt_capacity ht
  obtain ⟨hf0, hf1⟩ := h.frac_unit ht
  exact ⟨h.lagFloor_le_lagCeil ht, Nat.le_sub_one_of_lt hlt, Nat.mod_eq_of_lt hlt, hf0, hf1⟩

/-- Settles O2: the run writes one word (`run_buffer`), which reads back because the memory is in canonical
form (`Memory.read_write_self`). -/
theorem dlRunChangesOneWord : Obligations.DlRunChangesOneWord := by
  intro s t d a hd hInv h
  rw [exec_dlRun hd] at h
  obtain rfl := gives_next h
  refine ⟨(d.run (F.ofBits a)).1, resultF s.free 0 d.output, rfl, rfl, rfl, fun i hi => ?_, ?_,
    rfl, rfl, rfl, rfl, rfl, rfl, rfl, rfl⟩
  · rw [run_buffer, Memory.read_write_other _ hi]
  · rw [run_buffer, Memory.read_write_self hInv.buffer_wf, ofBits_resultF]

/-- Settles O7: `mkDelayLine` sets the controls and leaves the lags and read positions to `relag`, over a
memory of zeros at write position 0. -/
theorem dlConstructionValues : Obligations.DlConstructionValues := by
  intro sr0 max0 time0 fb0
  exact ⟨rfl, rfl, rfl, rfl, rfl, fun i => Memory.read_cleared i, rfl, rfl, rfl, rfl, rfl, rfl⟩

/-- Settles O8: a biquad's type is its clamped integer (`BiquadType.code_ofInt`), and a finite period is the
ceiling of the quotient; the other fields are stored as given. -/
theorem unitConstructionValues : Obligations.UnitConstructionValues := by
  intro sr0
  refine ⟨fun _ => rfl, fun _ => rfl, fun type0 _ _ _ => ?biquad, fun _ => rfl, fun f hf => ?random⟩
  case biquad => exact ⟨BiquadType.ofInt type0, BiquadType.code_ofInt type0, rfl⟩
  case random =>
    have hp : periodOf (clampRate sr0) f = ((clampRate sr0).div f).ceil.toNat := if_pos hf
    simp only [mkRandomMod, hp]
    rfl

end Sys2Proof.Proofs
end

section
/-! Proofs for `10_state.md`: everything a step can do to the device, said once; class and kind are fixed
(rules R35, R84). -/

set_option Elab.async false

namespace Sys2Proof.Machine

/-! ### What an instruction does to the device -/

/-- Everything an instruction that completes can do to a device: nothing, or one operation of one unit, whose
operand has passed the preconditions of the command (entries U1, U5). -/
inductive DeviceStep : Device → Device → Prop
  | same (d : Device) : DeviceStep d d
  | rvRun (v : Reverb) (n : Nat) (x : Stereo F) : DeviceStep (.rv v) (.rv (v.run n x).1)
  | rvRate (v : Reverb) {sr : F} (hf : sr.isFinite = true) (fits : v.fitsAt sr = true) :
      DeviceStep (.rv v) (.rv (v.setRate sr))
  | rvWet (v : Reverb) (k : BlockIdx) {w : F} (hw : w.isNan = false) : DeviceStep (.rv v) (.rv (v.setWet k w))
  | rvLowpass (v : Reverb) {x : F} (hx : x.isNan = false) : DeviceStep (.rv v) (.rv (v.setLowpass x))
  | rvMode (v : Reverb) (t : Int) : DeviceStep (.rv v) (.rv (v.setMode t))
  | rvClear (v : Reverb) : DeviceStep (.rv v) (.rv v.clear)
  | dlRun (d : DelayLine) (x : F) : DeviceStep (.dl d) (.dl (d.run x).1)
  | dlRate (d : DelayLine) {sr : F} (hf : sr.isFinite = true) (fits : d.fitsAt sr = true) :
      DeviceStep (.dl d) (.dl (d.setRate sr))
  | dlTime (d : DelayLine) (t : F) : DeviceStep (.dl d) (.dl (d.setTime t))
  | dlMax (d : DelayLine) (c : Bool) {m : F} (hf : m.isFinite = true)
      (fits : fitsMemory (clampMax m) d.sampleRate = true) : DeviceStep (.dl d) (.dl (d.setMax c m))
  | dlClear (d : DelayLine) : DeviceStep (.dl d) (.dl d.clear)
  | cfRun (c : CombFilter) (x : F) : DeviceStep (.cf c) (.cf (c.run x).1)
  | cfRate (c : CombFilter) {sr : F} (hf : sr.isFinite = true) (fits : c.fitsAt sr = true) :
      DeviceStep (.cf c) (.cf (c.setRate sr))
  | cfTime (c : CombFilter) (t : F) : DeviceStep (.cf c) (.cf (c.setTime t))
  | cfClear (c : CombFilter) : DeviceStep (.cf c) (.cf c.clear)
  | apRun (a : AllpassFilter) (x : F) : DeviceStep (.ap a) (.ap (a.run x).1)
  | apRate (a : AllpassFilter) {sr : F} (hf : sr.isFinite = true) (fits : a.fitsAt sr = true) :
      DeviceStep (.ap a) (.ap (a.setRate sr))
  | apTime (a : AllpassFilter) (t : F) : DeviceStep (.ap a) (.ap (a.setTime t))
  | apClear (a : AllpassFilter) : DeviceStep (.ap a) (.ap a.clear)
  | bqRun (q : Biquad) (x : F) : DeviceStep (.bq q) (.bq (q.run x).1)
  | bqRate (q : Biquad) {sr : F} (hf : sr.isFinite = true) : DeviceStep (.bq q) (.bq (q.setRate sr))
  | bqCutoff (q : Biquad) {x : F} (hx : x.isNan = false) : DeviceStep (.bq q) (.bq (q.setCutoff x))
  | bqQ (q : Biquad) (x : F) : DeviceStep (.bq q) (.bq (q.setQ x))
  | bqGain (q : Biquad) (x : F) : DeviceStep (.bq q) (.bq (q.setGain x))
  | bqType (q : Biquad) (t : Int) : DeviceStep (.bq q) (.bq (q.setType t))
  | bqClear (q : Biquad) : DeviceStep (.bq q) (.bq q.clear)
  | lfoRun (l : Lfo) : DeviceStep (.lfo l) (.lfo l.run.1)
  | lfoRate (l : Lfo) {sr : F} (hf : sr.isFinite = true) : DeviceStep (.lfo l) (.lfo (l.setRate sr))
  | rmRun (m : RandomMod) (n : Nat) : DeviceStep (.rm m) (.rm (m.run (drawF n 0)).1)
  | rmRate (m : RandomMod) {sr : F} (hf : sr.isFinite = true) : DeviceStep (.rm m) (.rm (m.setRate sr))
  | bkRun (k : Block) (n : Nat) (x : Stereo F) : DeviceStep (.bk k) (.bk (k.run n x).1)
  | bkRate (k : Block) {sr : F} (hf : sr.isFinite = true) (fits : k.fitsAt sr = true) :
      DeviceStep (.bk k) (.bk (k.setRate sr))
  | bkClear (k : Block) : DeviceStep (.bk k) (.bk k.clear)

/-- From the state `s` with device `d` the outcome, if it is a next state, has what the host presents as it
was and a device that one `DeviceStep` gives. -/
def Answers (s : State) (d : Device) (o : Out) : Prop :=
  ∀ t, o = .next t → t.input = s.input ∧ DeviceStep d t.device

namespace Answers

variable {s : State} {d d' : Device} {w : Word} {k : F → Out}

theorem answer {r0 r1 : Word} (h : DeviceStep d d') : Answers s d (.next (s.answer d' r0 r1)) := by
  rintro t ⟨⟩
  exact ⟨rfl, h⟩

theorem finiteOperand (h : (operandF w).isFinite = true → Answers s d (k (operandF w))) :
    Answers s d (finiteOperand w k) := by
  intro t ht
  obtain ⟨hf, hk⟩ := finiteOperand_next ht
  exact h hf t hk

theorem numberOperand (h : (operandF w).isNan = false → Answers s d (k (operandF w))) :
    Answers s d (numberOperand w k) := by
  intro t ht
  obtain ⟨hn, hk⟩ := numberOperand_next ht
  exact h hn t hk

theorem whenFits {fits : Bool} {o : Out} (h : fits = true → Answers s d o) :
    Answers s d (whenFits fits o) := by
  intro t ht
  obtain ⟨hfits, ho⟩ := whenFits_next ht
  exact h hfits t ho

/-- A command of one class: `inv` is the inversion lemma of the class (`onRv_next` and its seven companions).
On a device of another class the command is illegal and changes nothing (rule R88). -/
theorem onClass {α : Type} {c : α → Device} {f : α → Out} {o : Out} {p : Prop}
    (inv : ∀ {t}, o = .next t → (∃ x, s.device = c x ∧ f x = .next t) ∨ (p ∧ t = s.answerIllegal))
    (h : ∀ x, Answers s (c x) (f x)) : Answers s s.device o := by
  intro t ht
  rcases inv ht with ⟨x, hx, hf⟩ | ⟨-, rfl⟩
  · rw [hx]
    exact h x t hf
  · exact ⟨rfl, .same _⟩

end Answers

/-- `RV.SETWET` of a block index clamps one wet, of any other index changes nothing (rule R211). -/
theorem rvSetwet_answers (idx : Nat) (a : Word) (s : State) :
    Answers s s.device (exec (.rvSetwet idx a) s) := by
  refine .onClass onRv_next fun v => ?_
  cases blockIdx idx with
  | some k => exact .numberOperand fun hw => .answer (.rvWet v k hw)
  | none => exact .answer (.same _)

/-- `RV.GETWET` only reads (rule R216). -/
theorem rvGetwet_answers (idx : Nat) (s : State) : Answers s s.device (exec (.rvGetwet idx) s) := by
  refine .onClass onRv_next fun v => ?_
  cases blockIdx idx with
  | some k => exact .answer (.same _)
  | none => exact .answer (.same _)

/-- Every instruction answers a `DeviceStep`, one line per row of rule R85. -/
theorem exec_answers (i : Instr) (s : State) : Answers s s.device (exec i s) := by
  cases i with
  | rvRun a b => exact .onClass onRv_next fun v => .answer (.rvRun v _ _)
  | rvSetsr a =>
    exact .onClass onRv_next fun v => .finiteOperand fun hf => .whenFits fun h => .answer (.rvRate v hf h)
  | rvSetwet idx a => exact rvSetwet_answers idx a s
  | rvSetlpf a => exact .onClass onRv_next fun v => .numberOperand fun hx => .answer (.rvLowpass v hx)
  | rvSetmode a => exact .onClass onRv_next fun v => .answer (.rvMode v _)
  | rvClear => exact .onClass onRv_next fun v => .answer (.rvClear v)
  | rvGetsr => exact .onClass onRv_next fun _ => .answer (.same _)
  | rvGetwet idx => exact rvGetwet_answers idx s
  | rvGetlpf => exact .onClass onRv_next fun _ => .answer (.same _)
  | rvGetmode => exact .onClass onRv_next fun _ => .answer (.same _)
  | rvGetout => exact .onClass onRv_next fun _ => .answer (.same _)
  | dlRun a => exact .onClass onDl_next fun d => .answer (.dlRun d _)
  | dlSetsr a =>
    exact .onClass onDl_next fun d => .finiteOperand fun hf => .whenFits fun h => .answer (.dlRate d hf h)
  | dlSettime a => exact .onClass onDl_next fun d => .finiteOperand fun _ => .answer (.dlTime d _)
  | dlSetmax c a =>
    exact .onClass onDl_next fun d => .finiteOperand fun hf => .whenFits fun h => .answer (.dlMax d c hf h)
  | dlClear => exact .onClass onDl_next fun d => .answer (.dlClear d)
  | cfRun a => exact .onClass onCf_next fun c => .answer (.cfRun c _)
  | cfSetsr a =>
    exact .onClass onCf_next fun c => .finiteOperand fun hf => .whenFits fun h => .answer (.cfRate c hf h)
  | cfSettime a => exact .onClass onCf_next fun c => .finiteOperand fun _ => .answer (.cfTime c _)
  | cfClear => exact .onClass onCf_next fun c => .answer (.cfClear c)
  | apRun a => exact .onClass onAp_next fun f => .answer (.apRun f _)
  | apSetsr a =>
    exact .onClass onAp_next fun f => .finiteOperand fun hf => .whenFits fun h => .answer (.apRate f hf h)
  | apSettime a => exact .onClass onAp_next fun f => .finiteOperand fun _ => .answer (.apTime f _)
  | apClear => exact .onClass onAp_next fun f => .answer (.apClear f)
  | bqRun a => exact .onClass onBq_next fun q => .answer (.bqRun q _)
  | bqSetsr a => exact .onClass onBq_next fun q => .finiteOperand fun hf => .answer (.bqRate q hf)
  | bqSetcut a => exact .onClass onBq_next fun q => .numberOperand fun hx => .answer (.bqCutoff q hx)
  | bqSetq a => exact .onClass onBq_next fun q => .finiteOperand fun _ => .answer (.bqQ q _)
  | bqSetgain a => exact .onClass onBq_next fun q => .finiteOperand fun _ => .answer (.bqGain q _)
  | bqSettype a => exact .onClass onBq_next fun q => .answer (.bqType q _)
  | bqClear => exact .onClass onBq_next fun q => .answer (.bqClear q)
  | lfoRun => exact .onClass onLfo_next fun l => .answer (.lfoRun l)
  | lfoSetsr a => exact .onClass onLfo_next fun l => .finiteOperand fun hf => .answer (.lfoRate l hf)
  | rmRun => exact .onClass onRm_next fun m => .answer (.rmRun m _)
  | rmSetsr a => exact .onClass onRm_next fun m => .finiteOperand fun hf => .answer (.rmRate m hf)
  | bkRun a b => exact .onClass onBk_next fun k => .answer (.bkRun k _ _)
  | bkSetsr a =>
    exact .onClass onBk_next fun k => .finiteOperand fun hf => .whenFits fun h => .answer (.bkRate k hf h)
  | bkClear => exact .onClass onBk_next fun k => .answer (.bkClear k)

/-- Everything a step that completes can do to the device: reset it, or what one instruction does. -/
theorem step_device {s t : State} (h : step s = .next t) :
    t.device = s.device.afterReset ∨ DeviceStep s.device t.device := by
  rcases step_next h with ⟨-, rfl⟩ | ⟨x, rest, -, ⟨-, rfl⟩ | ⟨-, e, -, rfl⟩ | ⟨-, i, -, hi⟩⟩
  · exact .inr (.same _)
  · exact .inl rfl
  · exact .inr (.same _)
  · exact .inr (exec_answers i _ t hi).2

/-! ### Class and kind -/

/-- Two devices are of one class and, if they are blocks, of one kind. -/
def SameIdentity (d d' : Device) : Prop :=
  d'.cls = d.cls ∧ ∀ k, d = .bk k → ∃ k', d' = .bk k' ∧ k'.kind = k.kind

theorem SameIdentity.of_unit {d d' : Device} (hd : d.cls ≠ .bk) (h : d'.cls = d.cls) : SameIdentity d d' :=
  ⟨h, fun k hk => absurd (by rw [hk]; rfl) hd⟩

theorem SameIdentity.of_block {k k' : Block} (h : k'.kind = k.kind) : SameIdentity (.bk k) (.bk k') := by
  refine ⟨rfl, ?_⟩
  rintro _ ⟨⟩
  exact ⟨k', rfl, h⟩

theorem SameIdentity.refl (d : Device) : SameIdentity d d := ⟨rfl, fun k hk => ⟨k, hk, rfl⟩⟩

theorem Block.kind_run (k : Block) (n : Nat) (x : Stereo F) : (k.run n x).1.kind = k.kind := by cases k <;> rfl
theorem Block.kind_setRate (k : Block) (sr : F) : (k.setRate sr).kind = k.kind := by cases k <;> rfl
theorem Block.kind_clear (k : Block) : k.clear.kind = k.kind := by cases k <;> rfl
theorem mkBlock_kind (t : Tuning) (kind : BlockKind) (sr0 : F) : (mkBlock t kind sr0).kind = kind := by
  cases kind <;> rfl

theorem DeviceStep.sameIdentity {d d' : Device} (h : DeviceStep d d') : SameIdentity d d' := by
  cases h with
  | same => exact .refl _
  | bkRun k n x => exact .of_block (k.kind_run n x)
  | bkRate k _ _ => exact .of_block (k.kind_setRate _)
  | bkClear k => exact .of_block k.kind_clear
  | _ => exact .of_unit (by simp [Device.cls]) rfl

/-- Reset keeps the class of a device, and a block its kind (rules R35, R252). -/
theorem Device.afterReset_sameIdentity (d : Device) : SameIdentity d d.afterReset := by
  cases d with
  | bk k => exact .of_block (mkBlock_kind tuning k.kind _)
  | _ => exact .of_unit (by simp [Device.cls]) rfl

end Sys2Proof.Machine

namespace Sys2Proof.Proofs

open Sys2Proof.Machine

/-- Settles O57: the device of a next state is the reset one or what one `DeviceStep` gives (`step_device`),
and both keep class and kind; `exec_answers` holds the clause about `input` for every instruction. -/
theorem deviceIdentityIsFixed : Obligations.DeviceIdentityIsFixed := by
  refine ⟨fun s t h => ?_, fun i s t h => (exec_answers i s t h).1⟩
  rcases step_device h with hr | hs
  · rw [hr]
    exact s.device.afterReset_sameIdentity
  · exact hs.sameIdentity

end Sys2Proof.Proofs
end

section
/-! Proofs for `10_state.md`: every operation of a unit keeps the invariant of the unit, construction
establishes it, and so every step keeps the invariant of the device (rules R24, R25, R29 to R33, R36, R63). -/

set_option Elab.async false

namespace Sys2Proof

/-! ### The parts of a valid tuning (rules R11, R262) -/

variable {t : Tuning}

/-- What rule R11 says of a tuning, as far as the invariants need it. -/
theorem Tuning.valid_parts (h : t.valid = true) :
    t.comb1.all (·.all CombRec.valid) = true ∧ t.comb2.all (·.all CombRec.valid) = true ∧
    t.ap3.all (·.all AllpassRec.valid) = true ∧ t.ap4.all (·.all AllpassRec.valid) = true ∧
    t.lp1.all LowpassRec.valid = true ∧ t.lp2.all LowpassRec.valid = true ∧
    t.lp3.all LowpassRec.valid = true ∧ t.lp4.all LowpassRec.valid = true ∧
    t.lfo3.all LfoRec.valid = true ∧
    t.rm4.all (fun p => p.all RmRec.valid && decide (p.first.target ≠ p.second.target)) = true := by
  simp only [Tuning.valid, Bool.and_eq_true, and_assoc] at h
  tauto

theorem Tuning.fits_parts {r : F} (h : t.fits capMax r = true) :
    t.comb1.all (·.all fun c => capacityFits capMax c.maxTime r) = true ∧
    t.comb2.all (·.all fun c => capacityFits capMax c.maxTime r) = true ∧
    t.ap3.all (·.all fun a => capacityFits capMax a.maxTime r) = true ∧
    t.ap4.all (·.all fun a => capacityFits capMax a.maxTime r) = true := by
  simpa only [Tuning.fits, Bool.and_eq_true, and_assoc] using h

end Sys2Proof

namespace Sys2Proof.Machine

/-! ### Clamps -/

theorem clampRate_of_legal {r : F} (h : rateLegal r) : clampRate r = r := by
  simp [clampRate, F.not_lt_of_le h.2]

theorem clampMax_of_nonneg {m : F} (h : finiteNonneg m = true) : clampMax m = m := by
  simp [clampMax, F.not_lt_of_le (finiteNonneg_iff h).1]

/-! ### The delay line (rules R24, R25, R60, R63) -/

/-- What the invariant of a delay line says of everything but its time: the controls are legal, the memory is
sized for them and in canonical form. -/
structure DelayLine.Sized (d : DelayLine) : Prop where
  rate : rateLegal d.sampleRate
  maxTime : finiteNonneg d.maxTime = true
  capacity_eq : d.capacity = capacityOf d.maxTime d.sampleRate
  fits : fitsMemory d.maxTime d.sampleRate = true
  writePos_lt : d.writePos < d.capacity
  buffer_wf : d.buffer.wf = true
  buffer_within : d.buffer.within d.capacity = true

/-- Retiming a line that is sized for its controls makes every lag and position right (rule R106). -/
theorem DelayLine.Sized.retime {d : DelayLine} (h : d.Sized) (t : F) : (d.retime t).Inv where
  rate := h.rate
  maxTime := h.maxTime
  time_low := (clamp_not_outside (finiteNonneg_iff h.maxTime).1).1
  time_high := (clamp_not_outside (finiteNonneg_iff h.maxTime).1).2
  capacity_eq := h.capacity_eq
  capacity_pos := Nat.one_le_of_lt h.writePos_lt
  fits := h.fits
  lagFloor_eq := rfl
  lagCeil_eq := rfl
  frac_eq := rfl
  writePos_lt := h.writePos_lt
  readPosFloor_eq := rfl
  readPosCeil_eq := rfl
  buffer_wf := h.buffer_wf
  buffer_within := h.buffer_within

/-- A rebuild of a line with legal controls that fit gives a good line (rule R107). -/
theorem DelayLine.rebuild_inv {d : DelayLine} (hr : rateLegal d.sampleRate)
    (hm : finiteNonneg d.maxTime = true) (hf : fitsMemory d.maxTime d.sampleRate = true) : d.rebuild.Inv :=
  DelayLine.Sized.retime
    (d := { d with capacity := capacityOf d.maxTime d.sampleRate, buffer := Memory.cleared, writePos := 0 })
    ⟨hr, hm, rfl, hf, capacityOf_pos hm hr hf, Memory.wf_cleared, Memory.within_cleared _⟩ d.time

/-- A live resize keeps the canonical form of the memory and brings every address and the write position below
the new capacity (rule R103). -/
theorem DelayLine.resize_inv {d : DelayLine} (hr : rateLegal d.sampleRate)
    (hm : finiteNonneg d.maxTime = true) (hf : fitsMemory d.maxTime d.sampleRate = true)
    (hb : d.buffer.wf = true) : d.resize.Inv :=
  let n := capacityOf d.maxTime d.sampleRate
  DelayLine.Sized.retime
    (d := { d with capacity := n, buffer := d.buffer.resize n, writePos := d.writePos % n })
    ⟨hr, hm, rfl, hf, Nat.mod_lt _ (capacityOf_pos hm hr hf), Memory.wf_resize hb n,
      Memory.within_resize _ n⟩ d.time

/-- Construction is a rebuild of the line that holds the clamped controls. -/
theorem mkDelayLine_inv {sr0 max0 time0 fb0 : F} (hsr : sr0.isFinite = true) (hm : finiteNonneg max0 = true)
    (hf : fitsMemory max0 (clampRate sr0) = true) : (mkDelayLine sr0 max0 time0 fb0).Inv := by
  rw [← clampMax_of_nonneg hm] at hf
  exact DelayLine.rebuild_inv (d := { mkDelayLine sr0 max0 time0 fb0 with time := time0 })
    (clampRate_legal hsr) (clampMax_nonneg (finiteNonneg_iff hm).2) hf

namespace DelayLine.Inv

variable {d : DelayLine}

theorem sized (h : d.Inv) : d.Sized :=
  ⟨h.rate, h.maxTime, h.capacity_eq, h.fits, h.writePos_lt, h.buffer_wf, h.buffer_within⟩

theorem setTime (h : d.Inv) (t : F) : (d.setTime t).Inv := h.sized.retime t

/-- A run advances the write position and both read positions together (rule R101). -/
theorem run (h : d.Inv) (x : F) : (d.run x).1.Inv where
  rate := h.rate
  maxTime := h.maxTime
  time_low := h.time_low
  time_high := h.time_high
  capacity_eq := h.capacity_eq
  capacity_pos := h.capacity_pos
  fits := h.fits
  lagFloor_eq := h.lagFloor_eq
  lagCeil_eq := h.lagCeil_eq
  frac_eq := h.frac_eq
  writePos_lt := Nat.mod_lt _ h.capacity_pos
  readPosFloor_eq := by
    simp only [run_readPosFloor, h.readPosFloor_eq]
    exact modPos_advance h.capacity_pos
  readPosCeil_eq := by
    simp only [run_readPosCeil, h.readPosCeil_eq]
    exact modPos_advance h.capacity_pos
  buffer_wf := Memory.wf_write h.buffer_wf _ _
  buffer_within := Memory.within_write h.buffer_within h.writePos_lt _

theorem clear (h : d.Inv) : d.clear.Inv :=
  { h with buffer_wf := Memory.wf_cleared, buffer_within := Memory.within_cleared _ }

theorem setRate (h : d.Inv) {sr : F} (hsr : sr.isFinite = true) (hf : d.fitsAt sr = true) :
    (d.setRate sr).Inv :=
  DelayLine.rebuild_inv (d := { d with sampleRate := clampRate sr }) (clampRate_legal hsr) h.maxTime hf

theorem setMax (h : d.Inv) (c : Bool) {m : F} (hm : m.isFinite = true)
    (hf : fitsMemory (clampMax m) d.sampleRate = true) : (d.setMax c m).Inv := by
  have hmax := clampMax_nonneg hm
  cases c with
  | true => exact DelayLine.rebuild_inv (d := { d with maxTime := clampMax m }) h.rate hmax hf
  | false => exact DelayLine.resize_inv (d := { d with maxTime := clampMax m }) h.rate hmax hf h.buffer_wf

end DelayLine.Inv

/-! ### Two lines with the same controls (rule R29) -/

/-- Lines that agree differ in nothing but the buffer. -/
theorem linesAgree.exists_buffer {ff fb : DelayLine} (h : linesAgree ff fb) :
    ∃ b, ff = { fb with buffer := b } :=
  ⟨ff.buffer, congrArg (fun d : DelayLine => { d with buffer := ff.buffer }) h⟩

/-- What a comb filter and an allpass filter have in common: two good lines that agree, the inner feedback gain
`+0.0` (rule R29). -/
structure GoodLines (d e : DelayLine) : Prop where
  ff : d.Inv
  fb : e.Inv
  agree : linesAgree d e
  inner : d.feedbackGain = F.zero

theorem mkDelayLine_goodLines {sr0 max0 time0 : F} (hsr : sr0.isFinite = true) (hm : finiteNonneg max0 = true)
    (hf : fitsMemory max0 (clampRate sr0) = true) :
    GoodLines (mkDelayLine sr0 max0 time0 F.zero) (mkDelayLine sr0 max0 time0 F.zero) :=
  ⟨mkDelayLine_inv hsr hm hf, mkDelayLine_inv hsr hm hf, rfl, rfl⟩

namespace GoodLines

variable {ff fb : DelayLine}

theorem run (h : GoodLines ff fb) (x y : F) : GoodLines (ff.run x).1 (fb.run y).1 := by
  refine ⟨h.ff.run x, h.fb.run y, ?_, h.inner⟩
  obtain ⟨b, rfl⟩ := h.agree.exists_buffer
  rfl

theorem setTime (h : GoodLines ff fb) (t : F) : GoodLines (ff.setTime t) (fb.setTime t) := by
  refine ⟨h.ff.setTime t, h.fb.setTime t, ?_, h.inner⟩
  obtain ⟨b, rfl⟩ := h.agree.exists_buffer
  rfl

theorem setRate (h : GoodLines ff fb) {sr : F} (hsr : sr.isFinite = true) (hff : ff.fitsAt sr = true)
    (hfb : fb.fitsAt sr = true) : GoodLines (ff.setRate sr) (fb.setRate sr) := by
  refine ⟨h.ff.setRate hsr hff, h.fb.setRate hsr hfb, ?_, h.inner⟩
  obtain ⟨b, rfl⟩ := h.agree.exists_buffer
  rfl

theorem clear (h : GoodLines ff fb) : GoodLines ff.clear fb.clear :=
  ⟨h.ff.clear, h.fb.clear, congrArg DelayLine.clear h.agree, h.inner⟩

end GoodLines

/-! ### Comb and allpass filters -/

theorem CombFilter.inv_iff {c : CombFilter} : c.Inv ↔ GoodLines c.ff c.fb :=
  ⟨fun h => ⟨h.ff, h.fb, h.agree, h.inner⟩, fun h => ⟨h.ff, h.fb, h.agree, h.inner⟩⟩

theorem AllpassFilter.inv_iff {a : AllpassFilter} : a.Inv ↔ GoodLines a.ff a.fb :=
  ⟨fun h => ⟨h.ff, h.fb, h.agree, h.inner⟩, fun h => ⟨h.ff, h.fb, h.agree, h.inner⟩⟩

namespace CombFilter.InvAt

variable {r : F} {c : CombFilter}

theorem run (h : c.InvAt r) (x : F) : (c.run x).1.InvAt r :=
  ⟨inv_iff.2 ((inv_iff.1 h.1).run x c.out), h.2⟩

theorem setTime (h : c.InvAt r) (t : F) : (c.setTime t).InvAt r :=
  ⟨inv_iff.2 ((inv_iff.1 h.1).setTime t), h.2⟩

theorem setRate (h : c.InvAt r) {sr : F} (hsr : sr.isFinite = true) (hf : c.fitsAt sr = true) :
    (c.setRate sr).InvAt (clampRate sr) := by
  obtain ⟨hff, hfb⟩ := Bool.and_eq_true_iff.1 hf
  exact ⟨inv_iff.2 ((inv_iff.1 h.1).setRate hsr hff hfb), rfl⟩

theorem clear (h : c.InvAt r) : c.clear.InvAt r := ⟨inv_iff.2 (inv_iff.1 h.1).clear, h.2⟩

end CombFilter.InvAt

namespace AllpassFilter.InvAt

variable {r : F} {a : AllpassFilter}

theorem run (h : a.InvAt r) (x : F) : (a.run x).1.InvAt r :=
  ⟨inv_iff.2 ((inv_iff.1 h.1).run x a.out), h.2⟩

theorem setTime (h : a.InvAt r) (t : F) : (a.setTime t).InvAt r :=
  ⟨inv_iff.2 ((inv_iff.1 h.1).setTime t), h.2⟩

theorem setRate (h : a.InvAt r) {sr : F} (hsr : sr.isFinite = true) (hf : a.fitsAt sr = true) :
    (a.setRate sr).InvAt (clampRate sr) := by
  obtain ⟨hff, hfb⟩ := Bool.and_eq_true_iff.1 hf
  exact ⟨inv_iff.2 ((inv_iff.1 h.1).setRate hsr hff hfb), rfl⟩

theorem clear (h : a.InvAt r) : a.clear.InvAt r := ⟨inv_iff.2 (inv_iff.1 h.1).clear, h.2⟩

end AllpassFilter.InvAt

theorem mkCombFilter_invAt {sr0 : F} {c : CombRec} (hsr : sr0.isFinite = true) (hc : c.valid = true)
    (hf : capacityFits capMax c.maxTime (clampRate sr0) = true) :
    (mkCombFilter sr0 c).InvAt (clampRate sr0) := by
  simp only [CombRec.valid, Bool.and_eq_true, and_assoc] at hc
  exact ⟨CombFilter.inv_iff.2 (mkDelayLine_goodLines hsr hc.1 hf), rfl⟩

theorem mkAllpassFilter_invAt {sr0 : F} {a : AllpassRec} (hsr : sr0.isFinite = true) (ha : a.valid = true)
    (hf : capacityFits capMax a.maxTime (clampRate sr0) = true) :
    (mkAllpassFilter sr0 a).InvAt (clampRate sr0) := by
  simp only [AllpassRec.valid, Bool.and_eq_true, and_assoc] at ha
  exact ⟨AllpassFilter.inv_iff.2 (mkDelayLine_goodLines hsr ha.1 hf), rfl⟩

/-! ### The biquad (rules R30, R31) -/

theorem mkBiquad_inv {type0 : Int} {cutoff0 q0 gain0 sr0 : F} (hc : cutoff0.isNan = false)
    (hsr : sr0.isFinite = true) : (mkBiquad type0 cutoff0 q0 gain0 sr0).Inv :=
  ⟨clampRate_legal hsr, clamp_inRange hc (nyquist_nonneg (clampRate_legal hsr)), rfl⟩

/-- A lowpass built from a rate and a cutoff that are already legal stores them as they are. -/
theorem mkBiquad_invAt {cutoff0 q0 gain0 r : F} (hr : rateLegal r) (hc : inRange cutoff0 F.zero (nyquist r)) :
    (mkBiquad 0 cutoff0 q0 gain0 r).InvAt r ∧ (mkBiquad 0 cutoff0 q0 gain0 r).cutoff = cutoff0 := by
  have hidem := clampRate_of_legal hr
  refine ⟨⟨mkBiquad_inv (F.number_of_le hc.1).2 hr.1, hidem, rfl⟩, ?_⟩
  simp only [mkBiquad, hidem, clamp_of_inRange hc.1 hc.2]

namespace Biquad.Inv

variable {q : Biquad}

/-- A cutoff in range is a number, so a clamp of it lands in the range. -/
theorem cutoff_number (h : q.Inv) : q.cutoff.isNan = false := (F.number_of_le h.cutoff.1).2

theorem run (h : q.Inv) (x : F) : (q.run x).1.Inv := ⟨h.rate, h.cutoff, h.coefs⟩

theorem setRate (h : q.Inv) {sr : F} (hsr : sr.isFinite = true) : (q.setRate sr).Inv :=
  ⟨clampRate_legal hsr, clamp_inRange h.cutoff_number (nyquist_nonneg (clampRate_legal hsr)), rfl⟩

theorem setCutoff (h : q.Inv) {x : F} (hx : x.isNan = false) : (q.setCutoff x).Inv :=
  ⟨h.rate, clamp_inRange hx (nyquist_nonneg h.rate), rfl⟩

theorem setQ (h : q.Inv) (x : F) : (q.setQ x).Inv := ⟨h.rate, h.cutoff, rfl⟩
theorem setGain (h : q.Inv) (x : F) : (q.setGain x).Inv := ⟨h.rate, h.cutoff, rfl⟩
theorem setType (h : q.Inv) (t : Int) : (q.setType t).Inv := ⟨h.rate, h.cutoff, rfl⟩
theorem clear (h : q.Inv) : q.clear.Inv := ⟨h.rate, h.cutoff, h.coefs⟩

end Biquad.Inv

namespace Biquad.InvAt

variable {r : F} {q : Biquad}

theorem run (h : q.InvAt r) (x : F) : (q.run x).1.InvAt r := ⟨h.1.run x, h.2⟩
theorem setRate (h : q.InvAt r) {sr : F} (hsr : sr.isFinite = true) : (q.setRate sr).InvAt (clampRate sr) :=
  ⟨h.1.setRate hsr, rfl, h.2.2⟩
theorem setCutoff (h : q.InvAt r) {x : F} (hx : x.isNan = false) : (q.setCutoff x).InvAt r :=
  ⟨h.1.setCutoff hx, h.2⟩
theorem clear (h : q.InvAt r) : q.clear.InvAt r := ⟨h.1.clear, h.2⟩

end Biquad.InvAt

theorem mkLowpass_invAt {sr0 : F} {p : LowpassRec} (hsr : sr0.isFinite = true) (hp : p.valid = true) :
    (mkLowpass sr0 p).InvAt (clampRate sr0) :=
  ⟨mkBiquad_inv (F.number_of_finite (Bool.and_eq_true_iff.1 hp).1) hsr, rfl, rfl⟩

/-! ### The modulators (rules R32, R33) -/

theorem mkLfo_invAt {sr0 frequency : F} (hsr : sr0.isFinite = true) (hf : frequency.isFinite = true) :
    (mkLfo sr0 frequency).InvAt (clampRate sr0) :=
  ⟨⟨clampRate_legal hsr, hf, F.le_refl F.zero_number, F.zero_lt_one⟩, rfl⟩

namespace Lfo.InvAt

variable {r : F} {l : Lfo}

/-- The step of a phase is finite, and `wrap` brings the sum back into `[0, 1)` (rules R161, R163). -/
theorem run (h : l.InvAt r) : l.run.1.InvAt r := by
  obtain ⟨hi, hr⟩ := h
  have hstep : (l.frequency.div l.sampleRate).isFinite = true :=
    F.div_isFinite hi.frequency hi.rate.1 hi.rate.2
  obtain ⟨hlow, hhigh⟩ := wrapPhase_unit (F.add_isFinite_of_unit hi.phase_low hi.phase_high hstep)
  exact ⟨⟨hi.rate, hi.frequency, hlow, hhigh⟩, hr⟩

theorem setRate (h : l.InvAt r) {sr : F} (hsr : sr.isFinite = true) : (l.setRate sr).InvAt (clampRate sr) :=
  ⟨{ h.1 with rate := clampRate_legal hsr }, rfl⟩

end Lfo.InvAt

theorem mkRandomMod_invAt {sr0 frequency : F} (hsr : sr0.isFinite = true) (hf : finitePos frequency = true) :
    (mkRandomMod sr0 frequency).InvAt (clampRate sr0) :=
  ⟨⟨clampRate_legal hsr, hf, rfl, legalDraw_zero, legalDraw_zero⟩, rfl⟩

namespace RandomMod.InvAt

variable {r : F} {m : RandomMod}

/-- At the end of a period the target becomes the start and a legal draw the target (rules R165, R170). -/
theorem run (h : m.InvAt r) {x : F} (hx : legalDraw x = true) : (m.run x).1.InvAt r := by
  obtain ⟨hi, hr⟩ := h
  rcases m.run_cases x with ⟨-, e⟩ | ⟨-, e⟩ <;> rw [e]
  · exact ⟨⟨hi.rate, hi.frequency, hi.steps_eq, hi.next, hx⟩, hr⟩
  · exact ⟨⟨hi.rate, hi.frequency, hi.steps_eq, hi.current, hi.next⟩, hr⟩

theorem setRate (h : m.InvAt r) {sr : F} (hsr : sr.isFinite = true) : (m.setRate sr).InvAt (clampRate sr) :=
  ⟨{ h.1 with rate := clampRate_legal hsr, steps_eq := rfl }, rfl⟩

end RandomMod.InvAt

/-! ### Channels, pairs and chains -/

section
variable {α β : Type} {p g : α → Prop} {q : β → Prop} {f : α → β} {b : α → Bool}

theorem both_of_all {s : Stereo α} (h : s.all b = true) : both (b · = true) s := by
  simpa [Stereo.all, both] using h

theorem pair_of_all {s : Pair α} (h : s.all b = true) : pair (b · = true) s := by
  simpa [Pair.all, pair] using h

theorem chain4_of_all {s : Chain4 α} (h : s.all b = true) : chain4 (b · = true) s := by
  simpa [Chain4.all, chain4, and_assoc] using h

theorem chain6_of_all {s : Chain6 α} (h : s.all b = true) : chain6 (b · = true) s := by
  simpa [Chain6.all, chain6, and_assoc] using h

/-- What holds of a mapped channel because two things hold of the channel. -/
theorem both.map₂ {s : Stereo α} (hp : both p s) (hg : both g s) (hf : ∀ a, p a → g a → q (f a)) :
    both q (s.map f) := ⟨hf _ hp.1 hg.1, hf _ hp.2 hg.2⟩

theorem pair.map₂ {s : Pair α} (hp : pair p s) (hg : pair g s) (hf : ∀ a, p a → g a → q (f a)) :
    pair q (s.map f) := ⟨hf _ hp.1 hg.1, hf _ hp.2 hg.2⟩

theorem chain4.map₂ {s : Chain4 α} (hp : chain4 p s) (hg : chain4 g s)
    (hf : ∀ a, p a → g a → q (f a)) : chain4 q (s.map f) := by
  obtain ⟨p1, p2, p3, p4⟩ := hp
  obtain ⟨g1, g2, g3, g4⟩ := hg
  exact ⟨hf _ p1 g1, hf _ p2 g2, hf _ p3 g3, hf _ p4 g4⟩

theorem chain6.map₂ {s : Chain6 α} (hp : chain6 p s) (hg : chain6 g s)
    (hf : ∀ a, p a → g a → q (f a)) : chain6 q (s.map f) := by
  obtain ⟨p1, p2, p3, p4, p5, p6⟩ := hp
  obtain ⟨g1, g2, g3, g4, g5, g6⟩ := hg
  exact ⟨hf _ p1 g1, hf _ p2 g2, hf _ p3 g3, hf _ p4 g4, hf _ p5 g5, hf _ p6 g6⟩

theorem both.map {s : Stereo α} (hp : both p s) (hf : ∀ a, p a → q (f a)) : both q (s.map f) :=
  hp.map₂ hp fun a ha _ => hf a ha

theorem pair.map {s : Pair α} (hp : pair p s) (hf : ∀ a, p a → q (f a)) : pair q (s.map f) :=
  hp.map₂ hp fun a ha _ => hf a ha

theorem chain4.map {s : Chain4 α} (hp : chain4 p s) (hf : ∀ a, p a → q (f a)) : chain4 q (s.map f) :=
  hp.map₂ hp fun a ha _ => hf a ha

theorem chain6.map {s : Chain6 α} (hp : chain6 p s) (hf : ∀ a, p a → q (f a)) : chain6 q (s.map f) :=
  hp.map₂ hp fun a ha _ => hf a ha

end

/-! ### The parts of a run of a block -/

section
variable {r : F}

theorem runCombs_invAt {k : Pair CombFilter} (h : pair (CombFilter.InvAt r) k) (x : F) :
    pair (CombFilter.InvAt r) (runCombs k x).1 := ⟨h.1.run _, h.2.run _⟩

theorem runLowpass_invAt {lp : Stereo Biquad} (h : both (Biquad.InvAt r) lp) (x : Stereo F) :
    both (Biquad.InvAt r) (runLowpass lp x).1 := ⟨h.1.run _, h.2.run _⟩

theorem runChain4_invAt {k : Chain4 AllpassFilter} (h : chain4 (AllpassFilter.InvAt r) k) (x : F) :
    chain4 (AllpassFilter.InvAt r) (runChain4 k x).1 := by
  obtain ⟨h1, h2, h3, h4⟩ := h
  exact ⟨h1.run _, h2.run _, h3.run _, h4.run _⟩

theorem runChain6_invAt {k : Chain6 AllpassFilter} (h : chain6 (AllpassFilter.InvAt r) k) (x : F) :
    chain6 (AllpassFilter.InvAt r) (runChain6 k x).1 := by
  obtain ⟨h1, h2, h3, h4, h5, h6⟩ := h
  exact ⟨h1.run _, h2.run _, h3.run _, h4.run _, h5.run _, h6.run _⟩

/-- A retuned chain is good whatever the modulated time, a NaN included (log 25). -/
theorem retune3_invAt {k : Chain4 AllpassFilter} (h : chain4 (AllpassFilter.InvAt r) k) (t : LfoRec) (m : F) :
    chain4 (AllpassFilter.InvAt r) (retune3 k t m) := by
  obtain ⟨h1, h2, h3, h4⟩ := h
  exact ⟨h1, h2, h3.setTime _, h4⟩

theorem retune4_invAt {k : Chain6 AllpassFilter} (h : chain6 (AllpassFilter.InvAt r) k) (t : RmRec) (m : F) :
    chain6 (AllpassFilter.InvAt r) (retune4 k t m) := by
  obtain ⟨h1, h2, h3, h4, h5, h6⟩ := h
  unfold retune4
  cases t.target with
  | t1 => exact ⟨h1.setTime _, h2, h3, h4, h5, h6⟩
  | t2 => exact ⟨h1, h2.setTime _, h3, h4, h5, h6⟩
  | t3 => exact ⟨h1, h2, h3.setTime _, h4, h5, h6⟩
  | t4 => exact ⟨h1, h2, h3, h4.setTime _, h5, h6⟩
  | t5 => exact ⟨h1, h2, h3, h4, h5.setTime _, h6⟩
  | t6 => exact ⟨h1, h2, h3, h4, h5, h6.setTime _⟩

theorem retuneBoth_invAt {k : Chain6 AllpassFilter} (h : chain6 (AllpassFilter.InvAt r) k) (t : Pair RmRec)
    (m1 m2 : F) : chain6 (AllpassFilter.InvAt r) (retuneBoth k t m1 m2) :=
  retune4_invAt (retune4_invAt h t.first m1) t.second m2

theorem runMods_invAt {k : Pair RandomMod} (h : pair (RandomMod.InvAt r) k) {d1 d2 : F}
    (h1 : legalDraw d1 = true) (h2 : legalDraw d2 = true) : pair (RandomMod.InvAt r) (runMods k d1 d2).1 :=
  ⟨h.1.run h1, h.2.run h2⟩

end

/-! ### Blocks (rules R35, R193, R194) -/

namespace CombBlock.InvAt

variable {r : F} {k : CombBlock}

theorem run (h : k.InvAt r) (x : Stereo F) : (k.run x).1.InvAt r :=
  ⟨⟨runCombs_invAt h.comb.1 _, runCombs_invAt h.comb.2 _⟩, runLowpass_invAt h.lp _⟩

theorem setRate (h : k.InvAt r) {sr : F} (hsr : sr.isFinite = true) (hf : k.fitsAt sr = true) :
    (k.setRate sr).InvAt (clampRate sr) where
  comb := h.comb.map₂ (both_of_all hf) fun _ hp hc =>
    hp.map₂ (pair_of_all hc) fun _ hi hfit => hi.setRate hsr hfit
  lp := h.lp.map fun _ hi => hi.setRate hsr

theorem clear (h : k.InvAt r) : k.clear.InvAt r where
  comb := h.comb.map fun _ hp => hp.map fun _ hi => hi.clear
  lp := h.lp.map fun _ hi => hi.clear

end CombBlock.InvAt

namespace LfoBlock.InvAt

variable {r : F} {k : LfoBlock}

theorem run (h : k.InvAt r) (x : Stereo F) : (k.run x).1.InvAt r where
  ap := ⟨retune3_invAt (runChain4_invAt h.ap.1 _) _ _, retune3_invAt (runChain4_invAt h.ap.2 _) _ _⟩
  lp := runLowpass_invAt h.lp _
  lfo := ⟨h.lfo.1.run, h.lfo.2.run⟩

theorem setRate (h : k.InvAt r) {sr : F} (hsr : sr.isFinite = true) (hf : k.fitsAt sr = true) :
    (k.setRate sr).InvAt (clampRate sr) where
  ap := h.ap.map₂ (both_of_all hf) fun _ hp hc =>
    hp.map₂ (chain4_of_all hc) fun _ hi hfit => hi.setRate hsr hfit
  lp := h.lp.map fun _ hi => hi.setRate hsr
  lfo := h.lfo.map fun _ hi => hi.setRate hsr

theorem clear (h : k.InvAt r) : k.clear.InvAt r where
  ap := h.ap.map fun _ hp => hp.map fun _ hi => hi.clear
  lp := h.lp.map fun _ hi => hi.clear
  lfo := h.lfo

end LfoBlock.InvAt

namespace RmBlock.InvAt

variable {r : F} {k : RmBlock}

theorem run (h : k.InvAt r) (n : Nat) (x : Stereo F) : (k.run n x).1.InvAt r where
  ap := ⟨retuneBoth_invAt (runChain6_invAt h.ap.1 _) _ _ _,
    retuneBoth_invAt (runChain6_invAt h.ap.2 _) _ _ _⟩
  lp := runLowpass_invAt h.lp _
  rm := ⟨runMods_invAt h.rm.1 (drawF_legal _ _) (drawF_legal _ _),
    runMods_invAt h.rm.2 (drawF_legal _ _) (drawF_legal _ _)⟩

theorem setRate (h : k.InvAt r) {sr : F} (hsr : sr.isFinite = true) (hf : k.fitsAt sr = true) :
    (k.setRate sr).InvAt (clampRate sr) where
  ap := h.ap.map₂ (both_of_all hf) fun _ hp hc =>
    hp.map₂ (chain6_of_all hc) fun _ hi hfit => hi.setRate hsr hfit
  lp := h.lp.map fun _ hi => hi.setRate hsr
  rm := h.rm.map fun _ hp => hp.map fun _ hi => hi.setRate hsr

theorem clear (h : k.InvAt r) : k.clear.InvAt r where
  ap := h.ap.map fun _ hp => hp.map fun _ hi => hi.clear
  lp := h.lp.map fun _ hi => hi.clear
  rm := h.rm

end RmBlock.InvAt

namespace Block.Inv

variable {k : Block}

theorem run (h : k.Inv) (n : Nat) (x : Stereo F) : (k.run n x).1.Inv := by
  obtain ⟨r, h⟩ := h
  refine ⟨r, ?_⟩
  cases k with
  | early b => exact h.run x
  | midDense b => exact h.run x
  | lfoAllpass b => exact h.run x
  | rmAllpass b => exact h.run n x

theorem setRate (h : k.Inv) {sr : F} (hsr : sr.isFinite = true) (hf : k.fitsAt sr = true) :
    (k.setRate sr).Inv := by
  obtain ⟨r, h⟩ := h
  refine ⟨clampRate sr, ?_⟩
  cases k with
  | early b => exact h.setRate hsr hf
  | midDense b => exact h.setRate hsr hf
  | lfoAllpass b => exact h.setRate hsr hf
  | rmAllpass b => exact h.setRate hsr hf

theorem clear (h : k.Inv) : k.clear.Inv := by
  obtain ⟨r, h⟩ := h
  refine ⟨r, ?_⟩
  cases k with
  | early b => exact h.clear
  | midDense b => exact h.clear
  | lfoAllpass b => exact h.clear
  | rmAllpass b => exact h.clear

end Block.Inv

/-! ### The reverberator (rule R36) -/

namespace Reverb.Inv

variable {v : Reverb}

theorem blend1 (h : v.Inv) (i : Stereo F) : (v.blend1 i).1.Inv := { h with block1 := h.block1.run i }
theorem blend2 (h : v.Inv) (i : Stereo F) : (v.blend2 i).1.Inv := { h with block2 := h.block2.run i }
theorem blend3 (h : v.Inv) (i : Stereo F) : (v.blend3 i).1.Inv := { h with block3 := h.block3.run i }
theorem blend4 (h : v.Inv) (n : Nat) (i : Stereo F) : (v.blend4 n i).1.Inv :=
  { h with block4 := h.block4.run n i }

/-- In every mode a run is one blend of each block (rules R204, R205, R206). -/
theorem route (h : v.Inv) (n : Nat) (d : Stereo F) : (v.route n d).1.Inv := by
  unfold Reverb.route
  cases v.mode with
  | parallel => exact (((h.blend1 _).blend2 _).blend3 _).blend4 _ _
  | serial => exact (((h.blend1 _).blend2 _).blend3 _).blend4 _ _
  | hybrid => exact (((h.blend3 _).blend4 _ _).blend1 _).blend2 _

theorem run (h : v.Inv) (n : Nat) (d : Stereo F) : (v.run n d).1.Inv :=
  have hr := h.route n d
  { hr with olp := runLowpass_invAt hr.olp _ }

/-- Both output lowpasses have one cutoff, so one clamp of it serves both (rules R210, R212). -/
theorem setRate (h : v.Inv) {sr : F} (hsr : sr.isFinite = true) (hf : v.fitsAt sr = true) :
    (v.setRate sr).Inv := by
  simp only [Reverb.fitsAt, Bool.and_eq_true, and_assoc] at hf
  obtain ⟨f1, f2, f3, f4⟩ := hf
  have hcut : v.olp.right.cutoff = v.olp.left.cutoff := h.cutoff_right.trans h.cutoff_left.symm
  exact
    { rate := clampRate_legal hsr
      wet1 := h.wet1, wet2 := h.wet2, wet3 := h.wet3, wet4 := h.wet4
      block1 := h.block1.setRate hsr f1
      block2 := h.block2.setRate hsr f2
      block3 := h.block3.setRate hsr f3
      block4 := h.block4.setRate hsr f4
      olp := h.olp.map fun _ hi => hi.setRate hsr
      cutoff_left := rfl
      cutoff_right := congrArg (clamp · F.zero (nyquist (clampRate sr))) hcut }

theorem setWet (h : v.Inv) (k : BlockIdx) {w : F} (hw : w.isNan = false) : (v.setWet k w).Inv := by
  have hr : inRange (clamp w F.zero F.one) F.zero F.one := clamp_inRange hw F.zero_le_one
  cases k with
  | b1 => exact { h with wet1 := hr }
  | b2 => exact { h with wet2 := hr }
  | b3 => exact { h with wet3 := hr }
  | b4 => exact { h with wet4 := hr }

theorem setLowpass (h : v.Inv) {x : F} (hx : x.isNan = false) : (v.setLowpass x).Inv :=
  have hrate : v.olp.right.sampleRate = v.olp.left.sampleRate := h.olp.2.2.1.trans h.olp.1.2.1.symm
  { h with
    olp := h.olp.map fun _ hi => hi.setCutoff hx
    cutoff_left := rfl
    cutoff_right := congrArg (fun r => clamp x F.zero (nyquist r)) hrate }

theorem setMode (h : v.Inv) (t : Int) : (v.setMode t).Inv := { h with }

theorem clear (h : v.Inv) : v.clear.Inv :=
  { h with
    block1 := h.block1.clear
    block2 := h.block2.clear
    block3 := h.block3.clear
    block4 := h.block4.clear
    olp := h.olp.map fun _ hi => hi.clear }

end Reverb.Inv

/-! ### An instruction keeps the invariant of the device -/

theorem CombFilter.Inv.at_own_rate {c : CombFilter} (h : c.Inv) : c.InvAt c.ff.sampleRate := ⟨h, rfl⟩
theorem AllpassFilter.Inv.at_own_rate {a : AllpassFilter} (h : a.Inv) : a.InvAt a.ff.sampleRate := ⟨h, rfl⟩
theorem Lfo.Inv.at_own_rate {l : Lfo} (h : l.Inv) : l.InvAt l.sampleRate := ⟨h, rfl⟩
theorem RandomMod.Inv.at_own_rate {m : RandomMod} (h : m.Inv) : m.InvAt m.sampleRate := ⟨h, rfl⟩

theorem DeviceStep.keeps_inv {d d' : Device} (hs : DeviceStep d d') (h : d.Inv) : d'.Inv := by
  cases hs with
  | same => exact h
  | rvRun v n x => exact Reverb.Inv.run h n x
  | rvRate v hf fits => exact Reverb.Inv.setRate h hf fits
  | rvWet v k hw => exact Reverb.Inv.setWet h k hw
  | rvLowpass v hx => exact Reverb.Inv.setLowpass h hx
  | rvMode v t => exact Reverb.Inv.setMode h t
  | rvClear v => exact Reverb.Inv.clear h
  | dlRun d x => exact DelayLine.Inv.run h x
  | dlRate d hf fits => exact DelayLine.Inv.setRate h hf fits
  | dlTime d t => exact DelayLine.Inv.setTime h t
  | dlMax d c hf fits => exact DelayLine.Inv.setMax h c hf fits
  | dlClear d => exact DelayLine.Inv.clear h
  | cfRun c x => exact ((CombFilter.Inv.at_own_rate h).run x).1
  | cfRate c hf fits => exact ((CombFilter.Inv.at_own_rate h).setRate hf fits).1
  | cfTime c t => exact ((CombFilter.Inv.at_own_rate h).setTime t).1
  | cfClear c => exact (CombFilter.Inv.at_own_rate h).clear.1
  | apRun a x => exact ((AllpassFilter.Inv.at_own_rate h).run x).1
  | apRate a hf fits => exact ((AllpassFilter.Inv.at_own_rate h).setRate hf fits).1
  | apTime a t => exact ((AllpassFilter.Inv.at_own_rate h).setTime t).1
  | apClear a => exact (AllpassFilter.Inv.at_own_rate h).clear.1
  | bqRun q x => exact Biquad.Inv.run h x
  | bqRate q hf => exact Biquad.Inv.setRate h hf
  | bqCutoff q hx => exact Biquad.Inv.setCutoff h hx
  | bqQ q x => exact Biquad.Inv.setQ h x
  | bqGain q x => exact Biquad.Inv.setGain h x
  | bqType q t => exact Biquad.Inv.setType h t
  | bqClear q => exact Biquad.Inv.clear h
  | lfoRun l => exact (Lfo.Inv.at_own_rate h).run.1
  | lfoRate l hf => exact ((Lfo.Inv.at_own_rate h).setRate hf).1
  | rmRun m n => exact ((RandomMod.Inv.at_own_rate h).run (drawF_legal n 0)).1
  | rmRate m hf => exact ((RandomMod.Inv.at_own_rate h).setRate hf).1
  | bkRun k n x => exact Block.Inv.run h n x
  | bkRate k hf fits => exact Block.Inv.setRate h hf fits
  | bkClear k => exact Block.Inv.clear h

/-! ### Reset establishes the invariant (rules R11, R250, R252) -/

section
variable {t : Tuning} {sr0 : F}

theorem mkCombBlock_invAt {combs : Stereo (Pair CombRec)} {lp : Stereo LowpassRec} (hsr : sr0.isFinite = true)
    (hc : combs.all (·.all CombRec.valid) = true) (hlp : lp.all LowpassRec.valid = true)
    (hf : combs.all (·.all fun c => capacityFits capMax c.maxTime (clampRate sr0)) = true) :
    (mkCombBlock sr0 combs lp).InvAt (clampRate sr0) where
  comb := (both_of_all hc).map₂ (both_of_all hf) fun _ hv hfit =>
    (pair_of_all hv).map₂ (pair_of_all hfit) fun _ hv hfit => mkCombFilter_invAt hsr hv hfit
  lp := (both_of_all hlp).map fun _ hp => mkLowpass_invAt hsr hp

theorem mkBlock1_invAt (hsr : sr0.isFinite = true) (hv : t.valid = true)
    (hf : t.fits capMax (clampRate sr0) = true) : (mkBlock1 t sr0).InvAt (clampRate sr0) := by
  obtain ⟨hcomb, -, -, -, hlp, -⟩ := Tuning.valid_parts hv
  exact mkCombBlock_invAt hsr hcomb hlp (Tuning.fits_parts hf).1

theorem mkBlock2_invAt (hsr : sr0.isFinite = true) (hv : t.valid = true)
    (hf : t.fits capMax (clampRate sr0) = true) : (mkBlock2 t sr0).InvAt (clampRate sr0) := by
  obtain ⟨-, hcomb, -, -, -, hlp, -⟩ := Tuning.valid_parts hv
  exact mkCombBlock_invAt hsr hcomb hlp (Tuning.fits_parts hf).2.1

theorem mkBlock3_invAt (hsr : sr0.isFinite = true) (hv : t.valid = true)
    (hf : t.fits capMax (clampRate sr0) = true) : (mkBlock3 t sr0).InvAt (clampRate sr0) := by
  obtain ⟨-, -, hap, -, -, -, hlp, -, hlfo, -⟩ := Tuning.valid_parts hv
  obtain ⟨-, -, hfit, -⟩ := Tuning.fits_parts hf
  refine ⟨?ap, (both_of_all hlp).map fun _ hp => mkLowpass_invAt hsr hp, ?lfo⟩
  case ap =>
    exact (both_of_all hap).map₂ (both_of_all hfit) fun _ hv hfit =>
      (chain4_of_all hv).map₂ (chain4_of_all hfit) fun _ hv hfit => mkAllpassFilter_invAt hsr hv hfit
  case lfo =>
    refine (both_of_all hlfo).map fun r hr => mkLfo_invAt hsr ?_
    simp only [LfoRec.valid, finitePos, Bool.and_eq_true, and_assoc] at hr
    exact hr.1

theorem mkBlock4_invAt (hsr : sr0.isFinite = true) (hv : t.valid = true)
    (hf : t.fits capMax (clampRate sr0) = true) : (mkBlock4 t sr0).InvAt (clampRate sr0) := by
  obtain ⟨-, -, -, hap, -, -, -, hlp, -, hrm⟩ := Tuning.valid_parts hv
  obtain ⟨-, -, -, hfit⟩ := Tuning.fits_parts hf
  refine ⟨?ap, (both_of_all hlp).map fun _ hp => mkLowpass_invAt hsr hp, ?rm⟩
  case ap =>
    exact (both_of_all hap).map₂ (both_of_all hfit) fun _ hv hfit =>
      (chain6_of_all hv).map₂ (chain6_of_all hfit) fun _ hv hfit => mkAllpassFilter_invAt hsr hv hfit
  case rm =>
    refine (both_of_all hrm).map fun p hp => (pair_of_all (Bool.and_eq_true_iff.1 hp).1).map fun r hr =>
      mkRandomMod_invAt hsr ?_
    simp only [RmRec.valid, Bool.and_eq_true, and_assoc] at hr
    exact hr.1

theorem mkBlock_inv (kind : BlockKind) (hsr : sr0.isFinite = true) (hv : t.valid = true)
    (hf : t.fits capMax (clampRate sr0) = true) : (mkBlock t kind sr0).Inv := by
  refine ⟨clampRate sr0, ?_⟩
  cases kind with
  | k1 => exact mkBlock1_invAt hsr hv hf
  | k2 => exact mkBlock2_invAt hsr hv hf
  | k3 => exact mkBlock3_invAt hsr hv hf
  | k4 => exact mkBlock4_invAt hsr hv hf

/-- The device is constructed with a rate that is already clamped; clamping it again in each unit changes
nothing, and the same for the cutoff (rule R250). -/
theorem mkReverb_inv {wet0 : Wets} {mode0 : Int} {lpf0 : F} (hsr : sr0.isFinite = true) (hv : t.valid = true)
    (hf : t.fits capMax (clampRate sr0) = true) (hlpf : lpf0.isNan = false)
    (hw1 : wet0.w1.isNan = false) (hw2 : wet0.w2.isNan = false) (hw3 : wet0.w3.isNan = false)
    (hw4 : wet0.w4.isNan = false) : (mkReverb t sr0 wet0 mode0 lpf0).Inv := by
  have hr := clampRate_legal hsr
  have hidem := clampRate_of_legal hr
  obtain ⟨holp, hcutoff⟩ := mkBiquad_invAt (q0 := t.outQ) (gain0 := F.zero) hr
    (clamp_inRange hlpf (nyquist_nonneg hr))
  have hf' : t.fits capMax (clampRate (clampRate sr0)) = true := hidem.symm ▸ hf
  have b1 := mkBlock1_invAt hr.1 hv hf'
  have b2 := mkBlock2_invAt hr.1 hv hf'
  have b3 := mkBlock3_invAt hr.1 hv hf'
  have b4 := mkBlock4_invAt hr.1 hv hf'
  rw [hidem] at b1 b2 b3 b4
  exact
    { rate := hr
      wet1 := clamp_inRange hw1 F.zero_le_one
      wet2 := clamp_inRange hw2 F.zero_le_one
      wet3 := clamp_inRange hw3 F.zero_le_one
      wet4 := clamp_inRange hw4 F.zero_le_one
      block1 := b1
      block2 := b2
      block3 := b3
      block4 := b4
      olp := ⟨holp, holp⟩
      cutoff_left := hcutoff
      cutoff_right := hcutoff }

end

/-- The reset state of a device of any class, and of a block of any kind, meets the invariant (rules R250,
R252). -/
theorem resetDevice_inv (cls : UnitClass) (kind : BlockKind) : (resetDevice cls kind).Inv := by
  have hl := leaf_valid
  simp only [LeafParams.valid, Bool.and_eq_true, and_assoc] at hl
  obtain ⟨dlRate, dlMax, -, -, dlFits, cfRate, cfRec, cfFits, apRate, apRec, apFits, bqCutoff, -, -, bqRate,
    lfoRate, lfoFrequency, rmRate, rmFrequency, bkRate, bkFits⟩ := hl
  cases cls with
  | rv =>
    exact mkReverb_inv (by decide) tuning_valid tuning_fits
      (F.number_of_finite (finiteNonneg_iff resetLpf_range.1).2) F.one_number F.one_number F.one_number
      F.one_number
  | dl => exact mkDelayLine_inv dlRate dlMax dlFits
  | cf => exact (mkCombFilter_invAt cfRate cfRec cfFits).1
  | ap => exact (mkAllpassFilter_invAt apRate apRec apFits).1
  | bq => exact mkBiquad_inv (F.number_of_finite bqCutoff) bqRate
  | lfo => exact (mkLfo_invAt lfoRate lfoFrequency).1
  | rm => exact (mkRandomMod_invAt rmRate rmFrequency).1
  | bk => exact mkBlock_inv kind bkRate tuning_valid bkFits

theorem Device.afterReset_inv (d : Device) : d.afterReset.Inv := by
  cases d with
  | rv _ => exact resetDevice_inv .rv params.leaf.bkKind
  | dl _ => exact resetDevice_inv .dl params.leaf.bkKind
  | cf _ => exact resetDevice_inv .cf params.leaf.bkKind
  | ap _ => exact resetDevice_inv .ap params.leaf.bkKind
  | bq _ => exact resetDevice_inv .bq params.leaf.bkKind
  | lfo _ => exact resetDevice_inv .lfo params.leaf.bkKind
  | rm _ => exact resetDevice_inv .rm params.leaf.bkKind
  | bk k => exact resetDevice_inv .bk k.kind

end Sys2Proof.Machine

namespace Sys2Proof.Proofs

open Sys2Proof.Machine

/-- Settles O56: the device of a next state is the reset one, which is good for every class
(`resetDevice_inv`), or what one `DeviceStep` gives, and each of these keeps the invariant
(`DeviceStep.keeps_inv`). -/
theorem stepKeepsInvariant : Obligations.StepKeepsInvariant := by
  intro s t hInv h
  unfold State.Inv at *
  rcases step_device h with hr | hs
  · rw [hr]
    exact s.device.afterReset_inv
  · exact hs.keeps_inv hInv

end Sys2Proof.Proofs
end

section
/-! Proofs for `30_encoding.md`: the decoder and the encoder are inverse to each other, and a word decodes
exactly where a row of the opcode map selects it (rules R83 to R88). -/

set_option Elab.async false

namespace Sys2Proof

/-! ### The operands that stand in the command word (rules R83, R86) -/

/-- A well-formed instruction has a block index that fits its byte. -/
theorem Instr.idx_lt {i : Instr} (h : i.wellFormed = true) : i.idx < 256 := by
  cases i with
  | rvSetwet idx _ => exact of_decide_eq_true h
  | rvGetwet idx => exact of_decide_eq_true h
  | _ => exact Nat.zero_lt_succ 255

theorem Instr.usesIdx_of_idx {i : Instr} (h : i.idx ≠ 0) : i.opcode.usesIdx = true := by
  cases i with
  | rvSetwet | rvGetwet => rfl
  | _ => exact absurd rfl h

theorem Instr.usesClear_of_clearFlag {i : Instr} (h : i.clearFlag = true) : i.opcode.usesClear = true := by
  cases i with
  | dlSetmax => rfl
  | _ => cases h

section
variable (o : Opcode) {idx : Nat} {c : Bool} (a b : Word)

theorem Opcode.build_wellFormed (h : idx < 256) : (o.build idx c a b).wellFormed = true := by
  cases o with
  | rvSetwet | rvGetwet => exact decide_eq_true h
  | _ => rfl

/-- The block index an instruction is built with is its own, where the row reads one or it is zero. -/
theorem Opcode.build_idx (h : idx = 0 ∨ o.usesIdx = true) : (o.build idx c a b).idx = idx := by
  cases o with
  | rvSetwet | rvGetwet => rfl
  | _ => exact (h.resolve_right Bool.false_ne_true).symm

/-- The flag an instruction is built with is its own, where the row reads one or it is low. -/
theorem Opcode.build_clearFlag (h : c = false ∨ o.usesClear = true) :
    (o.build idx c a b).clearFlag = c := by
  cases o with
  | dlSetmax => rfl
  | _ => exact (h.resolve_right Bool.false_ne_true).symm

end

theorem idxField_lt (w : CmdWord) : idxField w < 256 := Nat.mod_lt _ (by norm_num)

/-- A word whose `zero` field is zero is laid out from its other four fields (rule R83). -/
theorem wordOf_own_fields {w : CmdWord} (h : zeroField w = 0) :
    wordOf (classField w) (opField w) (idxField w) (clearField w) = w := by
  have hw := w.isLt
  have hcls : classField w < 16 := by unfold classField; omega
  have hop : opField w < 16 := Nat.mod_lt _ (by norm_num)
  have hc : (clearField w).toNat = w.toNat % 2 := by
    unfold clearField
    rcases Nat.mod_two_eq_zero_or_one w.toNat with h2 | h2 <;> rw [h2] <;> rfl
  apply BitVec.eq_of_toNat_eq
  rw [wordOf_toNat _ hcls hop (idxField_lt w), hc]
  unfold zeroField at h
  unfold classField opField idxField
  omega

/-! ### A command and its instruction -/

/-- The instruction a command decodes to fits its encoding, which has the command's word. -/
theorem decodeCommand_encodes {k : Command} {i : Instr} (h : decodeCommand k = .ok i) :
    i.wellFormed = true ∧ (encode i).word = k.word := by
  obtain ⟨o, ho, hz, hidx, hc, rfl⟩ := decodeCommand_ok h
  obtain ⟨hcls, hop⟩ := opcodeAt_some ho
  refine ⟨o.build_wellFormed _ _ (idxField_lt _), ?_⟩
  rw [encode_word, Instr.cls, o.build_opcode, o.build_idx _ _ hidx, o.build_clearFlag _ _ hc, ← hcls,
    ← hop, wordOf_own_fields hz]

/-- Decoding undoes encoding on every well-formed instruction. -/
theorem decodeCommand_encode {i : Instr} (h : i.wellFormed = true) : decodeCommand (encode i) = .ok i := by
  obtain ⟨hcls, hop, hidx, hz, hc⟩ := wordOf_fields (c := i.clearFlag)
    (i.cls.code_lt.trans (by norm_num)) i.opcode.op_lt (Instr.idx_lt h)
  rw [← encode_word] at hcls hop hidx hz hc
  have ho : opcodeAt (classField (encode i).word) (opField (encode i).word) = some i.opcode := by
    rw [hcls, hop]
    exact opcodeAt_code i.opcode
  have hidx_ok : ¬(idxField (encode i).word ≠ 0 ∧ i.opcode.usesIdx = false) := by
    rintro ⟨hne, hu⟩
    rw [hidx] at hne
    exact Bool.false_ne_true (hu.symm.trans (Instr.usesIdx_of_idx hne))
  have hc_ok : ¬(clearField (encode i).word = true ∧ i.opcode.usesClear = false) := by
    rintro ⟨ht, hu⟩
    rw [hc] at ht
    exact Bool.false_ne_true (hu.symm.trans (Instr.usesClear_of_clearFlag ht))
  rw [decodeCommand_of ho hz hidx_ok hc_ok, hidx, hc, encode_a, encode_b, i.build_self]

/-! ### A command and the rows that select its word (rules R85, R88) -/

/-- A command whose word a row selects decodes to the instruction of that row: each field that the mask of the
row covers is that of the pattern. -/
theorem decodeCommand_of_selects {k : Command} {r : OpcodeRow} (hr : r ∈ opcodeRows)
    (h : r.selects k.word = true) :
    decodeCommand k = .ok (r.opcode.build (idxField k.word) (clearField k.word) k.a k.b) := by
  have hw : k.word &&& r.mask = r.pattern := eq_of_beq h
  obtain ⟨pcls, pop, pz, mcls, mop, mz, hidx, hc⟩ := opcodeRows_fields r hr
  rw [← hw, classField_and _ _ mcls] at pcls
  rw [← hw, opField_and _ _ mop] at pop
  rw [← hw, zeroField_and _ _ mz] at pz
  refine decodeCommand_of (by rw [pcls, pop]; exact opcodeAt_code _) pz ?idx ?clear
  case idx =>
    rintro ⟨hne, hu⟩
    obtain ⟨midx, pidx⟩ := hidx hu
    rw [← hw, idxField_and _ _ midx] at pidx
    exact hne pidx
  case clear =>
    rintro ⟨ht, hu⟩
    obtain ⟨mc, pc⟩ := hc hu
    rw [← hw, clearField_and _ _ mc, ht] at pc
    cases pc

/-- The instruction a command decodes to is in every row that selects the word. -/
theorem opcode_of_selects {k : Command} {i : Instr} (hi : decodeCommand k = .ok i) {r : OpcodeRow}
    (hr : r ∈ opcodeRows) (h : r.selects k.word = true) : r.opcode = i.opcode := by
  obtain rfl := Except.ok.inj ((decodeCommand_of_selects hr h).symm.trans hi)
  exact (r.opcode.build_opcode _ _ _ _).symm

theorem exists_row (o : Opcode) : ∃ r ∈ opcodeRows, r.opcode = o := by cases o <;> decide

namespace Laws.EncodesOwnRow

/-- The family `EncodesOwnRow` holds of every instruction. -/
theorem all (i : Instr) : Statement i := by
  cases i with
  | rvRun a b => exact rvRun a b
  | rvSetsr a => exact rvSetsr a
  | rvSetwet idx a => exact rvSetwet idx a
  | rvSetlpf a => exact rvSetlpf a
  | rvSetmode a => exact rvSetmode a
  | rvClear => exact rvClear
  | rvGetsr => exact rvGetsr
  | rvGetwet idx => exact rvGetwet idx
  | rvGetlpf => exact rvGetlpf
  | rvGetmode => exact rvGetmode
  | rvGetout => exact rvGetout
  | dlRun a => exact dlRun a
  | dlSetsr a => exact dlSetsr a
  | dlSettime a => exact dlSettime a
  | dlSetmax c a => exact dlSetmax c a
  | dlClear => exact dlClear
  | cfRun a => exact cfRun a
  | cfSetsr a => exact cfSetsr a
  | cfSettime a => exact cfSettime a
  | cfClear => exact cfClear
  | apRun a => exact apRun a
  | apSetsr a => exact apSetsr a
  | apSettime a => exact apSettime a
  | apClear => exact apClear
  | bqRun a => exact bqRun a
  | bqSetsr a => exact bqSetsr a
  | bqSetcut a => exact bqSetcut a
  | bqSetq a => exact bqSetq a
  | bqSetgain a => exact bqSetgain a
  | bqSettype a => exact bqSettype a
  | bqClear => exact bqClear
  | lfoRun => exact lfoRun
  | lfoSetsr a => exact lfoSetsr a
  | rmRun => exact rmRun
  | rmSetsr a => exact rmSetsr a
  | bkRun a b => exact bkRun a b
  | bkSetsr a => exact bkSetsr a
  | bkClear => exact bkClear

end Laws.EncodesOwnRow

/-- The row of the instruction that a command decodes to selects the command's word, because it selects the
instruction's encoding. -/
theorem selects_of_decodeCommand {k : Command} {i : Instr} (h : decodeCommand k = .ok i) :
    ∃ r ∈ opcodeRows, r.selects k.word = true := by
  obtain ⟨hwf, hword⟩ := decodeCommand_encodes h
  obtain ⟨r, hr, hop⟩ := exists_row i.opcode
  refine ⟨r, hr, ?_⟩
  rw [← hword, Laws.EncodesOwnRow.all i hwf r hr]
  exact decide_eq_true hop

end Sys2Proof

namespace Sys2Proof.Proofs

/-- Settles O53: the fields of the encoded word are the instruction's own (`wordOf_fields`), and the instruction
is the one built from its operands (`Instr.build_self`). -/
theorem decodeOfEncode : Obligations.DecodeOfEncode := fun _ => decodeCommand_encode

/-- Settles O54: a row that selects the word fixes what it decodes to (`decodeCommand_of_selects`), so two such
rows are rows of one operation; conversely the word is the encoding of what it decodes to. -/
theorem decodeExactlyWhereOneRowSelects : Obligations.DecodeExactlyWhereOneRowSelects := by
  intro k
  refine ⟨⟨?selected, ?decodes⟩, ?encoded, ?unique⟩
  case selected =>
    rintro ⟨i, hi⟩
    exact selects_of_decodeCommand hi
  case decodes =>
    rintro ⟨r, hr, hsel⟩
    exact ⟨_, decodeCommand_of_selects hr hsel⟩
  case encoded =>
    intro i hi
    obtain ⟨hwf, hword⟩ := decodeCommand_encodes hi
    exact ⟨hwf, hword, fun r hr hsel => opcode_of_selects hi hr hsel⟩
  case unique =>
    intro r hr r' hr' hsel hsel'
    have hop := opcode_of_selects (decodeCommand_of_selects hr hsel) hr' hsel'
    rw [r.opcode.build_opcode] at hop
    exact opcodeRows_unique r hr r' hr' hop.symm

/-- Settles O52: the decoder evaluates on each word; the three illegal words have no row in class 0, a nonzero
`idx` in a row that reads none, and a reserved class. -/
theorem sampleWordsDecode : Obligations.SampleWordsDecode := by
  have hop : decodeCommand ⟨0x0B000000, 0, 0⟩ = .error .reservedOp := rfl
  have hidx : decodeCommand ⟨0x01010000, 0, 0⟩ = .error .idxField := rfl
  have hcls : decodeCommand ⟨0x80000000, 0, 0⟩ = .error .reservedClass := rfl
  refine ⟨rfl, rfl, rfl, rfl, rfl, ?_, ?_, ?_⟩
  · rw [hop]; rfl
  · rw [hidx]; rfl
  · rw [hcls]; rfl

end Sys2Proof.Proofs
end

section
/-! Proofs for `30_encoding.md`: the command port. What a step does with the command presented next, the
results an instruction answers, and an illegal command (rules R81, R82, R85 to R88, R91). -/

set_option Elab.async false

namespace Sys2Proof

/-- The code of the mode an integer is clamped to (rule R213). -/
theorem Mode.code_ofInt (t : Int) :
    ((Mode.ofInt t).code : Int) = if t < 0 then 0 else if t > 2 then 2 else t := by
  unfold Mode.ofInt
  split_ifs <;> simp only [Mode.code] <;> omega

end Sys2Proof

namespace Sys2Proof.Machine

variable {s : State}

/-! ### The command presented next (rules R81, R88) -/

section
variable {x : Input} {rest : List Input} (hs : s.input = x :: rest) (hr : x.rst = false)
include hs hr

theorem step_of_decodes {i : Instr} (hi : decodeCommand x.command = .ok i) :
    step s = exec i (s.took rest) := by
  simp only [step, hs, execInput, hr, execCommand, hi, Bool.false_eq_true, if_false]

theorem step_of_illegal {e : Illegal} (he : decodeCommand x.command = .error e) :
    step s = .next (s.took rest).answerIllegal := by
  simp only [step, hs, execInput, hr, execCommand, he, Bool.false_eq_true, if_false]

end

/-- An instruction of a class that is not the device's is answered as an illegal command (rules R87, R88). -/
theorem exec_other_class {i : Instr} (h : i.cls ≠ s.device.cls) : exec i s = .next s.answerIllegal := by
  cases i with
  | rvRun | rvSetsr | rvSetwet | rvSetlpf | rvSetmode | rvClear | rvGetsr | rvGetwet | rvGetlpf | rvGetmode
  | rvGetout => exact onRv_other _ h.symm
  | dlRun | dlSetsr | dlSettime | dlSetmax | dlClear => exact onDl_other _ h.symm
  | cfRun | cfSetsr | cfSettime | cfClear => exact onCf_other _ h.symm
  | apRun | apSetsr | apSettime | apClear => exact onAp_other _ h.symm
  | bqRun | bqSetsr | bqSetcut | bqSetq | bqSetgain | bqSettype | bqClear => exact onBq_other _ h.symm
  | lfoRun | lfoSetsr => exact onLfo_other _ h.symm
  | rmRun | rmSetsr => exact onRm_other _ h.symm
  | bkRun | bkSetsr | bkClear => exact onBk_other _ h.symm

/-! ### The results an instruction answers (rules R82, R85) -/

/-- The outcome, if it is a next state, has a response with zeros in place of the results beyond the first `n`. -/
def Responds (n : Nat) (o : Out) : Prop :=
  ∀ t, o = .next t → ∃ r0 r1, t.rsp = some ⟨r0, r1⟩ ∧ (n ≤ 1 → r1 = 0) ∧ (n = 0 → r0 = 0)

namespace Responds

variable {n : Nat} {d : Device} {w : Word} {k : F → Out}

theorem two {r0 r1 : Word} : Responds 2 (.next (s.answer d r0 r1)) := by
  rintro t ⟨⟩
  exact ⟨r0, r1, rfl, fun h => absurd h (by decide), fun h => absurd h (by decide)⟩

theorem one {r0 : Word} : Responds 1 (.next (s.answer d r0 noResult)) := by
  rintro t ⟨⟩
  exact ⟨r0, 0, rfl, fun _ => rfl, fun h => absurd h (by decide)⟩

theorem done : Responds n (s.done d) := by
  rintro t ⟨⟩
  exact ⟨0, 0, rfl, fun _ => rfl, fun _ => rfl⟩

theorem illegal : Responds n (.next s.answerIllegal) := by
  rintro t ⟨⟩
  exact ⟨0, 0, rfl, fun _ => rfl, fun _ => rfl⟩

theorem finiteOperand (h : Responds n (k (operandF w))) : Responds n (finiteOperand w k) :=
  fun t ht => h t (finiteOperand_next ht).2

theorem numberOperand (h : Responds n (k (operandF w))) : Responds n (numberOperand w k) :=
  fun t ht => h t (numberOperand_next ht).2

theorem whenFits {fits : Bool} {o : Out} (h : Responds n o) : Responds n (whenFits fits o) :=
  fun t ht => h t (whenFits_next ht).2

/-- A command of one class: `inv` is the inversion lemma of the class (`onRv_next` and its seven companions). -/
theorem onClass {α : Type} {c : α → Device} {f : α → Out} {o : Out} {p : Prop}
    (inv : ∀ {t}, o = .next t → (∃ x, s.device = c x ∧ f x = .next t) ∨ (p ∧ t = s.answerIllegal))
    (h : ∀ x, Responds n (f x)) : Responds n o := by
  intro t ht
  rcases inv ht with ⟨x, -, hf⟩ | ⟨-, rfl⟩
  · exact h x t hf
  · exact illegal s.answerIllegal rfl

end Responds

theorem rvSetwet_responds (idx : Nat) (a : Word) (s : State) : Responds 0 (exec (.rvSetwet idx a) s) := by
  refine .onClass onRv_next fun v => ?_
  cases blockIdx idx with
  | some k => exact .numberOperand .done
  | none => exact .done

theorem rvGetwet_responds (idx : Nat) (s : State) : Responds 1 (exec (.rvGetwet idx) s) := by
  refine .onClass onRv_next fun v => ?_
  cases blockIdx idx with
  | some k => exact .one
  | none => exact .one

/-- Every instruction responds with the results of its row of rule R85. -/
theorem exec_responds (i : Instr) (s : State) : Responds i.opcode.results (exec i s) := by
  cases i with
  | rvRun | rvGetout => exact .onClass onRv_next fun _ => .two
  | rvGetsr | rvGetlpf | rvGetmode => exact .onClass onRv_next fun _ => .one
  | rvSetmode | rvClear => exact .onClass onRv_next fun _ => .done
  | rvSetsr => exact .onClass onRv_next fun _ => .finiteOperand (.whenFits .done)
  | rvSetwet idx a => exact rvSetwet_responds idx a s
  | rvSetlpf => exact .onClass onRv_next fun _ => .numberOperand .done
  | rvGetwet idx => exact rvGetwet_responds idx s
  | dlRun => exact .onClass onDl_next fun _ => .one
  | dlSetsr | dlSetmax => exact .onClass onDl_next fun _ => .finiteOperand (.whenFits .done)
  | dlSettime => exact .onClass onDl_next fun _ => .finiteOperand .done
  | dlClear => exact .onClass onDl_next fun _ => .done
  | cfRun => exact .onClass onCf_next fun _ => .one
  | cfSetsr => exact .onClass onCf_next fun _ => .finiteOperand (.whenFits .done)
  | cfSettime => exact .onClass onCf_next fun _ => .finiteOperand .done
  | cfClear => exact .onClass onCf_next fun _ => .done
  | apRun => exact .onClass onAp_next fun _ => .one
  | apSetsr => exact .onClass onAp_next fun _ => .finiteOperand (.whenFits .done)
  | apSettime => exact .onClass onAp_next fun _ => .finiteOperand .done
  | apClear => exact .onClass onAp_next fun _ => .done
  | bqRun => exact .onClass onBq_next fun _ => .one
  | bqSetsr | bqSetq | bqSetgain => exact .onClass onBq_next fun _ => .finiteOperand .done
  | bqSetcut => exact .onClass onBq_next fun _ => .numberOperand .done
  | bqSettype | bqClear => exact .onClass onBq_next fun _ => .done
  | lfoRun => exact .onClass onLfo_next fun _ => .one
  | lfoSetsr => exact .onClass onLfo_next fun _ => .finiteOperand .done
  | rmRun => exact .onClass onRm_next fun _ => .one
  | rmSetsr => exact .onClass onRm_next fun _ => .finiteOperand .done
  | bkRun => exact .onClass onBk_next fun _ => .two
  | bkSetsr => exact .onClass onBk_next fun _ => .finiteOperand (.whenFits .done)
  | bkClear => exact .onClass onBk_next fun _ => .done

/-! ### The setters of the reverberator inside their domain (rules R210 to R213) -/

section
variable {v : Reverb} {a : Word} (hv : s.device = .rv v)
include hv

theorem exec_rvSetsr_done (ha : (F.ofBits a).isFinite = true) (hfit : v.fitsAt (F.ofBits a) = true) :
    exec (.rvSetsr a) s = s.done (.rv (v.setRate (F.ofBits a))) :=
  (onRv_of _ hv).trans ((finiteOperand_of _ ha).trans (whenFits_of _ hfit))

theorem exec_rvSetwet_done {idx : Nat} {k : BlockIdx} (hk : blockIdx idx = some k)
    (ha : (F.ofBits a).isFinite = true) :
    exec (.rvSetwet idx a) s = s.done (.rv (v.setWet k (F.ofBits a))) :=
  (exec_rvSetwet_of hv hk).trans (numberOperand_of _ (F.number_of_finite ha))

theorem exec_rvSetlpf_done (ha : (F.ofBits a).isFinite = true) :
    exec (.rvSetlpf a) s = s.done (.rv (v.setLowpass (F.ofBits a))) :=
  (onRv_of _ hv).trans (numberOperand_of _ (F.number_of_finite ha))

theorem exec_rvSetmode_done : exec (.rvSetmode a) s = s.done (.rv (v.setMode a.toInt)) := onRv_of _ hv

end

/-- A command without results hands the device it leaves to the commands after it. -/
theorem execAll_cons_done {i : Instr} {d : Device} (h : exec i s = s.done d) (is : List Instr) :
    execAll (i :: is) s = execAll is (s.answer d noResult noResult) := by
  simp only [execAll, h, State.done]

end Sys2Proof.Machine

namespace Sys2Proof.Proofs

open Sys2Proof.Machine

/-- Settles O45: inside their domain the seven setters complete one after the other; the cutoff is clamped at the
output lowpass, whose rate `RV.SETSR` has set before. -/
theorem rvInitSetsControls : Obligations.RvInitSetsControls := by
  intro s v sr w1 w2 w3 w4 cutoff mode hv hsr h1 h2 h3 h4 hcut hfit
  unfold rvInit
  rw [execAll_cons_done (exec_rvSetsr_done hv hsr hfit), execAll_cons_done (exec_rvSetwet_done rfl rfl h1),
    execAll_cons_done (exec_rvSetwet_done rfl rfl h2), execAll_cons_done (exec_rvSetwet_done rfl rfl h3),
    execAll_cons_done (exec_rvSetwet_done rfl rfl h4), execAll_cons_done (exec_rvSetlpf_done rfl hcut),
    execAll_cons_done (exec_rvSetmode_done rfl)]
  exact ⟨_, _, rfl, rfl, rfl, rfl, rfl, Mode.code_ofInt mode.toInt, rfl⟩

/-- Settles O47: a step that takes a command answers it as illegal or executes an instruction, and every instruction
leaves what is still to be presented as it was (`exec_answers`) and responds as its row says (`exec_responds`). -/
theorem everyCommandIsAnswered : Obligations.EveryCommandIsAnswered := by
  refine ⟨fun s t x rest hs hr h => ?_, fun i s t h => exec_responds i s t h⟩
  cases hd : decodeCommand x.command with
  | ok i =>
    rw [step_of_decodes hs hr hd] at h
    obtain ⟨r0, r1, hrsp, -⟩ := exec_responds i _ t h
    exact ⟨by rw [hrsp]; rfl, (exec_answers i _ t h).1⟩
  | error e =>
    rw [step_of_illegal hs hr hd] at h
    cases h
    exact ⟨rfl, rfl⟩

/-- Settles O48: a word that no row selects decodes to nothing (`selects_of_decodeCommand`), and one that a row
selects decodes to an instruction of that row, which a device of another class answers as illegal. -/
theorem illegalCommandHasNoEffect : Obligations.IllegalCommandHasNoEffect := by
  refine ⟨fun s x rest hs hr h => ?_, fun i s h => exec_other_class h⟩
  rcases h with hnone | ⟨r, hrow, hsel, hcls⟩
  · cases hd : decodeCommand x.command with
    | ok i =>
      obtain ⟨r, hrow, hsel⟩ := selects_of_decodeCommand hd
      exact absurd hsel (by rw [hnone r hrow]; exact Bool.false_ne_true)
    | error e => exact step_of_illegal hs hr hd
  · rw [step_of_decodes hs hr (decodeCommand_of_selects hrow hsel)]
    refine exec_other_class ?_
    rwa [Instr.cls, r.opcode.build_opcode]

/-- Settles O46: a step executes what the command decodes to (`step_of_decodes`), which fits its encoding
(`decodeCommand_encodes`). -/
theorem stepRunsDecodedInstruction : Obligations.StepRunsDecodedInstruction :=
  fun _ _ _ _ hs hr hi => ⟨step_of_decodes hs hr hi, (decodeCommand_encodes hi).1⟩

end Sys2Proof.Proofs
end

section
/-! Proofs for `40_delay_line.md`: what each command of the delay line answers (rules R101 to R108), and the
line as an exact delay (rules R109, R110). -/

set_option Elab.async false

namespace Sys2Proof

/-! ### Zero terms of a sum, in value (rules R14, R15) -/

theorem F.exists_fin {x : F} (h : x.isFinite = true) : ∃ s m, x = .fin s m := by
  cases x with
  | fin s m => exact ⟨s, m, rfl⟩
  | inf s => cases h
  | nan => cases h

/-- A value of the place of a finite value is finite: the infinities have places of their own. -/
theorem F.isFinite_of_key {a b : F} (h : a.key = b.key) (hb : b.isFinite = true) : a.isFinite = true := by
  obtain ⟨t, n, rfl⟩ := F.exists_fin hb
  have hn : n.val < 9218868437227405312 := n.isLt
  cases a with
  | fin s m => rfl
  | inf s =>
    simp only [F.key, Option.some.injEq] at h
    split_ifs at h <;> omega
  | nan => simp [F.key] at h

/-- A zero of either sign leaves a finite value where it is; only the sign of a zero can change. -/
theorem F.key_add_zero {a : F} (ha : a.isFinite = true) (t : Bool) :
    (a.add (.fin t ⟨0, by norm_num⟩)).key = a.key := by
  obtain ⟨s, m, rfl⟩ := F.exists_fin ha
  by_cases hm : m.val = 0
  · obtain rfl : m = ⟨0, by norm_num⟩ := Fin.ext hm
    rw [F.zero_add_zero]
    simp [F.key]
  · rw [F.fin_add_zero s t m hm]

theorem F.key_add_mul_zero {a b : F} (ha : a.isFinite = true) (hb : b.isFinite = true) :
    (a.add (b.mul F.zero)).key = a.key := by
  obtain ⟨t, n, rfl⟩ := F.exists_fin hb
  rw [F.fin_mul_zero, F.key_add_zero ha]

theorem F.zero_mul_pi : F.zero.mul F.pi = F.zero := (F.zero_mul_fin _ _).trans F.zero_eq.symm
theorem F.one_sub_one : F.one.sub F.one = F.zero := by decide +kernel
theorem F.zero_mul_half : F.zero.mul F.half = F.zero := by decide +kernel
theorem F.one_sub_zero : F.one.sub F.zero = F.one := by decide +kernel

end Sys2Proof

namespace Sys2Proof.Machine

/-- With weight `0.0` the interpolation is the first tap and a vanishing share of the second (rule R108). -/
theorem interp_zero (a b : F) : interp a b F.zero = a.add (b.mul F.zero) := by
  simp only [interp, F.zero_mul_pi, cosF_zero, F.one_sub_one, F.zero_mul_half, F.one_sub_zero, F.mul_one]

/-! ### Positions behind the write position (rule R16) -/

/-- The position `i` words behind `w`, with at most one wrap. -/
theorem modPos_back {w i n : Nat} (hw : w < n) (hi : i ≤ n) :
    modPos ((w : Int) - (i : Int)) n = if i ≤ w then w - i else w + n - i := by
  unfold modPos
  split_ifs with h
  · rw [Int.emod_eq_of_lt (by omega) (by omega)]
    omega
  · rw [← Int.add_emod_right, Int.emod_eq_of_lt (by omega) (by omega)]
    omega

/-- Once the write position has advanced, every position lies one word further behind it. -/
theorem modPos_back_next (w i n : Nat) :
    modPos (((w + 1) % n : Nat) - ((i + 1 : Nat) : Int)) n = modPos ((w : Int) - (i : Int)) n := by
  unfold modPos
  push_cast
  rw [Int.emod_sub_emod, add_sub_add_right_eq_sub]

/-! ### The memory beyond its capacity -/

theorem Memory.read_of_within {m : Memory} {n i : Nat} (h : Memory.within m n = true) (hi : n ≤ i) :
    Memory.read m i = F.zero := by
  induction m with
  | nil => rfl
  | cons c m ih =>
    rw [Memory.within_iff] at h
    have hc := h c List.mem_cons_self
    rw [Memory.read, if_neg (by omega)]
    exact ih (Memory.within_iff.2 fun c' hc' => h c' (List.mem_cons_of_mem _ hc'))

/-! ### What a setter answers on a delay line (rules R102 to R105) -/

section
variable {s : State} {d : DelayLine} {a : Word} (hd : s.device = .dl d)
include hd

theorem exec_dlSettime (ha : (F.ofBits a).isFinite = true) :
    exec (.dlSettime a) s = s.done (.dl (d.setTime (F.ofBits a))) :=
  (onDl_of _ hd).trans (finiteOperand_of _ ha)

theorem exec_dlSetmax (c : Bool) (ha : (F.ofBits a).isFinite = true)
    (hfit : fitsMemory (clampMax (F.ofBits a)) d.sampleRate = true) :
    exec (.dlSetmax c a) s = s.done (.dl (d.setMax c (F.ofBits a))) :=
  (onDl_of _ hd).trans ((finiteOperand_of _ ha).trans (whenFits_of _ hfit))

theorem exec_dlSetsr (ha : (F.ofBits a).isFinite = true) (hfit : d.fitsAt (F.ofBits a) = true) :
    exec (.dlSetsr a) s = s.done (.dl (d.setRate (F.ofBits a))) :=
  (onDl_of _ hd).trans ((finiteOperand_of _ ha).trans (whenFits_of _ hfit))

theorem exec_dlClear : exec .dlClear s = s.done (.dl d.clear) := onDl_of _ hd

end

/-! ### The memory a setter leaves (rules R103, R105, R107) -/

theorem DelayLine.setMax_true_buffer (d : DelayLine) (m : F) : (d.setMax true m).buffer = Memory.cleared := rfl

theorem DelayLine.setMax_false_buffer (d : DelayLine) (m : F) :
    (d.setMax false m).buffer = d.buffer.resize (capacityOf (clampMax m) d.sampleRate) := rfl

/-- Below the new capacity a resize keeps what stood below the old one, and every new word is `+0.0`. -/
theorem Memory.read_resize_grown {m : Memory} {c n i : Nat} (h : Memory.within m c = true) (hi : i < n) :
    Memory.read (Memory.resize m n) i = if i < c then Memory.read m i else F.zero := by
  rw [Memory.read_resize, if_pos hi]
  split_ifs with hc
  · rfl
  · exact Memory.read_of_within h (Nat.le_of_not_lt hc)

/-! ### The line as an exact delay (rules R109, R110) -/

/-- The input taken `i` runs before run `n`, and `+0.0` from before the first run. -/
def pastInput (x : Nat → F) (n i : Nat) : F := if n < i then F.zero else x (n - i)

theorem pastInput_first {x : Nat → F} {i : Nat} (hi : 1 ≤ i) : pastInput x 0 i = F.zero := if_pos hi

theorem pastInput_one (x : Nat → F) (n : Nat) : pastInput x (n + 1) 1 = x n := if_neg (by omega)

theorem pastInput_next (x : Nat → F) (n i : Nat) : pastInput x (n + 1) (i + 1) = pastInput x n i := by
  simp only [pastInput, Nat.add_lt_add_iff_right, Nat.add_sub_add_right]

/-- Before run `n` on the inputs `x`, the memory of capacity `cap` holds the last `cap` inputs in value, the newest
right behind the write position, and the line reads `lag` words behind it. Every word is finite, because the tap
that counts with weight `0.0` may be any. -/
structure DelayLine.Remembers (x : Nat → F) (cap lag n : Nat) (d : DelayLine) : Prop where
  capacity_eq : d.capacity = cap
  writePos_lt : d.writePos < cap
  readPosFloor_eq : d.readPosFloor = modPos ((d.writePos : Int) - (lag : Int)) cap
  feedbackGain_eq : d.feedbackGain = F.zero
  frac_eq : d.frac = F.zero
  buffer_wf : d.buffer.wf = true
  word_finite : ∀ i, (d.buffer.read i).isFinite = true
  word_key : ∀ i, 1 ≤ i → i ≤ cap →
    (d.buffer.read (modPos ((d.writePos : Int) - (i : Int)) cap)).key = (pastInput x n i).key

namespace DelayLine.Remembers

variable {x : Nat → F} {cap lag n : Nat} {d : DelayLine}

/-- A run answers the remembered input of `lag` runs ago. -/
theorem output_key (h : d.Remembers x cap lag n) (h1 : 1 ≤ lag) (hcap : lag ≤ cap) :
    d.output.key = (pastInput x n lag).key := by
  rw [DelayLine.output, h.frac_eq, interp_zero, F.key_add_mul_zero (h.word_finite _) (h.word_finite _),
    h.readPosFloor_eq]
  exact h.word_key lag h1 hcap

theorem output_finite (h : d.Remembers x cap lag n) : d.output.isFinite = true := by
  rw [DelayLine.output, h.frac_eq, interp_zero]
  exact F.isFinite_of_key (F.key_add_mul_zero (h.word_finite _) (h.word_finite _)) (h.word_finite d.readPosFloor)

/-- What a run writes is its input in value: the feedback term is a zero. -/
theorem run_word_key (h : d.Remembers x cap lag n) (hx : (x n).isFinite = true) :
    ((d.run (x n)).1.buffer.read d.writePos).key = (x n).key := by
  rw [run_buffer, Memory.read_write_self h.buffer_wf, h.feedbackGain_eq, F.key_add_mul_zero hx h.output_finite]

theorem run_word_other (x : F) {i : Nat} (hi : i ≠ d.writePos) :
    (d.run x).1.buffer.read i = d.buffer.read i := by
  rw [run_buffer, Memory.read_write_other _ hi]

/-- A run turns the newest word into the input it took and every other one a run older; it overwrites the word that
is `cap` runs old. -/
theorem run (h : d.Remembers x cap lag n) (hx : (x n).isFinite = true) :
    (d.run (x n)).1.Remembers x cap lag (n + 1) where
  capacity_eq := h.capacity_eq
  writePos_lt := by
    rw [run_writePos, h.capacity_eq]
    exact Nat.mod_lt _ (Nat.zero_lt_of_lt h.writePos_lt)
  readPosFloor_eq := by
    rw [run_readPosFloor, run_writePos, h.capacity_eq, h.readPosFloor_eq]
    exact modPos_advance (Nat.zero_lt_of_lt h.writePos_lt)
  feedbackGain_eq := h.feedbackGain_eq
  frac_eq := h.frac_eq
  buffer_wf := Memory.wf_write h.buffer_wf _ _
  word_finite i := by
    by_cases hi : i = d.writePos
    · exact hi ▸ F.isFinite_of_key (h.run_word_key hx) hx
    · exact run_word_other (x n) hi ▸ h.word_finite i
  word_key
    | 0, h1, _ => absurd h1 (by omega)
    | 1, _, _ => by
      have hw : modPos ((d.writePos : Int) - (0 : Nat)) cap = d.writePos := by
        rw [modPos_back h.writePos_lt (by omega), if_pos (Nat.zero_le _), Nat.sub_zero]
      rw [run_writePos, h.capacity_eq, modPos_back_next _ 0, hw, h.run_word_key hx, pastInput_one]
    | i + 2, _, h2 => by
      have hw : modPos ((d.writePos : Int) - ((i + 1 : Nat) : Int)) cap ≠ d.writePos := by
        have := h.writePos_lt
        rw [modPos_back h.writePos_lt (by omega)]
        split_ifs <;> omega
      rw [run_writePos, h.capacity_eq, modPos_back_next _ (i + 1), run_word_other (x n) hw, pastInput_next]
      exact h.word_key (i + 1) (by omega) (by omega)

end DelayLine.Remembers

/-- The number of runs a line delays its input: its lag, and the capacity for lag 0, where the word read is the one
that this run overwrites (rule R110). -/
def DelayLine.delay (d : DelayLine) : Nat := if d.lagFloor = 0 then d.capacity else d.lagFloor

theorem DelayLine.delay_range {d : DelayLine} (h : d.lagFloor < d.capacity) :
    1 ≤ d.delay ∧ d.delay ≤ d.capacity := by
  unfold DelayLine.delay
  split_ifs <;> omega

theorem DelayLine.modPos_delay {d : DelayLine} (hw : d.writePos < d.capacity) :
    modPos ((d.writePos : Int) - (d.lagFloor : Int)) d.capacity =
      modPos ((d.writePos : Int) - (d.delay : Int)) d.capacity := by
  unfold DelayLine.delay
  split_ifs with h0
  · rw [h0, modPos_back hw (Nat.zero_le _), modPos_back hw le_rfl]
    split_ifs <;> omega
  · rfl

/-- A silent line remembers zeros. -/
theorem DelayLine.remembers_silent {d : DelayLine} (x : Nat → F) (hwf : d.buffer.wf = true)
    (hw : d.writePos < d.capacity)
    (hr : d.readPosFloor = modPos ((d.writePos : Int) - (d.lagFloor : Int)) d.capacity)
    (hg : d.feedbackGain = F.zero) (hf : d.frac = F.zero) (hz : ∀ i, d.buffer.read i = F.zero) :
    d.Remembers x d.capacity d.delay 0 where
  capacity_eq := rfl
  writePos_lt := hw
  readPosFloor_eq := hr.trans (modPos_delay hw)
  feedbackGain_eq := hg
  frac_eq := hf
  buffer_wf := hwf
  word_finite i := by rw [hz]; rfl
  word_key i h1 _ := by rw [hz, pastInput_first h1]

/-- Run by run on finite inputs the line keeps remembering them. -/
theorem DelayLine.Remembers.always {d : DelayLine} {x : Nat → Word} {st : Nat → State} {cap lag : Nat}
    (h : d.Remembers (fun k => F.ofBits (x k)) cap lag 0) (h0 : (st 0).device = .dl d)
    (hx : ∀ n, (F.ofBits (x n)).isFinite = true)
    (hst : ∀ n, exec (.dlRun (x n)) (st n) = .next (st (n + 1))) (n : Nat) :
    ∃ e, (st n).device = .dl e ∧ e.Remembers (fun k => F.ofBits (x k)) cap lag n := by
  induction n with
  | zero => exact ⟨d, h0, h⟩
  | succ n ih =>
    obtain ⟨e, he, hr⟩ := ih
    have hnext := gives_next ((exec_dlRun he (x n)).symm.trans (hst n))
    exact ⟨(e.run (F.ofBits (x n))).1, by rw [hnext, State.answer_device], hr.run (hx n)⟩

end Sys2Proof.Machine

namespace Sys2Proof.Proofs

open Sys2Proof.Machine

/-- Settles O4: inside its domain `DL.SETMAX` completes (`exec_dlSetmax`) with a `retime` of the resized line; with
`c = 1` its memory is the cleared one, and with `c = 0` the resized one (`Memory.read_resize_grown`). -/
theorem dlSetmaxResizes : Obligations.DlSetmaxResizes := by
  intro s d a m n hd ha hfit
  constructor
  case left =>
    refine ⟨_, d.setMax true (F.ofBits a), exec_dlSetmax hd true ha hfit, rfl, fun i => ?_⟩
    rw [DelayLine.setMax_true_buffer, Memory.read_cleared]
  case right =>
    intro hin
    refine ⟨_, d.setMax false (F.ofBits a), exec_dlSetmax hd false ha hfit, rfl, fun i hi => ?_⟩
    rw [DelayLine.setMax_false_buffer]
    exact Memory.read_resize_grown hin hi

/-- Settles O10: by induction on the runs the line remembers its last `capacity` inputs
(`DelayLine.Remembers.always`), and its output is the one taken `delay` runs ago (`output_key`). -/
theorem dlPureDelay : Obligations.DlPureDelay := by
  intro d x st hwf hw hlag hr hg hf hz h0 hx hst delay n
  obtain ⟨hpos, hle⟩ := DelayLine.delay_range hlag
  obtain ⟨e, he, hrem⟩ := (DelayLine.remembers_silent _ hwf hw hr hg hf hz).always h0 hx hst n
  have hnext := gives_next ((exec_dlRun he (x n)).symm.trans (hst n))
  refine ⟨resultF (st n).free 0 e.output, by rw [hnext, State.answer_rsp]; rfl, ?_⟩
  rw [ofBits_resultF]
  exact F.eqv_of_key (hrem.output_key hpos hle) (F.number_of_finite hrem.output_finite)

/-- Settles O1: `DL.RUN` answers what the run of the line gives (`exec_dlRun`), and the port carries the output
(`ofBits_resultF`). -/
theorem dlRunReadsInterpolatedThenWrites : Obligations.DlRunReadsInterpolatedThenWrites :=
  ⟨fun _ _ => rfl, fun _ d a hd => ⟨_, _, exec_dlRun hd a, ofBits_resultF _ 0 (d.run (F.ofBits a)).2⟩⟩

/-- Settles O3: inside its domain `DL.SETTIME` completes with the `retime` of its operand (`exec_dlSettime`). -/
theorem dlSettimeRetimes : Obligations.DlSettimeRetimes :=
  ⟨fun _ _ => rfl, fun _ _ _ hd ha => ⟨_, exec_dlSettime hd ha⟩⟩

/-- Settles O5: inside its domain `DL.SETSR` completes with the rebuilt line (`exec_dlSetsr`), whose memory is the
cleared one (`setRate_buffer`). -/
theorem dlSetsrRebuilds : Obligations.DlSetsrRebuilds := by
  intro s d a sr hd ha hfit
  refine ⟨_, d.setRate (F.ofBits a), exec_dlSetsr hd ha hfit, rfl, fun i => ?_, rfl⟩
  rw [setRate_buffer]
  rfl

/-- Settles O6: `DL.CLEAR` completes with the cleared memory (`exec_dlClear`) in the same line. -/
theorem dlClearZeroesWords : Obligations.DlClearZeroesWords := fun _ d hd =>
  ⟨_, d.clear, exec_dlClear hd, rfl, Memory.read_cleared, rfl⟩

end Sys2Proof.Proofs
end


section
/-! Proofs for `41_comb_allpass.md`: what each command of the comb filter and of the allpass filter answers
(rules R121 to R128). -/

set_option Elab.async false

namespace Sys2Proof.Machine

/-! ### The comb filter (rules R121 to R124) -/

/-- A comb filter fits a sample rate when both its lines do (rule R262). -/
theorem CombFilter.fitsAt_iff {c : CombFilter} {sr : F} :
    c.fitsAt sr = true ↔ c.ff.fitsAt sr = true ∧ c.fb.fitsAt sr = true := Bool.and_eq_true_iff

section
variable {s : State} {c : CombFilter} (hc : s.device = .cf c)
include hc

theorem exec_cfRun (a : Word) :
    exec (.cfRun a) s = s.gives (.cf (c.run (F.ofBits a)).1) (c.run (F.ofBits a)).2 := onCf_of _ hc

theorem exec_cfSettime {a : Word} (ha : (F.ofBits a).isFinite = true) :
    exec (.cfSettime a) s = s.done (.cf (c.setTime (F.ofBits a))) :=
  (onCf_of _ hc).trans (finiteOperand_of _ ha)

theorem exec_cfSetsr {a : Word} (ha : (F.ofBits a).isFinite = true) (hfit : c.fitsAt (F.ofBits a) = true) :
    exec (.cfSetsr a) s = s.done (.cf (c.setRate (F.ofBits a))) :=
  (onCf_of _ hc).trans ((finiteOperand_of _ ha).trans (whenFits_of _ hfit))

theorem exec_cfClear : exec .cfClear s = s.done (.cf c.clear) := onCf_of _ hc

end

/-! ### The allpass filter (rules R125 to R128) -/

/-- An allpass filter fits a sample rate when both its lines do (rule R262). -/
theorem AllpassFilter.fitsAt_iff {f : AllpassFilter} {sr : F} :
    f.fitsAt sr = true ↔ f.ff.fitsAt sr = true ∧ f.fb.fitsAt sr = true := Bool.and_eq_true_iff

section
variable {s : State} {f : AllpassFilter} (hf : s.device = .ap f)
include hf

theorem exec_apRun (a : Word) :
    exec (.apRun a) s = s.gives (.ap (f.run (F.ofBits a)).1) (f.run (F.ofBits a)).2 := onAp_of _ hf

theorem exec_apSettime {a : Word} (ha : (F.ofBits a).isFinite = true) :
    exec (.apSettime a) s = s.done (.ap (f.setTime (F.ofBits a))) :=
  (onAp_of _ hf).trans (finiteOperand_of _ ha)

theorem exec_apSetsr {a : Word} (ha : (F.ofBits a).isFinite = true) (hfit : f.fitsAt (F.ofBits a) = true) :
    exec (.apSetsr a) s = s.done (.ap (f.setRate (F.ofBits a))) :=
  (onAp_of _ hf).trans ((finiteOperand_of _ ha).trans (whenFits_of _ hfit))

theorem exec_apClear : exec .apClear s = s.done (.ap f.clear) := onAp_of _ hf

end

end Sys2Proof.Machine

namespace Sys2Proof.Proofs

open Sys2Proof.Machine

/-- Settles O11: `CF.RUN` answers what the run of the filter gives (`exec_cfRun`), and the port carries the output
(`ofBits_resultF`). -/
theorem cfRunCombinesBothLines : Obligations.CfRunCombinesBothLines :=
  ⟨fun _ _ => rfl, fun _ c a hc => ⟨_, _, exec_cfRun hc a, ofBits_resultF _ 0 (c.run (F.ofBits a)).2⟩⟩

/-- Settles O12: inside its domain each command completes with its own update of the filter (`exec_cfSettime`,
`exec_cfSetsr`, `exec_cfClear`); `CF.SETSR` is inside it when both lines fit (`CombFilter.fitsAt_iff`). -/
theorem cfSettersReachBothLines : Obligations.CfSettersReachBothLines := by
  intro s c a hc
  refine ⟨fun ha => ?settime, fun ha hff hfb => ?setsr, ?clear⟩
  case settime => exact ⟨_, exec_cfSettime hc ha⟩
  case setsr => exact ⟨_, exec_cfSetsr hc ha (CombFilter.fitsAt_iff.2 ⟨hff, hfb⟩)⟩
  case clear => exact ⟨_, exec_cfClear hc⟩

/-- Settles O13: `AP.RUN` answers what the run of the filter gives (`exec_apRun`), and the port carries the output
(`ofBits_resultF`). -/
theorem apRunCombinesBothLines : Obligations.ApRunCombinesBothLines :=
  ⟨fun _ _ => rfl, fun _ f a hf => ⟨_, _, exec_apRun hf a, ofBits_resultF _ 0 (f.run (F.ofBits a)).2⟩⟩

/-- Settles O14: inside its domain each command completes with its own update of the filter (`exec_apSettime`,
`exec_apSetsr`, `exec_apClear`); `AP.SETSR` is inside it when both lines fit (`AllpassFilter.fitsAt_iff`). -/
theorem apSettersReachBothLines : Obligations.ApSettersReachBothLines := by
  intro s f a hf
  refine ⟨fun ha => ?settime, fun ha hff hfb => ?setsr, ?clear⟩
  case settime => exact ⟨_, exec_apSettime hf ha⟩
  case setsr => exact ⟨_, exec_apSetsr hf ha (AllpassFilter.fitsAt_iff.2 ⟨hff, hfb⟩)⟩
  case clear => exact ⟨_, exec_apClear hf⟩

end Sys2Proof.Proofs
end


section
/-! Proofs for `42_biquad.md`: what each command of the biquad answers (rules R142 to R149). -/

set_option Elab.async false

namespace Sys2Proof.Machine

section
variable {s : State} {q : Biquad} (hq : s.device = .bq q)
include hq

theorem exec_bqRun (a : Word) :
    exec (.bqRun a) s = s.gives (.bq (q.run (F.ofBits a)).1) (q.run (F.ofBits a)).2 := onBq_of _ hq

theorem exec_bqSetsr {a : Word} (ha : (F.ofBits a).isFinite = true) :
    exec (.bqSetsr a) s = s.done (.bq (q.setRate (F.ofBits a))) :=
  (onBq_of _ hq).trans (finiteOperand_of _ ha)

/-- The cutoff alone is also taken from an infinite operand, which its clamp sends to a bound (rule R144). -/
theorem exec_bqSetcut {a : Word} (ha : (F.ofBits a).isNan = false) :
    exec (.bqSetcut a) s = s.done (.bq (q.setCutoff (F.ofBits a))) :=
  (onBq_of _ hq).trans (numberOperand_of _ ha)

theorem exec_bqSetq {a : Word} (ha : (F.ofBits a).isFinite = true) :
    exec (.bqSetq a) s = s.done (.bq (q.setQ (F.ofBits a))) :=
  (onBq_of _ hq).trans (finiteOperand_of _ ha)

theorem exec_bqSetgain {a : Word} (ha : (F.ofBits a).isFinite = true) :
    exec (.bqSetgain a) s = s.done (.bq (q.setGain (F.ofBits a))) :=
  (onBq_of _ hq).trans (finiteOperand_of _ ha)

theorem exec_bqSettype (a : Word) : exec (.bqSettype a) s = s.done (.bq (q.setType a.toInt)) := onBq_of _ hq

theorem exec_bqClear : exec .bqClear s = s.done (.bq q.clear) := onBq_of _ hq

end

end Sys2Proof.Machine

namespace Sys2Proof.Proofs

open Sys2Proof.Machine

/-- Settles O15: the run shifts the history before it reads it, by its definition; `BQ.RUN` answers what the run
gives (`exec_bqRun`), and the port carries the output (`ofBits_resultF`). -/
theorem bqRunShiftsThenRecurs : Obligations.BqRunShiftsThenRecurs :=
  ⟨fun _ _ => rfl, fun _ q a hq => ⟨_, _, exec_bqRun hq a, ofBits_resultF _ 0 (q.run (F.ofBits a)).2⟩⟩

/-- Settles O16: on a finite operand each setter completes with its own update of the biquad, which ends in
`Biquad.recompute` (`exec_bqSetsr`, `exec_bqSetcut`, `exec_bqSetq`, `exec_bqSetgain`). -/
theorem bqSettersRecompute : Obligations.BqSettersRecompute := by
  intro s q a hq ha
  refine ⟨?setsr, ?setcut, ?setq, ?setgain⟩
  case setsr => exact ⟨_, exec_bqSetsr hq ha⟩
  case setcut => exact ⟨_, exec_bqSetcut hq (F.number_of_finite ha)⟩
  case setq => exact ⟨_, exec_bqSetq hq ha⟩
  case setgain => exact ⟨_, exec_bqSetgain hq ha⟩

/-- Settles O17: `BQ.SETTYPE` completes with the type of its integer operand (`exec_bqSettype`), whose code is the
clamped integer (`BiquadType.code_ofInt`). -/
theorem bqSettypeClamps : Obligations.BqSettypeClamps := fun _ _ a hq =>
  ⟨_, BiquadType.ofInt a.toInt, exec_bqSettype hq a, BiquadType.code_ofInt a.toInt⟩

/-- Settles O18: `BQ.CLEAR` completes with the cleared history (`exec_bqClear`) in the same biquad. -/
theorem bqClearZeroesHistory : Obligations.BqClearZeroesHistory := fun _ _ hq => ⟨_, exec_bqClear hq⟩

end Sys2Proof.Proofs
end

section
/-! Laws of the arithmetic that `43_modulators.md` rests on: the whole part of a phase below `2.0`, and a
period and its fractions (rules R163, R165, R166). -/

set_option Elab.async false

namespace Sys2Proof

/-! ### The order of exact values -/

/-- Rounding takes an exact value back to its magnitude, so a greater magnitude has a greater value. -/
theorem magUnits_lt {m n : Nat} (h : m < n) : magUnits m < magUnits n := by
  refine lt_of_le_of_ne (magUnits_mono h.le) fun e => h.ne ?_
  rw [← roundMag_exact m 1 Nat.one_pos, e, roundMag_exact n 1 Nat.one_pos]

/-- What is at least the exact value of a magnitude rounds to that magnitude at least. -/
theorem le_roundMag {m n d : Nat} (hd : 0 < d) (h : magUnits m * d ≤ n) : m ≤ roundMag n d := by
  have := roundMag_mono (n := magUnits m * 1) (d' := d) Nat.one_pos hd (by simpa using h)
  rwa [roundMag_exact m 1 Nat.one_pos] at this

theorem F.units_lt_units {a b : F} (ha : finiteNonneg a = true) (hb : finiteNonneg b = true)
    (h : a.lt b = true) : a.units < b.units := by
  obtain ⟨s, m, rfl, hs⟩ := finiteNonneg_cases ha
  obtain ⟨t, n, rfl, ht⟩ := finiteNonneg_cases hb
  rw [F.units_of_nonneg hs, F.units_of_nonneg ht]
  have hmn : m.val < n.val := by
    by_contra hle
    simp [F.not_lt_of_le ((F.fin_le_fin ht hs).2 (not_lt.1 hle))] at h
  exact_mod_cast magUnits_lt hmn

/-- No place of the order is above that of `+∞`. -/
theorem F.key_le_limit {a : F} {x : Int} (h : a.key = some x) : x ≤ magLimit := by
  cases a with
  | nan => cases h
  | inf s => cases s <;> cases h <;> decide
  | fin s m =>
    have := m.isLt
    cases s <;> cases h <;> simp only [if_true, Bool.false_eq_true, if_false] <;> omega

/-- What is not negative and below some value is finite. -/
theorem F.finiteNonneg_of_lt {a b : F} (h0 : F.zero.le a = true) (h : a.lt b = true) :
    finiteNonneg a = true := by
  have hf : a.isFinite = true := by
    cases a with
    | nan => exact absurd h0 (by decide)
    | fin s m => rfl
    | inf s =>
      cases s with
      | true => exact absurd h0 (by decide)
      | false =>
        obtain ⟨x, y, hx, hy, hxy⟩ := F.lt_iff.1 h
        cases hx
        exact absurd (F.key_le_limit hy) (not_le.2 hxy)
  simp [finiteNonneg, hf, h0]

theorem F.units_one : F.one.units = unitsPerOne := by decide +kernel
theorem F.units_two : F.two.units = unitsPerOne + unitsPerOne := by decide +kernel

/-! ### Whole parts (rule R16) -/

theorem F.ofInt_zero : F.ofInt 0 = F.zero := by decide +kernel
theorem F.ofInt_one : F.ofInt 1 = F.one := by decide +kernel

/-- The floor is the only whole number at most the value and less than one below it. -/
theorem F.floor_eq {x : F} {k : Int} (h : x.isFinite = true) (hlo : k * unitsPerOne ≤ x.units)
    (hhi : x.units < k * unitsPerOne + unitsPerOne) : x.floor = k := by
  have hU : (0 : Int) < unitsPerOne := by exact_mod_cast unitsPerOne_pos
  obtain ⟨flo, fhi⟩ := F.floor_bounds h
  have h1 : x.floor < k + 1 := lt_of_mul_lt_mul_right (by linarith) hU.le
  have h2 : k < x.floor + 1 := lt_of_mul_lt_mul_right (by linarith) hU.le
  omega

theorem F.floor_of_lt_one {x : F} (h0 : F.zero.le x = true) (h1 : x.lt F.one = true) : x.floor = 0 := by
  have hx := F.finiteNonneg_of_lt h0 h1
  have hf := (Machine.finiteNonneg_iff hx).2
  have hlt := F.units_lt_units hx (by decide) h1
  rw [F.units_one] at hlt
  exact F.floor_eq hf (by rw [Int.zero_mul]; exact F.units_nonneg h0 hf)
    (by rwa [Int.zero_mul, Int.zero_add])

theorem F.floor_of_lt_two {x : F} (h1 : F.one.le x = true) (h2 : x.lt F.two = true) : x.floor = 1 := by
  have hx := F.finiteNonneg_of_lt (F.le_trans F.zero_le_one h1) h2
  have hle := F.units_le_units (by decide) hx h1
  have hlt := F.units_lt_units hx (by decide) h2
  rw [F.units_one] at hle
  rw [F.units_two] at hlt
  exact F.floor_eq (Machine.finiteNonneg_iff hx).2 (by rwa [Int.one_mul]) (by rwa [Int.one_mul])

/-- The ceiling of a positive value is positive. -/
theorem F.one_le_ceil {x : F} (h : x.isFinite = true) (hx : 0 < x.units) : 1 ≤ x.ceil := by
  have hU : (0 : Int) < unitsPerOne := by exact_mod_cast unitsPerOne_pos
  have := Int.ediv_neg_of_neg_of_pos (neg_neg_of_pos hx) hU
  rw [F.ceil_of_finite h]
  omega

/-! ### Exact and zero results (rule R14) -/

/-- Subtracting `+0.0` changes nothing, the sign of a zero included. -/
theorem F.sub_zero (x : F) : x.sub F.zero = x := by
  rw [F.zero_eq]
  cases x with
  | nan => rfl
  | inf s => rfl
  | fin s m =>
    by_cases hm : m.val = 0
    · obtain rfl : m = ⟨0, by norm_num⟩ := Fin.ext hm
      exact (F.zero_add_zero s true).trans (by rw [Bool.and_true])
    · exact F.fin_add_zero s true m hm

theorem F.ofInt_natCast (n : Nat) : F.ofInt n = F.roundUnits false (n * unitsPerOne) 1 := by
  rw [F.ofInt, decide_eq_false (not_lt.2 (Int.natCast_nonneg n)), Int.natAbs_natCast]

/-- A positive whole number is at least `1.0` as an `F`, also where it overflows. -/
theorem F.one_le_ofInt {n : Nat} (h : 1 ≤ n) : F.one.le (F.ofInt n) = true := by
  have hmag : 0x3FF0000000000000 ≤ roundMag (n * unitsPerOne) 1 := by
    refine le_roundMag Nat.one_pos ?_
    rw [magUnits_one, Nat.mul_one]
    exact Nat.le_mul_of_pos_left _ h
  rw [F.ofInt_natCast, F.one_eq, F.roundUnits]
  split_ifs
  · exact (F.fin_le_fin (by simp) (by simp)).2 hmag
  · decide

/-- `+0.0` over anything from `1.0` up is `+0.0`. -/
theorem F.zero_div {x : F} (h : F.one.le x = true) : F.zero.div x = F.zero := by
  cases x with
  | nan => exact absurd h (by decide)
  | inf s => cases s <;> revert h <;> decide
  | fin s n =>
    obtain ⟨k, hk, hn⟩ := Machine.rateLegal_fin ⟨rfl, h⟩
    rw [hk, F.zero_eq, F.div_fin _ _ _ _ hn]
    simpa using F.roundUnits_zero false _ (Nat.pos_of_ne_zero fun h0 => hn (magUnits_eq_zero.1 h0))

theorem magUnits_le_one_sq {n : Nat} (hn : n < magLimit) : magUnits n ≤ unitsPerOne * unitsPerOne :=
  (magUnits_mono hn.le).trans (by decide +kernel)

/-- A positive finite value has a plus sign. -/
theorem finitePos_fin {x : F} (h : finitePos x = true) : ∃ n : Fin magLimit, x = .fin false n ∧ n.val ≠ 0 := by
  simp only [finitePos, Bool.and_eq_true] at h
  obtain ⟨hf, h0⟩ := h
  cases x with
  | nan => cases hf
  | inf s => cases hf
  | fin s n =>
    cases s with
    | false => exact ⟨n, rfl, fun hn => by simp [F.lt, F.zero_eq, F.key, hn] at h0⟩
    | true => exact absurd h0 (by simp [F.lt, F.zero_eq, F.key])

/-- A value from `1.0` up over a positive value does not round to zero: the largest finite value is below
`2^1074`, the inverse of the least positive one. -/
theorem F.div_units_pos {x y : F} (hx : x.isFinite = true) (h1 : F.one.le x = true) (hy : finitePos y = true)
    (hf : (x.div y).isFinite = true) : 0 < (x.div y).units := by
  obtain ⟨m, rfl, -⟩ := Machine.rateLegal_fin ⟨hx, h1⟩
  obtain ⟨n, rfl, hn⟩ := finitePos_fin hy
  have hd : 0 < magUnits n.val := Nat.pos_of_ne_zero fun h0 => hn (magUnits_eq_zero.1 h0)
  have hm : unitsPerOne ≤ magUnits m.val := by
    rw [F.one_eq, F.fin_le_fin (by simp) (by simp)] at h1
    exact magUnits_one ▸ magUnits_mono h1
  have hmag : 1 ≤ roundMag (magUnits m.val * unitsPerOne) (magUnits n.val) := by
    refine le_roundMag hd ?_
    rw [show magUnits 1 = 1 from rfl, Nat.one_mul]
    exact (magUnits_le_one_sq n.isLt).trans (Nat.mul_le_mul_right _ hm)
  rw [F.div_fin _ _ _ _ hn] at hf ⊢
  obtain ⟨hb, e⟩ := F.roundUnits_finite hf
  rw [e, F.units_of_nonneg (by simp)]
  have hpos := (magUnits_lt Nat.one_pos).trans_le (magUnits_mono hmag)
  exact Int.natCast_pos.2 (by rwa [magUnits_zero] at hpos)

/-! ### Draws (rule R170) -/

/-- A legal draw is a finite value in `[-1, 1]`. -/
theorem legalDraw_iff {r : F} :
    legalDraw r = true ↔ r.isFinite = true ∧ F.negOne.le r = true ∧ r.le F.one = true := by
  simp only [legalDraw, Bool.and_eq_true, iff_and_self, and_imp]
  intro hlo hhi
  cases r with
  | nan => exact absurd hlo (by decide)
  | inf s =>
    cases s with
    | false => exact absurd hhi (by decide)
    | true => exact absurd hlo (by decide)
  | fin s m => rfl

end Sys2Proof
end

section
/-! Proofs for `43_modulators.md`: what each command of the two modulators answers, the wrap of a phase, and
the period of a random modulator (rules R161 to R168). -/

set_option Elab.async false

namespace Sys2Proof.Machine

/-! ### The wrap of a phase (rule R163) -/

/-- Of a phase that is not negative the wrap is the fractional part: its test for `1.0` is for tiny negative
phases. -/
theorem wrapPhase_of_nonneg {p : F} (h : finiteNonneg p = true) : wrapPhase p = p.sub (F.ofInt p.floor) := by
  have hlt := F.sub_floor_lt_one h
  refine if_neg fun hle => ?_
  simp [F.not_lt_of_le hle] at hlt

/-! ### What the commands of an LFO answer (rules R161, R162) -/

section
variable {s : State} {l : Lfo} (hl : s.device = .lfo l)
include hl

theorem exec_lfoRun : exec .lfoRun s = s.gives (.lfo l.run.1) l.run.2 := onLfo_of _ hl

theorem exec_lfoSetsr {a : Word} (ha : (F.ofBits a).isFinite = true) :
    exec (.lfoSetsr a) s = s.done (.lfo (l.setRate (F.ofBits a))) :=
  (onLfo_of _ hl).trans (finiteOperand_of _ ha)

end

/-! ### What the commands of an RM answer (rules R165, R166) -/

section
variable {s : State} {m : RandomMod} (hm : s.device = .rm m)
include hm

theorem exec_rmRun :
    exec .rmRun s = s.gives (.rm (m.run (drawF s.free 0)).1) (m.run (drawF s.free 0)).2 := onRm_of _ hm

theorem exec_rmSetsr {a : Word} (ha : (F.ofBits a).isFinite = true) :
    exec (.rmSetsr a) s = s.done (.rm (m.setRate (F.ofBits a))) :=
  (onRm_of _ hm).trans (finiteOperand_of _ ha)

end

/-! ### The period and the ramp of an RM -/

theorem periodOf_of_finite {rate f : F} (h : (rate.div f).isFinite = true) :
    periodOf rate f = (rate.div f).ceil.toNat := if_pos h

/-- A period has at least one step (rule R166). -/
theorem periodOf_pos {rate f : F} (hr : rateLegal rate) (hf : finitePos f = true) : 1 ≤ periodOf rate f := by
  by_cases hq : (rate.div f).isFinite = true
  · have := F.one_le_ceil hq (F.div_units_pos hr.1 hr.2 hf hq)
    rw [periodOf_of_finite hq]
    omega
  · exact (le_max_left _ _).trans_eq (if_neg hq).symm

/-- At the start of a period the ramp from `+0.0` is at `+0.0`, wherever it goes. -/
theorem RandomMod.ramp_start {m : RandomMod} (h0 : m.elapsedSteps = 0) (hp : 1 ≤ m.stepsPerPeriod)
    (hc : m.current = F.zero) (hn : m.next.isFinite = true) : m.ramp = F.zero := by
  obtain ⟨s, k, hk⟩ : ∃ s k, m.next = .fin s k := by
    cases h : m.next <;> simp [h, F.isFinite] at hn ⊢
  rw [RandomMod.ramp, h0, hc, F.sub_zero, Nat.cast_zero, F.ofInt_zero, F.zero_div (F.one_le_ofInt hp), hk,
    F.fin_mul_zero, F.zero_eq, F.zero_add_zero, Bool.false_and]

/-- A run leaves the counter inside the period, wherever it was before (rule R168). -/
theorem RandomMod.run_elapsed {m : RandomMod} (hp : 1 ≤ m.stepsPerPeriod) (r : F) :
    (m.run r).1.stepsPerPeriod = m.stepsPerPeriod ∧ 1 ≤ (m.run r).1.elapsedSteps ∧
      (m.run r).1.elapsedSteps ≤ (m.run r).1.stepsPerPeriod := by
  rcases m.run_cases r with ⟨-, e⟩ | ⟨hlt, e⟩ <;> rw [e]
  · exact ⟨rfl, le_rfl, hp⟩
  · exact ⟨rfl, Nat.le_add_left 1 _, hlt⟩

/-- A new modulator draws in its first run, and answers the start of the ramp from `+0.0` (rule R165, corner
case (a)). -/
theorem mkRandomMod_run {sr f r : F} (hp : 1 ≤ periodOf (clampRate sr) f) (hr : r.isFinite = true) :
    (mkRandomMod sr f).run r = ({ mkRandomMod sr f with next := r, elapsedSteps := 1 }, F.zero) := by
  have e : (mkRandomMod sr f).turn r = { mkRandomMod sr f with next := r, elapsedSteps := 0 } :=
    if_pos (le_refl (periodOf (clampRate sr) f))
  rw [RandomMod.run, e]
  exact Prod.ext rfl (RandomMod.ramp_start rfl hp rfl hr)

end Sys2Proof.Machine

namespace Sys2Proof.Proofs

open Sys2Proof.Machine

/-- Settles O20: the range is `wrapPhase_unit`; from `0.0` up the wrap is the fractional part
(`wrapPhase_of_nonneg`), whose whole part is `0` below `1.0` and `1` below `2.0`. -/
theorem wrapReducesToUnitInterval : Obligations.WrapReducesToUnitInterval := by
  refine ⟨fun _ => rfl, fun _ => wrapPhase_unit, fun p h0 h1 => ?zero, fun p h1 h2 => ?one⟩
  case zero =>
    rw [wrapPhase_of_nonneg (F.finiteNonneg_of_lt h0 h1), F.floor_of_lt_one h0 h1, F.ofInt_zero, F.sub_zero]
  case one =>
    rw [wrapPhase_of_nonneg (F.finiteNonneg_of_lt (F.le_trans F.zero_le_one h1) h2), F.floor_of_lt_two h1 h2,
      F.ofInt_one]

/-- Settles O23: the period of a good modulator has a step (`periodOf_pos`), so its run either restarts the
counter at 1 or advances it inside the period (`RandomMod.run_elapsed`). -/
theorem rmCounterBounded : Obligations.RmCounterBounded := by
  intro s m hm hInv _
  have hp : 1 ≤ m.stepsPerPeriod := hInv.steps_eq ▸ periodOf_pos hInv.rate hInv.frequency
  exact ⟨_, _, exec_rmRun hm, rfl, RandomMod.run_elapsed hp _⟩

/-- Settles O24: the first run is `mkRandomMod_run` with the draw of `RM.RUN`, which is legal
(`drawF_legal`), and `+0.0` on the port is the zero word (`resultF_zero`). -/
theorem rmFirstRunIsZero : Obligations.RmFirstRunIsZero := by
  intro s sr f hsr hf _ hm
  have hlegal := drawF_legal s.free 0
  have hrun := mkRandomMod_run (periodOf_pos (clampRate_legal hsr) hf) (legalDraw_iff.1 hlegal).1
  refine ⟨_, _, exec_rmRun hm, ?rsp, rfl, ?_⟩ <;> rw [hrun]
  case rsp => rw [State.answer_rsp, resultF_zero]; rfl
  exact ⟨rfl, hlegal, rfl⟩

/-- Settles O19: `LFO.RUN` answers what the run gives (`exec_lfoRun`), and the port carries the output
(`ofBits_resultF`). -/
theorem lfoRunAdvancesPhase : Obligations.LfoRunAdvancesPhase :=
  ⟨fun _ => rfl, fun _ l hl => ⟨_, _, exec_lfoRun hl, ofBits_resultF _ 0 l.run.2⟩⟩

/-- Settles O21: both setters complete with their own update of the modulator (`exec_lfoSetsr`,
`exec_rmSetsr`); a finite quotient has its ceiling as the period (`periodOf_of_finite`). -/
theorem modulatorSetsrKeepsPosition : Obligations.ModulatorSetsrKeepsPosition := by
  intro s a ha
  refine ⟨fun l hl => ⟨_, exec_lfoSetsr hl ha⟩, fun m hm hq => ⟨s.free + 1, ?_⟩⟩
  rw [exec_rmSetsr hm ha, ← periodOf_of_finite hq]
  rfl

/-- Settles O22: the run is its rule by definition; `RM.RUN` is the run for the draw of its step
(`exec_rmRun`), a legal one (`drawF_legal`), and the port carries the output (`ofBits_resultF`). -/
theorem rmRunRampsToDraw : Obligations.RmRunRampsToDraw := by
  refine ⟨fun _ _ => rfl, fun s m hm => ?_⟩
  obtain ⟨hfin, hlo, hhi⟩ := legalDraw_iff.1 (drawF_legal s.free 0)
  exact ⟨_, _, _, hfin, hlo, hhi, exec_rmRun hm, ofBits_resultF _ 0 _⟩

end Sys2Proof.Proofs
end

section
/-! Proofs for `44_block.md`: what each command of a block answers, what a run does to one channel, and the
rates after `BK.SETSR` (rules R183 to R194). -/

set_option Elab.async false

namespace Sys2Proof.Machine

/-! ### What a command answers on a block -/

section
variable {s : State} {k : Block} (hk : s.device = .bk k)
include hk

theorem exec_bkRun (a b : Word) :
    exec (.bkRun a b) s =
      s.givesPair (.bk (k.run s.free ⟨F.ofBits a, F.ofBits b⟩).1) (k.run s.free ⟨F.ofBits a, F.ofBits b⟩).2 :=
  onBk_of _ hk

/-- The whole next state of `BK.RUN`, with both outputs read back from the ports (rule R18). -/
theorem exec_bkRun_next (a b : Word) :
    ∃ n r0 r1, exec (.bkRun a b) s =
        .next { s with
          device := .bk (k.run s.free ⟨F.ofBits a, F.ofBits b⟩).1, rsp := some ⟨r0, r1⟩, free := n } ∧
      F.ofBits r0 = (k.run s.free ⟨F.ofBits a, F.ofBits b⟩).2.left ∧
      F.ofBits r1 = (k.run s.free ⟨F.ofBits a, F.ofBits b⟩).2.right :=
  ⟨_, _, _, exec_bkRun hk a b, ofBits_resultF _ _ _, ofBits_resultF _ _ _⟩

theorem exec_bkSetsr {a : Word} (ha : (F.ofBits a).isFinite = true) (hfit : k.fitsAt (F.ofBits a) = true) :
    exec (.bkSetsr a) s = s.done (.bk (k.setRate (F.ofBits a))) :=
  (onBk_of _ hk).trans ((finiteOperand_of _ ha).trans (whenFits_of _ hfit))

theorem exec_bkClear : exec .bkClear s = s.done (.bk k.clear) := onBk_of _ hk

end

/-! ### The retunes of block 4 (rule R191) -/

/-- The last of two times set is the one that counts: a time is clamped to bounds that no time changes, and the
lags are computed from the time alone. -/
theorem DelayLine.setTime_setTime (d : DelayLine) (t u : F) : (d.setTime t).setTime u = d.setTime u := rfl

theorem AllpassFilter.setTime_setTime (a : AllpassFilter) (t u : F) :
    (a.setTime t).setTime u = a.setTime u := by
  simp only [AllpassFilter.setTime, DelayLine.setTime_setTime]

/-- What the retune of a modulator with the output `m` does to the filter `f` at the index `i`. -/
def retuneAt (t : RmRec) (m : F) (i : Tap) (f : AllpassFilter) : AllpassFilter :=
  if t.target = i then f.setTime (modulatedTime m t.k t.baseOffset) else f

theorem retune4_eq (k : Chain6 AllpassFilter) (t : RmRec) (m : F) :
    retune4 k t m =
      ⟨retuneAt t m .t1 k.f1, retuneAt t m .t2 k.f2, retuneAt t m .t3 k.f3, retuneAt t m .t4 k.f4,
        retuneAt t m .t5 k.f5, retuneAt t m .t6 k.f6⟩ := by
  unfold retune4 retuneAt
  cases t.target <;> rfl

/-- What both retunes of a channel do to the filter `f` at the index `i`: where they share a target, the second
wins. -/
def retuneBothAt (t : Pair RmRec) (m1 m2 : F) (i : Tap) (f : AllpassFilter) : AllpassFilter :=
  if t.second.target = i then f.setTime (modulatedTime m2 t.second.k t.second.baseOffset)
  else retuneAt t.first m1 i f

theorem retuneAt_retuneAt (t : Pair RmRec) (m1 m2 : F) (i : Tap) (f : AllpassFilter) :
    retuneAt t.second m2 i (retuneAt t.first m1 i f) = retuneBothAt t m1 m2 i f := by
  by_cases h2 : t.second.target = i
  · by_cases h1 : t.first.target = i
    · simp only [retuneBothAt, retuneAt, if_pos h1, if_pos h2, AllpassFilter.setTime_setTime]
    · simp only [retuneBothAt, retuneAt, if_neg h1, if_pos h2]
  · simp only [retuneBothAt, retuneAt, if_neg h2]

theorem retuneBoth_eq (k : Chain6 AllpassFilter) (t : Pair RmRec) (m1 m2 : F) :
    retuneBoth k t m1 m2 =
      ⟨retuneBothAt t m1 m2 .t1 k.f1, retuneBothAt t m1 m2 .t2 k.f2, retuneBothAt t m1 m2 .t3 k.f3,
        retuneBothAt t m1 m2 .t4 k.f4, retuneBothAt t m1 m2 .t5 k.f5, retuneBothAt t m1 m2 .t6 k.f6⟩ := by
  simp only [retuneBoth, retune4_eq, retuneAt_retuneAt]

/-! ### One channel of a modulated block (rules R186, R190) -/

/-- What blocks 3 and 4 own on one channel: a chain of allpass filters, a lowpass and the modulation. -/
@[ext] structure Channel (α μ : Type) where
  ap : α
  lp : Biquad
  mods : μ

def LfoBlock.left (k : LfoBlock) : Channel (Chain4 AllpassFilter) Lfo := ⟨k.ap.left, k.lp.left, k.lfo.left⟩
def LfoBlock.right (k : LfoBlock) : Channel (Chain4 AllpassFilter) Lfo := ⟨k.ap.right, k.lp.right, k.lfo.right⟩
def RmBlock.left (k : RmBlock) : Channel (Chain6 AllpassFilter) (Pair RandomMod) :=
  ⟨k.ap.left, k.lp.left, k.rm.left⟩
def RmBlock.right (k : RmBlock) : Channel (Chain6 AllpassFilter) (Pair RandomMod) :=
  ⟨k.ap.right, k.lp.right, k.rm.right⟩

/-- A run of block 3 on one channel, from that channel's state and input alone. -/
def runLfoChannel (t : LfoRec) (c : Channel (Chain4 AllpassFilter) Lfo) (x : F) :
    Channel (Chain4 AllpassFilter) Lfo × F :=
  let a := runChain4 c.ap x
  let o := c.lp.run a.2
  let m := c.mods.run
  (⟨retune3 a.1 t m.2, o.1, m.1⟩, o.2)

/-- A run of block 4 on one channel, from that channel's state and input and its two draws alone. -/
def runRmChannel (t : Pair RmRec) (d1 d2 : F) (c : Channel (Chain6 AllpassFilter) (Pair RandomMod)) (x : F) :
    Channel (Chain6 AllpassFilter) (Pair RandomMod) × F :=
  let a := runChain6 c.ap x
  let o := c.lp.run a.2
  let m := runMods c.mods d1 d2
  (⟨retuneBoth a.1 t m.2.1 m.2.2, o.1, m.1⟩, o.2)

theorem LfoBlock.run_left (k : LfoBlock) (x : Stereo F) :
    ((k.run x).1.left, (k.run x).2.left) = runLfoChannel tuning.lfo3.left k.left x.left := rfl

theorem LfoBlock.run_right (k : LfoBlock) (x : Stereo F) :
    ((k.run x).1.right, (k.run x).2.right) = runLfoChannel tuning.lfo3.right k.right x.right := rfl

theorem RmBlock.run_left (k : RmBlock) (n : Nat) (x : Stereo F) :
    ((k.run n x).1.left, (k.run n x).2.left) =
      runRmChannel tuning.rm4.left (drawF n 0) (drawF n 1) k.left x.left := rfl

theorem RmBlock.run_right (k : RmBlock) (n : Nat) (x : Stereo F) :
    ((k.run n x).1.right, (k.run n x).2.right) =
      runRmChannel tuning.rm4.right (drawF n 2) (drawF n 3) k.right x.right := rfl

/-- What is computed from a channel and its input alone agrees where they agree. -/
theorem Channel.agree_after_run {α μ : Type} {c d c' d' : Channel α μ} {x y o p : F}
    {f : Channel α μ → F → Channel α μ × F} (hc : (c', o) = f c x) (hd : (d', p) = f d y)
    (hap : c.ap = d.ap) (hlp : c.lp = d.lp) (hmods : c.mods = d.mods) (hx : x = y) :
    o = p ∧ c'.ap = d'.ap ∧ c'.lp = d'.lp ∧ c'.mods = d'.mods := by
  have h : (c', o) = (d', p) := by rw [hc, hd, Channel.ext hap hlp hmods, hx]
  obtain ⟨rfl, rfl⟩ := Prod.mk.inj h
  exact ⟨rfl, rfl, rfl, rfl⟩

/-! ### Sample rates (rule R194) -/

section
variable {α β : Type} {q : β → Prop} {f : α → β} (h : ∀ a, q (f a))
include h

theorem both.map_of_forall (s : Stereo α) : both q (s.map f) := ⟨h _, h _⟩
theorem pair.map_of_forall (s : Pair α) : pair q (s.map f) := ⟨h _, h _⟩
theorem chain4.map_of_forall (s : Chain4 α) : chain4 q (s.map f) := ⟨h _, h _, h _, h _⟩
theorem chain6.map_of_forall (s : Chain6 α) : chain6 q (s.map f) := ⟨h _, h _, h _, h _, h _, h _⟩

end

section
variable (sr : F)

theorem CombFilter.setRate_atRate (c : CombFilter) : (c.setRate sr).atRate (clampRate sr) := ⟨rfl, rfl⟩
theorem AllpassFilter.setRate_atRate (a : AllpassFilter) : (a.setRate sr).atRate (clampRate sr) := ⟨rfl, rfl⟩
theorem Biquad.setRate_atRate (q : Biquad) : (q.setRate sr).atRate (clampRate sr) := rfl
theorem Lfo.setRate_atRate (l : Lfo) : (l.setRate sr).atRate (clampRate sr) := rfl
theorem RandomMod.setRate_atRate (m : RandomMod) : (m.setRate sr).atRate (clampRate sr) := rfl

theorem CombBlock.setRate_atRate (k : CombBlock) : (k.setRate sr).atRate (clampRate sr) :=
  ⟨both.map_of_forall (pair.map_of_forall (CombFilter.setRate_atRate sr)) k.comb,
    both.map_of_forall (Biquad.setRate_atRate sr) k.lp⟩

theorem LfoBlock.setRate_atRate (k : LfoBlock) : (k.setRate sr).atRate (clampRate sr) :=
  ⟨both.map_of_forall (chain4.map_of_forall (AllpassFilter.setRate_atRate sr)) k.ap,
    both.map_of_forall (Biquad.setRate_atRate sr) k.lp,
    both.map_of_forall (Lfo.setRate_atRate sr) k.lfo⟩

theorem RmBlock.setRate_atRate (k : RmBlock) : (k.setRate sr).atRate (clampRate sr) :=
  ⟨both.map_of_forall (chain6.map_of_forall (AllpassFilter.setRate_atRate sr)) k.ap,
    both.map_of_forall (Biquad.setRate_atRate sr) k.lp,
    both.map_of_forall (pair.map_of_forall (RandomMod.setRate_atRate sr)) k.rm⟩

end

end Sys2Proof.Machine

namespace Sys2Proof.Proofs

open Sys2Proof.Machine

/-- Settles O27: the draws of a run are legal (`drawF_legal`); its two retunes of a channel set each filter's time at
most once (`retuneBoth_eq`), and `BK.RUN` takes its draws at the counter of its step (`exec_bkRun_next`). -/
theorem bkRunRmBlockRetunesAfter : Obligations.BkRunRmBlockRetunesAfter := by
  refine ⟨fun k m x => ?run, fun s k a b hk => ?exec⟩
  case run =>
    refine ⟨drawF m 0, drawF m 1, drawF m 2, drawF m 3, drawF_legal m 0, drawF_legal m 1, drawF_legal m 2,
      drawF_legal m 3, ?_⟩
    simp only [RmBlock.run, retuneBoth_eq]
    rfl
  case exec => exact ⟨s.free, exec_bkRun_next hk a b⟩

/-- Settles O30: a run of a channel is computed from that channel and its input, in block 4 also from its draws
(`LfoBlock.run_left` and its three companions), so it agrees where they agree (`Channel.agree_after_run`). -/
theorem modulatedChannelsIndependent : Obligations.ModulatedChannelsIndependent := by
  refine ⟨fun k j x y => ⟨?lfoLeft, ?lfoRight⟩, fun k j m x y => ⟨?rmLeft, ?rmRight⟩⟩
  case lfoLeft => exact Channel.agree_after_run (k.run_left x) (j.run_left y)
  case lfoRight => exact Channel.agree_after_run (k.run_right x) (j.run_right y)
  case rmLeft => exact Channel.agree_after_run (k.run_left m x) (j.run_left m y)
  case rmRight => exact Channel.agree_after_run (k.run_right m x) (j.run_right m y)

/-- Settles O25: the run is its rules by definition; `BK.RUN` is that run for both comb blocks
(`exec_bkRun_next`). -/
theorem bkRunCombBlocksMix : Obligations.BkRunCombBlocksMix :=
  ⟨fun _ _ => rfl, fun _ _ a b => ⟨fun hk => exec_bkRun_next hk a b, fun hk => exec_bkRun_next hk a b⟩⟩

/-- Settles O26: the run is its rules by definition, the retune after the chain; `BK.RUN` is that run
(`exec_bkRun_next`). -/
theorem bkRunLfoBlockRetunesAfter : Obligations.BkRunLfoBlockRetunesAfter :=
  ⟨fun _ _ => rfl, fun _ _ a b hk => exec_bkRun_next hk a b⟩

/-- Settles O28: inside its domain `BK.SETSR` completes with the rate given to every unit (`exec_bkSetsr`), which is
then at the one clamped rate (`CombBlock.setRate_atRate`, `LfoBlock.setRate_atRate`, `RmBlock.setRate_atRate`). -/
theorem bkSetsrReachesEveryUnit : Obligations.BkSetsrReachesEveryUnit := by
  intro s a ha
  refine ⟨fun k hfit => ?comb, fun k hfit => ?lfo, fun k hfit => ?rm⟩
  case comb =>
    exact ⟨k.setRate_atRate _, fun hk => ⟨_, exec_bkSetsr hk ha hfit⟩, fun hk => ⟨_, exec_bkSetsr hk ha hfit⟩⟩
  case lfo => exact ⟨k.setRate_atRate _, fun hk => ⟨_, exec_bkSetsr hk ha hfit⟩⟩
  case rm => exact ⟨k.setRate_atRate _, fun hk => ⟨_, exec_bkSetsr hk ha hfit⟩⟩

/-- Settles O29: `BK.CLEAR` completes with the cleared block of its kind (`exec_bkClear`), whose modulators are those
before. -/
theorem bkClearSparesModulators : Obligations.BkClearSparesModulators := fun _ =>
  ⟨fun _ => ⟨fun hk => ⟨_, exec_bkClear hk⟩, fun hk => ⟨_, exec_bkClear hk⟩⟩,
    fun _ hk => ⟨_, exec_bkClear hk⟩, fun _ hk => ⟨_, exec_bkClear hk⟩⟩

end Sys2Proof.Proofs
end

section
/-! Laws of the arithmetic that `45_reverberator.md` rests on, all about the place of a value in the order of
rule R15: what has one place is equal in value, and a zero term or factor of either sign moves no place. -/

set_option Elab.async false

namespace Sys2Proof

/-! ### Places (rule R15) -/

/-- What has the place of a number is equal to it in value. -/
theorem F.eqv_of_key_eq {a b : F} (h : a.key = b.key) (hb : b.isNan = false) : a.eqv b = true := by
  rw [F.eqv, Bool.and_comm]
  exact F.eqv_of_key h.symm hb

theorem F.key_zero_of_eqv {z : F} (hz : z.eqv F.zero = true) : z.key = some 0 :=
  (F.key_eq_of_eqv hz).trans F.zero_key

/-- A place other than that of the zeros has one value. -/
theorem F.eq_of_key {a b : F} (h : a.key = b.key) (hb : b.key ≠ some 0) : a = b := by
  cases b with
  | nan =>
    cases a with
    | nan => rfl
    | inf s => cases h
    | fin s m => cases h
  | inf t =>
    cases a with
    | nan => cases h
    | inf s => cases s <;> cases t <;> simp [F.key, magLimit] at h ⊢
    | fin s m => exact absurd (F.isFinite_of_key h.symm rfl) Bool.false_ne_true
  | fin t n =>
    obtain ⟨s, m, rfl⟩ := F.exists_fin (F.isFinite_of_key h rfl)
    simp only [F.key, Option.some.injEq, ne_eq] at h hb
    obtain rfl : m = n := Fin.ext (by split_ifs at h <;> omega)
    obtain rfl : s = t := by cases s <;> cases t <;> simp at h hb ⊢ <;> omega
    rfl

theorem F.exists_of_key_zero {z : F} (hz : z.key = some 0) : ∃ s, z = .fin s ⟨0, by norm_num⟩ := by
  cases z with
  | nan => cases hz
  | inf s => cases s <;> cases hz
  | fin s m =>
    refine ⟨s, congrArg _ (Fin.ext ?_)⟩
    simp only [F.key, Option.some.injEq] at hz
    have hm : m.val = 0 := by split_ifs at hz <;> omega
    exact hm

/-! ### Zero terms and factors (rule R14) -/

theorem F.add_comm (a b : F) : a.add b = b.add a := by
  cases a with
  | nan => cases b <;> rfl
  | inf s =>
    cases b with
    | nan => rfl
    | inf t => cases s <;> cases t <;> rfl
    | fin t n => rfl
  | fin s m =>
    cases b with
    | nan => rfl
    | inf t => rfl
    | fin t n => simp only [F.add, Int.add_comm, Bool.and_comm]

theorem F.mul_comm (a b : F) : a.mul b = b.mul a := by
  cases a with
  | nan => cases b <;> rfl
  | inf s =>
    cases b with
    | nan => rfl
    | inf t => simp only [F.mul, Bool.xor_comm]
    | fin t n => simp only [F.mul, Bool.xor_comm]
  | fin s m =>
    cases b with
    | nan => rfl
    | inf t => simp only [F.mul, Bool.xor_comm]
    | fin t n => simp only [F.mul, Bool.xor_comm, Nat.mul_comm]

/-- A zero added on the right moves nothing, an infinity or a NaN included. -/
theorem F.key_add_of_zero {z : F} (hz : z.key = some 0) (a : F) : (a.add z).key = a.key := by
  obtain ⟨t, rfl⟩ := F.exists_of_key_zero hz
  cases a with
  | nan => rfl
  | inf s => rfl
  | fin s m => exact F.key_add_zero rfl t

/-- A zero added on the left moves nothing. -/
theorem F.key_zero_add {z : F} (hz : z.key = some 0) (a : F) : (z.add a).key = a.key := by
  rw [F.add_comm, F.key_add_of_zero hz]

/-- A zero times a finite value is a zero. -/
theorem F.key_zero_mul {z a : F} (hz : z.key = some 0) (ha : a.isFinite = true) : (z.mul a).key = some 0 := by
  obtain ⟨t, rfl⟩ := F.exists_of_key_zero hz
  obtain ⟨s, m, rfl⟩ := F.exists_fin ha
  simp only [F.mul, magUnits_zero, Nat.zero_mul, F.roundUnits_zero _ _ unitsPerOne_pos]
  cases t <;> cases s <;> rfl

theorem F.one_sub_of_zero {z : F} (hz : z.key = some 0) : F.one.sub z = F.one := by
  obtain ⟨t, rfl⟩ := F.exists_of_key_zero hz
  rw [F.one_eq]
  exact F.fin_add_zero false (!t) _ (by norm_num)

end Sys2Proof
end

section
/-! Proofs for `45_reverberator.md`: what each command of the reverberator answers (rules R201 to R219), the
modulators and the rates after one, and a device with all wets `0.0` (rule R220). -/

set_option Elab.async false

namespace Sys2Proof.Machine

/-! ### Routing by mode (rules R204 to R206) -/

section
variable {v : Reverb} (n : Nat) (d : Stereo F)

theorem Reverb.route_parallel (h : v.mode = .parallel) : v.route n d = v.parallel n d := by
  simp only [Reverb.route, h]

theorem Reverb.route_serial (h : v.mode = .serial) : v.route n d = v.serial n d := by
  simp only [Reverb.route, h]

theorem Reverb.route_hybrid (h : v.mode = .hybrid) : v.route n d = v.hybrid n d := by
  simp only [Reverb.route, h]

end

/-! ### What a command answers on a reverberator -/

section
variable {s : State} {v : Reverb} (hv : s.device = .rv v)
include hv

theorem exec_rvRun (a b : Word) :
    exec (.rvRun a b) s =
      s.givesPair (.rv (v.run s.free ⟨F.ofBits a, F.ofBits b⟩).1) (v.run s.free ⟨F.ofBits a, F.ofBits b⟩).2 :=
  onRv_of _ hv

/-- The whole next state of `RV.RUN` from what its mode routes to the output lowpasses, with both outputs read
back from the ports (rules R18, R201). -/
theorem exec_rvRun_of_route {a b : Word} {p : Reverb × Stereo F}
    (hp : v.route s.free ⟨F.ofBits a, F.ofBits b⟩ = p) :
    ∃ n r0 r1, exec (.rvRun a b) s =
        .next { s with
          device := .rv { p.1 with olp := (runLowpass p.1.olp p.2).1, last := (runLowpass p.1.olp p.2).2 }
          rsp := some ⟨r0, r1⟩
          free := n } ∧
      F.ofBits r0 = (runLowpass p.1.olp p.2).2.left ∧ F.ofBits r1 = (runLowpass p.1.olp p.2).2.right := by
  subst hp
  exact ⟨_, _, _, exec_rvRun hv a b, ofBits_resultF _ _ _, ofBits_resultF _ _ _⟩

/-- `RV.SETWET` of an index that names no block changes no register (rule R211). -/
theorem exec_rvSetwet_none {idx : Nat} (hi : blockIdx idx = none) (a : Word) :
    exec (.rvSetwet idx a) s = s.done (.rv v) :=
  (onRv_of _ hv).trans (by simp only [hi])

theorem exec_rvClear : exec .rvClear s = s.done (.rv v.clear) := onRv_of _ hv

/-- A response that leaves the device as it was: only the port and the counter change. -/
theorem answer_same (r0 r1 : Word) :
    s.answer (.rv v) r0 r1 = { s with rsp := some ⟨r0, r1⟩, free := s.free + 1 } := by
  rw [State.answer, ← hv]

theorem exec_rvGetsr :
    exec .rvGetsr s = .next { s with rsp := some ⟨resultF s.free 0 v.sampleRate, 0⟩, free := s.free + 1 } :=
  (onRv_of _ hv).trans (congrArg _ (answer_same hv _ _))

theorem exec_rvGetlpf :
    exec .rvGetlpf s = .next { s with rsp := some ⟨resultF s.free 0 v.lowpassCutoff, 0⟩, free := s.free + 1 } :=
  (onRv_of _ hv).trans (congrArg _ (answer_same hv _ _))

theorem exec_rvGetmode :
    exec .rvGetmode s = .next { s with rsp := some ⟨resultInt v.mode.code, 0⟩, free := s.free + 1 } :=
  (onRv_of _ hv).trans (congrArg _ (answer_same hv _ _))

theorem exec_rvGetout :
    exec .rvGetout s =
      .next { s with
        rsp := some ⟨resultF s.free 0 v.last.left, resultF s.free 1 v.last.right⟩, free := s.free + 1 } :=
  (onRv_of _ hv).trans (congrArg _ (answer_same hv _ _))

theorem exec_rvGetwet_some {idx : Nat} {k : BlockIdx} (hk : blockIdx idx = some k) :
    exec (.rvGetwet idx) s = .next { s with rsp := some ⟨resultF s.free 0 (v.wet.get k), 0⟩, free := s.free + 1 } :=
  (onRv_of _ hv).trans (by simp only [hk, State.gives, answer_same hv, noResult])

/-- An index that names no block answers the bits of `+0.0` (rule R216). -/
theorem exec_rvGetwet_none {idx : Nat} (hi : blockIdx idx = none) :
    exec (.rvGetwet idx) s = .next { s with rsp := some ⟨0, 0⟩, free := s.free + 1 } :=
  (onRv_of _ hv).trans (by simp only [hi, State.gives, answer_same hv, noResult, resultF_zero])

end

theorem resultInt_code (m : Mode) : (resultInt m.code).toNat = m.code := by
  cases m <;> rfl

/-! ### Sample rates (rule R210) -/

theorem Reverb.setRate_atRate (v : Reverb) (sr : F) : (v.setRate sr).atRate (clampRate sr) :=
  ⟨rfl, v.block1.setRate_atRate sr, v.block2.setRate_atRate sr, v.block3.setRate_atRate sr,
    v.block4.setRate_atRate sr, both.map_of_forall (Biquad.setRate_atRate sr) v.olp⟩

/-! ### The modulators of a run (rules R201, R221) -/

/-- The two `LFO`s of block 3 after each has run once. -/
def runLfos (l : Stereo Lfo) : Stereo Lfo := ⟨l.left.run.1, l.right.run.1⟩

/-- The four `RM`s of block 4 after each has run once with its draw at the counter's value `n`. -/
def runRms (n : Nat) (r : Stereo (Pair RandomMod)) : Stereo (Pair RandomMod) :=
  ⟨(runMods r.left (drawF n 0) (drawF n 1)).1, (runMods r.right (drawF n 2) (drawF n 3)).1⟩

/-- In every mode a run is one run of blocks 3 and 4, whose modulators run apart from their inputs. -/
theorem Reverb.run_mods (v : Reverb) (n : Nat) (d : Stereo F) :
    (v.run n d).1.block3.lfo = runLfos v.block3.lfo ∧ (v.run n d).1.block4.rm = runRms n v.block4.rm := by
  unfold Reverb.run Reverb.route
  cases v.mode with
  | parallel => exact ⟨rfl, rfl⟩
  | serial => exact ⟨rfl, rfl⟩
  | hybrid => exact ⟨rfl, rfl⟩

/-! ### Blends at wet `0.0` and `1.0` (rule R202) -/

theorem wetMix_zero_key {w b : F} (hw : w.key = some 0) (hb : b.isFinite = true) (i : F) :
    (wetMix w b i).key = i.key := by
  rw [wetMix, F.one_sub_of_zero hw, F.one_mul, F.key_zero_add (F.key_zero_mul hw hb)]

theorem wetMix_one_key (b : F) {i : F} (hi : i.isFinite = true) : (wetMix F.one b i).key = b.key := by
  rw [wetMix, F.one_sub_one, F.one_mul, F.key_add_of_zero (F.key_zero_mul F.zero_key hi)]

/-! ### A device with all wets `0.0` (rule R220)

That two pairs are equal in value is said by their places, `p.map F.key = d.map F.key`. -/

theorem wetMix2_zero_key {w : F} {b : Stereo F} (hw : w.key = some 0) (hb : both (F.isFinite · = true) b)
    (i : Stereo F) : (wetMix2 w b i).map F.key = i.map F.key := by
  obtain ⟨hl, hr⟩ := hb
  simp only [Stereo.map, wetMix2, wetMix_zero_key hw hl, wetMix_zero_key hw hr]

/-- The average of two values of the place of `d` has that place: they are all zeros or all `d`. -/
theorem average2_key {m1 m2 d : F} (h1 : m1.key = d.key) (h2 : m2.key = d.key)
    (hd : (d.add d).isFinite = true) : (average2 m1 m2).key = d.key := by
  by_cases hz : d.key = some 0
  · rw [hz] at h1 h2
    have hsum : (m1.add m2).key = some 0 := (F.key_zero_add h1 m2).trans h2
    rw [average2, F.mul_comm, F.key_zero_mul hsum rfl, hz]
  · rw [average2, F.eq_of_key h1 hz, F.eq_of_key h2 hz, F.half_double hd]

theorem average4_key {m1 m2 m3 m4 d : F} (h1 : m1.key = d.key) (h2 : m2.key = d.key) (h3 : m3.key = d.key)
    (h4 : m4.key = d.key) (hd : (((d.add d).add d).add d).isFinite = true) :
    (average4 m1 m2 m3 m4).key = d.key := by
  by_cases hz : d.key = some 0
  · rw [hz] at h1 h2 h3 h4
    have hsum : (((m1.add m2).add m3).add m4).key = some 0 := by
      rw [F.key_add_of_zero h4, F.key_add_of_zero h3, F.key_add_of_zero h2, h1]
    rw [average4, F.mul_comm, F.key_zero_mul hsum rfl, hz]
  · rw [average4, F.eq_of_key h1 hz, F.eq_of_key h2 hz, F.eq_of_key h3 hz, F.eq_of_key h4 hz,
      F.quarter_fourfold hd]

/-- Every wet is `0.0`, of either sign. -/
structure Wets.Dry (w : Wets) : Prop where
  w1 : w.w1.key = some 0
  w2 : w.w2.key = some 0
  w3 : w.w3.key = some 0
  w4 : w.w4.key = some 0

section
variable {v : Reverb} {n : Nat} {d : Stereo F} (hw : v.wet.Dry)
include hw

theorem Reverb.parallel_dry (hl : (((d.left.add d.left).add d.left).add d.left).isFinite = true)
    (hr : (((d.right.add d.right).add d.right).add d.right).isFinite = true)
    (h1 : both (F.isFinite · = true) (v.block1.run d).2) (h2 : both (F.isFinite · = true) (v.block2.run d).2)
    (h3 : both (F.isFinite · = true) (v.block3.run d).2)
    (h4 : both (F.isFinite · = true) (v.block4.run n d).2) :
    (v.parallel n d).2.map F.key = d.map F.key :=
  congrArg₂ Stereo.mk
    (average4_key (wetMix_zero_key hw.w1 h1.1 _) (wetMix_zero_key hw.w2 h2.1 _) (wetMix_zero_key hw.w3 h3.1 _)
      (wetMix_zero_key hw.w4 h4.1 _) hl)
    (average4_key (wetMix_zero_key hw.w1 h1.2 _) (wetMix_zero_key hw.w2 h2.2 _) (wetMix_zero_key hw.w3 h3.2 _)
      (wetMix_zero_key hw.w4 h4.2 _) hr)

theorem Reverb.serial_dry (h1 : both (F.isFinite · = true) (v.block1.run d).2)
    (h2 : both (F.isFinite · = true) (v.block2.run (v.blend1 d).2).2)
    (h3 : both (F.isFinite · = true) (v.block3.run (v.blend2 (v.blend1 d).2).2).2)
    (h4 : both (F.isFinite · = true) (v.block4.run n (v.blend3 (v.blend2 (v.blend1 d).2).2).2).2) :
    (v.serial n d).2.map F.key = d.map F.key :=
  calc (v.serial n d).2.map F.key
      = (v.blend3 (v.blend2 (v.blend1 d).2).2).2.map F.key := wetMix2_zero_key hw.w4 h4 _
    _ = (v.blend2 (v.blend1 d).2).2.map F.key := wetMix2_zero_key hw.w3 h3 _
    _ = (v.blend1 d).2.map F.key := wetMix2_zero_key hw.w2 h2 _
    _ = d.map F.key := wetMix2_zero_key hw.w1 h1 d

theorem Reverb.hybrid_dry (hl : (d.left.add d.left).isFinite = true)
    (hr : (d.right.add d.right).isFinite = true) (h3 : both (F.isFinite · = true) (v.block3.run d).2)
    (h4 : both (F.isFinite · = true) (v.block4.run n (v.blend3 d).2).2)
    (h1 : both (F.isFinite · = true) (v.block1.run (v.blend4 n (v.blend3 d).2).2).2)
    (h2 : both (F.isFinite · = true) (v.block2.run (v.blend4 n (v.blend3 d).2).2).2) :
    (v.hybrid n d).2.map F.key = d.map F.key := by
  have ht : (v.blend4 n (v.blend3 d).2).2.map F.key = d.map F.key :=
    (wetMix2_zero_key hw.w4 h4 _).trans (wetMix2_zero_key hw.w3 h3 d)
  obtain ⟨htl, htr⟩ := Stereo.mk.inj ht
  exact congrArg₂ Stereo.mk
    (average2_key ((wetMix_zero_key hw.w1 h1.1 _).trans htl) ((wetMix_zero_key hw.w2 h2.1 _).trans htl) hl)
    (average2_key ((wetMix_zero_key hw.w1 h1.2 _).trans htr) ((wetMix_zero_key hw.w2 h2.2 _).trans htr) hr)

end

/-- Where the routing answers its input in value, `RV.RUN` is the output lowpasses on the input, in value. -/
theorem exec_rvRun_bypassed {s : State} {v : Reverb} {a b : Word} (hv : s.device = .rv v)
    (ha : (F.ofBits a).isFinite = true) (hb : (F.ofBits b).isFinite = true)
    (hroute : (v.route s.free ⟨F.ofBits a, F.ofBits b⟩).2.map F.key = ⟨(F.ofBits a).key, (F.ofBits b).key⟩) :
    ∃ n r0 r1 u eL eR, eL.eqv (F.ofBits a) = true ∧ eR.eqv (F.ofBits b) = true ∧
      exec (.rvRun a b) s = .next { s with device := .rv u, rsp := some ⟨r0, r1⟩, free := n } ∧
      u.olp = ⟨(v.olp.left.run eL).1, (v.olp.right.run eR).1⟩ ∧
      F.ofBits r0 = (v.olp.left.run eL).2 ∧ F.ofBits r1 = (v.olp.right.run eR).2 := by
  obtain ⟨hl, hr⟩ := Stereo.mk.inj hroute
  obtain ⟨-, -, -, -, -, holp⟩ := route_frame v s.free ⟨F.ofBits a, F.ofBits b⟩
  obtain ⟨n, r0, r1, hexec, h0, h1⟩ := exec_rvRun_of_route hv rfl
  rw [holp] at hexec h0 h1
  exact ⟨n, r0, r1, _, _, _, F.eqv_of_key_eq hl (F.number_of_finite ha), F.eqv_of_key_eq hr (F.number_of_finite hb),
    hexec, rfl, h0, h1⟩

end Sys2Proof.Machine

namespace Sys2Proof.Proofs

open Sys2Proof.Machine

/-- Settles O34: a zero term of a blend moves no place (`wetMix_zero_key`, `wetMix_one_key`), so with all wets `0.0`
every mode routes the places of its input to the output lowpasses (`Reverb.parallel_dry`, `Reverb.serial_dry`,
`Reverb.hybrid_dry`), which run on the input in value (`exec_rvRun_bypassed`). -/
theorem blendEndpoints : Obligations.BlendEndpoints := by
  refine ⟨fun w b i hw hb hi => ?zero, fun b i hi hb => ?one, fun v n i => ⟨rfl, rfl, rfl, rfl⟩,
    fun s v a b hv h1 h2 h3 h4 ha hb =>
      ⟨fun hm hl hr k1 k2 k3 k4 => ?parallel, fun hm ⟨k1, k2, k3, k4⟩ => ?serial,
        fun hm hl hr ⟨k3, k⟩ => ?hybrid⟩⟩
  case zero => exact F.eqv_of_key_eq (wetMix_zero_key (F.key_zero_of_eqv hw) hb i) hi
  case one => exact F.eqv_of_key_eq (wetMix_one_key b hi) hb
  all_goals
    have hdry : v.wet.Dry :=
      ⟨F.key_zero_of_eqv h1, F.key_zero_of_eqv h2, F.key_zero_of_eqv h3, F.key_zero_of_eqv h4⟩
    refine exec_rvRun_bypassed hv ha hb ?_
  case parallel =>
    rw [Reverb.route_parallel _ _ hm]
    exact Reverb.parallel_dry hdry hl hr k1 k2 k3 (k4 _)
  case serial =>
    rw [Reverb.route_serial _ _ hm]
    exact Reverb.serial_dry hdry k1 k2 k3 (k4 _)
  case hybrid =>
    obtain ⟨k4, k1, k2⟩ := k s.free
    rw [Reverb.route_hybrid _ _ hm]
    exact Reverb.hybrid_dry hdry hl hr k3 k4 k1 k2

/-- Settles O36: `RV.SETSR` completes only with the rate given to every unit, which then runs at it clamped
(`Reverb.setRate_atRate`). -/
theorem rvSetsrLeavesOneRate : Obligations.RvSetsrLeavesOneRate := by
  intro s t v a hv h
  obtain ⟨-, hfits⟩ := finiteOperand_next ((onRv_of _ hv).symm.trans h)
  obtain ⟨-, hdone⟩ := whenFits_next hfits
  rw [done_next hdone]
  exact ⟨_, rfl, v.setRate_atRate (F.ofBits a)⟩

/-- Settles O43: a run keeps its output as the last one, which `RV.GETOUT` answers (`exec_rvGetout`); both ports
carry it (`ofBits_resultF`), whatever patterns a NaN has on them. -/
theorem rvGetoutRepeatsRun : Obligations.RvGetoutRepeatsRun := by
  intro s t v a b hv h
  obtain ⟨n, r0, r1, hrun, h0, h1⟩ := exec_rvRun_of_route hv (a := a) (b := b) rfl
  cases hrun.symm.trans h
  exact ⟨_, r0, r1, _, _, exec_rvGetout rfl, rfl, rfl, (ofBits_resultF _ _ _).trans h0.symm,
    (ofBits_resultF _ _ _).trans h1.symm, rfl⟩

/-- Settles O44: after a run the modulators are those before it, each run once at the counter of the step
(`Reverb.run_mods`). -/
theorem modulatorsIgnoreModeAndInput : Obligations.ModulatorsIgnoreModeAndInput := by
  intro s t s' t' u v a b c d hu hv hfree hlfo hrm hs ht
  rw [givesPair_next ((exec_rvRun hu a b).symm.trans hs), givesPair_next ((exec_rvRun hv c d).symm.trans ht)]
  obtain ⟨hul, hur⟩ := u.run_mods s.free ⟨F.ofBits a, F.ofBits b⟩
  obtain ⟨hvl, hvr⟩ := v.run_mods t.free ⟨F.ofBits c, F.ofBits d⟩
  exact ⟨_, _, rfl, rfl, by rw [hul, hvl, hlfo], by rw [hur, hvr, hrm, hfree]⟩

/-- Settles O31: in mode 0 the pair before the output lowpasses is that of `Reverb.parallel`. -/
theorem rvRunParallel : Obligations.RvRunParallel := fun s _ _ _ hv hm =>
  ⟨s.free, exec_rvRun_of_route hv (Reverb.route_parallel _ _ hm)⟩

/-- Settles O32: in mode 1 the pair before the output lowpasses is that of `Reverb.serial`. -/
theorem rvRunSerial : Obligations.RvRunSerial := fun s _ _ _ hv hm =>
  ⟨s.free, exec_rvRun_of_route hv (Reverb.route_serial _ _ hm)⟩

/-- Settles O33: in mode 2 the pair before the output lowpasses is that of `Reverb.hybrid`. -/
theorem rvRunHybrid : Obligations.RvRunHybrid := fun s _ _ _ hv hm =>
  ⟨s.free, exec_rvRun_of_route hv (Reverb.route_hybrid _ _ hm)⟩

/-- Settles O35: inside its domain `RV.SETSR` completes with the rate given to every unit (`exec_rvSetsr_done`). -/
theorem rvSetsrPropagates : Obligations.RvSetsrPropagates := fun _ _ _ hv ha hfit =>
  ⟨_, exec_rvSetsr_done hv ha hfit⟩

/-- Settles O37: `RV.SETWET` sets the clamped wet of the block its index names (`exec_rvSetwet_done`), and no
register where it names none (`exec_rvSetwet_none`). -/
theorem rvSetwetClampsOrIgnores : Obligations.RvSetwetClampsOrIgnores := by
  intro s v idx a hv ha
  match idx with
  | 0 => exact ⟨_, exec_rvSetwet_none hv rfl a⟩
  | 1 => exact ⟨_, exec_rvSetwet_done hv (k := .b1) rfl ha⟩
  | 2 => exact ⟨_, exec_rvSetwet_done hv (k := .b2) rfl ha⟩
  | 3 => exact ⟨_, exec_rvSetwet_done hv (k := .b3) rfl ha⟩
  | 4 => exact ⟨_, exec_rvSetwet_done hv (k := .b4) rfl ha⟩
  | k + 5 => exact ⟨_, exec_rvSetwet_none hv rfl a⟩

/-- Settles O38: on a finite operand `RV.SETLPF` completes with the cutoff set in both output lowpasses
(`exec_rvSetlpf_done`). -/
theorem rvSetlpfReachesOutputsOnly : Obligations.RvSetlpfReachesOutputsOnly := fun _ _ _ hv ha =>
  ⟨_, exec_rvSetlpf_done hv ha⟩

/-- Settles O39: `RV.SETMODE` completes with the mode of its integer operand (`exec_rvSetmode_done`), whose code is
the clamped integer (`Mode.code_ofInt`). -/
theorem rvSetmodeClamps : Obligations.RvSetmodeClamps := fun _ _ a hv =>
  ⟨_, Mode.ofInt a.toInt, exec_rvSetmode_done hv, Mode.code_ofInt a.toInt⟩

/-- Settles O40: `RV.CLEAR` completes with the cleared device (`exec_rvClear`). -/
theorem rvClearSilences : Obligations.RvClearSilences := fun _ _ hv => ⟨_, exec_rvClear hv⟩

/-- Settles O41: each getter answers its register and leaves the device as it was (`exec_rvGetsr`, `exec_rvGetlpf`,
`exec_rvGetmode`, `exec_rvGetout`). -/
theorem rvGettersReadOnly : Obligations.RvGettersReadOnly := fun _ v hv =>
  ⟨⟨_, _, exec_rvGetsr hv, ofBits_resultF _ _ _⟩, ⟨_, _, exec_rvGetlpf hv, ofBits_resultF _ _ _⟩,
    ⟨_, _, exec_rvGetmode hv, resultInt_code v.mode⟩,
    ⟨_, _, _, exec_rvGetout hv, ofBits_resultF _ _ _, ofBits_resultF _ _ _⟩⟩

/-- Settles O42: `RV.GETWET` answers the wet of the block its index names (`exec_rvGetwet_some`), and zeros where it
names none (`exec_rvGetwet_none`). -/
theorem rvGetwetReadsOrZero : Obligations.RvGetwetReadsOrZero := by
  intro s v idx hv
  match idx with
  | 0 => exact ⟨_, _, exec_rvGetwet_none hv rfl, rfl⟩
  | 1 => exact ⟨_, _, exec_rvGetwet_some hv (k := .b1) rfl, ofBits_resultF _ _ _⟩
  | 2 => exact ⟨_, _, exec_rvGetwet_some hv (k := .b2) rfl, ofBits_resultF _ _ _⟩
  | 3 => exact ⟨_, _, exec_rvGetwet_some hv (k := .b3) rfl, ofBits_resultF _ _ _⟩
  | 4 => exact ⟨_, _, exec_rvGetwet_some hv (k := .b4) rfl, ofBits_resultF _ _ _⟩
  | k + 5 => exact ⟨_, _, exec_rvGetwet_none hv rfl, rfl⟩

end Sys2Proof.Proofs
end

section
/-! Proofs for `60_exceptions.md`: an idle step and a reset (rules R232, R241), and the domain of a step, outside of
which it is refused by name and inside of which it answers a next state (rule R230, entries U1, U5). -/

set_option Elab.async false

namespace Sys2Proof.Machine

variable {s : State}

/-! ### A step that takes no command (rules R232, R241) -/

theorem step_of_idle (hs : s.input = []) : step s = .next s.idle := by
  simp only [step, hs]

theorem step_of_reset {x : Input} {rest : List Input} (hs : s.input = x :: rest) (hr : x.rst = true) :
    step s = .next (s.took rest).afterReset := by
  simp only [step, hs, execInput, hr, if_true]

/-! ### What the domain decides (entries U1, U5) -/

/-- What becomes of an instruction whose operand is (`operand`) in the domain and whose delay memories (`memory`) fit:
the operand is looked at first, and inside the domain there is a next state. -/
inductive DomainVerdict : (operand memory : Bool) → Out → Prop
  | nonFinite {memory : Bool} : DomainVerdict false memory (.refused .nonFiniteOperand)
  | oversized : DomainVerdict true false (.refused .capacityAboveCapMax)
  | next {t : State} : DomainVerdict true true (.next t)

namespace DomainVerdict

variable {operand memory : Bool} {o : Out} {w : Word} {k : F → Out}

theorem nonFinite_iff (h : DomainVerdict operand memory o) :
    o = .refused .nonFiniteOperand ↔ operand = false := by
  cases h <;> simp

theorem oversized_iff (h : DomainVerdict operand memory o) :
    o = .refused .capacityAboveCapMax ↔ operand = true ∧ memory = false := by
  cases h <;> simp

theorem completes (h : DomainVerdict operand memory o) (hop : operand = true) (hmem : memory = true) :
    completes o := by
  cases h with
  | nonFinite => cases hop
  | oversized => cases hmem
  | next => exact ⟨_, rfl⟩

theorem finiteOperand (h : DomainVerdict true memory (k (operandF w))) :
    DomainVerdict (F.ofBits w).isFinite memory (finiteOperand w k) := by
  cases hw : (F.ofBits w).isFinite with
  | false => rw [finiteOperand_refused k hw]; exact .nonFinite
  | true => rwa [finiteOperand_of k hw]

theorem numberOperand (h : DomainVerdict true memory (k (operandF w))) :
    DomainVerdict (!(F.ofBits w).isNan) memory (numberOperand w k) := by
  cases hw : (F.ofBits w).isNan with
  | true => rw [numberOperand_refused k hw]; exact .nonFinite
  | false => rwa [numberOperand_of k hw]

theorem whenFits {t : State} : DomainVerdict true memory (whenFits memory (.next t)) := by
  cases memory with
  | false => exact .oversized
  | true => exact .next

end DomainVerdict

/-! ### The domain of each instruction -/

/-- The outcome of the instruction `i` on the device `d` is the one its domain decides. -/
def FollowsDomain (i : Instr) (d : Device) (o : Out) : Prop :=
  DomainVerdict (operandInDomain i) (memoryInDomain i d) o

/-- The device is a unit of the class. -/
def Device.IsA (d : Device) : UnitClass → Prop
  | .rv => ∃ v, d = .rv v
  | .dl => ∃ l, d = .dl l
  | .cf => ∃ c, d = .cf c
  | .ap => ∃ f, d = .ap f
  | .bq => ∃ q, d = .bq q
  | .lfo => ∃ l, d = .lfo l
  | .rm => ∃ m, d = .rm m
  | .bk => ∃ k, d = .bk k

theorem Device.isA_cls (d : Device) : d.IsA d.cls := by
  cases d <;> exact ⟨_, rfl⟩

/-- An instruction of the device's class: `of` is the lemma of the class (`onRv_of` and its seven companions). -/
theorem FollowsDomain.onClass {α : Type} {c : α → Device} {f : α → Out} {i : Instr} {o : Out}
    (hd : ∃ u, s.device = c u) (of : ∀ {u}, s.device = c u → o = f u)
    (h : ∀ u, FollowsDomain i (c u) (f u)) : FollowsDomain i s.device o := by
  obtain ⟨u, hu⟩ := hd
  rw [of hu, hu]
  exact h u

theorem blockIdx_eq_some_range {idx : Nat} {k : BlockIdx} (h : blockIdx idx = some k) : 1 ≤ idx ∧ idx ≤ 4 := by
  match idx, h with
  | 1, _ | 2, _ | 3, _ | 4, _ => decide

theorem operandInDomain_rvSetwet_some {idx : Nat} {k : BlockIdx} (h : blockIdx idx = some k) (a : Word) :
    operandInDomain (.rvSetwet idx a) = !(F.ofBits a).isNan := by
  obtain ⟨h1, h4⟩ := blockIdx_eq_some_range h
  simp [operandInDomain, Nat.not_lt.2 h4, Nat.ne_of_gt h1]

theorem operandInDomain_rvSetwet_none {idx : Nat} (h : blockIdx idx = none) (a : Word) :
    operandInDomain (.rvSetwet idx a) = true := by
  have hidx : idx < 1 ∨ 4 < idx := by
    by_contra hc
    obtain ⟨k, hk⟩ := blockIdx_legal (idx := idx) (by omega) (by omega)
    simp [h] at hk
  rcases hidx with h1 | h4
  · simp [operandInDomain, h1]
  · simp [operandInDomain, h4]

/-- `RV.SETWET` looks at its operand only where its index names a block (rule R211, log 19). -/
theorem rvSetwet_followsDomain (idx : Nat) (a : Word) (hd : s.device.IsA .rv) :
    FollowsDomain (.rvSetwet idx a) s.device (exec (.rvSetwet idx a) s) := by
  obtain ⟨v, hv⟩ := hd
  unfold FollowsDomain
  rw [hv]
  cases hk : blockIdx idx with
  | some k =>
    rw [exec_rvSetwet_of hv hk, operandInDomain_rvSetwet_some hk]
    exact .numberOperand .next
  | none =>
    rw [exec_rvSetwet_none hv hk, operandInDomain_rvSetwet_none hk]
    exact .next

/-- `RV.GETWET` answers whatever its index (rule R216). -/
theorem rvGetwet_followsDomain (idx : Nat) (hd : s.device.IsA .rv) :
    FollowsDomain (.rvGetwet idx) s.device (exec (.rvGetwet idx) s) := by
  refine .onClass hd (onRv_of _) fun v => ?_
  cases blockIdx idx with
  | some k => exact .next
  | none => exact .next

/-- Every instruction of the device's class does what its domain decides, one line per sort of row of rule R85: a
setter of a rate or a maximum that sizes memories, another setter, and the rest, whose domain is everything. -/
theorem exec_followsDomain {i : Instr} (h : i.cls = s.device.cls) : FollowsDomain i s.device (exec i s) := by
  have hd : s.device.IsA i.cls := h ▸ s.device.isA_cls
  cases i with
  | rvSetsr => exact .onClass hd (onRv_of _) fun _ => .finiteOperand .whenFits
  | rvSetlpf => exact .onClass hd (onRv_of _) fun _ => .numberOperand .next
  | rvSetwet idx a => exact rvSetwet_followsDomain idx a hd
  | rvGetwet idx => exact rvGetwet_followsDomain idx hd
  | rvRun | rvSetmode | rvClear | rvGetsr | rvGetlpf | rvGetmode | rvGetout =>
    exact .onClass hd (onRv_of _) fun _ => .next
  | dlSetsr | dlSetmax => exact .onClass hd (onDl_of _) fun _ => .finiteOperand .whenFits
  | dlSettime => exact .onClass hd (onDl_of _) fun _ => .finiteOperand .next
  | dlRun | dlClear => exact .onClass hd (onDl_of _) fun _ => .next
  | cfSetsr => exact .onClass hd (onCf_of _) fun _ => .finiteOperand .whenFits
  | cfSettime => exact .onClass hd (onCf_of _) fun _ => .finiteOperand .next
  | cfRun | cfClear => exact .onClass hd (onCf_of _) fun _ => .next
  | apSetsr => exact .onClass hd (onAp_of _) fun _ => .finiteOperand .whenFits
  | apSettime => exact .onClass hd (onAp_of _) fun _ => .finiteOperand .next
  | apRun | apClear => exact .onClass hd (onAp_of _) fun _ => .next
  | bqSetsr | bqSetq | bqSetgain => exact .onClass hd (onBq_of _) fun _ => .finiteOperand .next
  | bqSetcut => exact .onClass hd (onBq_of _) fun _ => .numberOperand .next
  | bqRun | bqSettype | bqClear => exact .onClass hd (onBq_of _) fun _ => .next
  | lfoSetsr => exact .onClass hd (onLfo_of _) fun _ => .finiteOperand .next
  | lfoRun => exact .onClass hd (onLfo_of _) fun _ => .next
  | rmSetsr => exact .onClass hd (onRm_of _) fun _ => .finiteOperand .next
  | rmRun => exact .onClass hd (onRm_of _) fun _ => .next
  | bkSetsr => exact .onClass hd (onBk_of _) fun _ => .finiteOperand .whenFits
  | bkRun | bkClear => exact .onClass hd (onBk_of _) fun _ => .next

/-! ### The domain of a step (rule R230) -/

/-- The next step takes the instruction `i`: the command presented decodes to it, and it is of the device's class. -/
def State.Takes (s : State) (i : Instr) : Prop :=
  ∃ x rest, s.input = x :: rest ∧ x.rst = false ∧ decodeCommand x.command = .ok i ∧ i.cls = s.device.cls

theorem State.Takes.step_followsDomain {i : Instr} (h : s.Takes i) : FollowsDomain i s.device (step s) := by
  obtain ⟨x, rest, hs, hr, hi, hc⟩ := h
  rw [step_of_decodes hs hr hi]
  exact exec_followsDomain (s := s.took rest) hc

/-- An idle step, a reset, an illegal word and a command of another class are all answered by a next state. -/
theorem step_completes_of_takes_none (h : ∀ i, ¬ s.Takes i) : completes (step s) := by
  cases hs : s.input with
  | nil => exact ⟨_, step_of_idle hs⟩
  | cons x rest =>
    cases hr : x.rst with
    | true => exact ⟨_, step_of_reset hs hr⟩
    | false =>
      cases hi : decodeCommand x.command with
      | error e => exact ⟨_, step_of_illegal hs hr hi⟩
      | ok i =>
        have hc : i.cls ≠ (s.took rest).device.cls := fun hc => h i ⟨x, rest, hs, hr, hi, hc⟩
        exact ⟨_, (step_of_decodes hs hr hi).trans (exec_other_class hc)⟩

/-- Only a step that takes an instruction is refused. -/
theorem exists_takes_of_refused {r : Refusal} (h : step s = .refused r) : ∃ i, s.Takes i := by
  by_contra hn
  obtain ⟨t, ht⟩ := step_completes_of_takes_none (not_exists.1 hn)
  cases h.symm.trans ht

end Sys2Proof.Machine

namespace Sys2Proof.Proofs

open Sys2Proof.Machine

/-- Settles O60: a step is refused only where it takes an instruction (`exists_takes_of_refused`), and what it then
does its domain decides (`Takes.step_followsDomain`). -/
theorem stepNeverFaults : Obligations.StepNeverFaults := by
  intro s
  refine ⟨⟨fun h => ?_, fun ⟨i, ht, hop⟩ => ?_⟩, ⟨fun h => ?_, fun ⟨i, ht, hdom⟩ => ?_⟩, fun h => ?_⟩
  · obtain ⟨i, ht⟩ := exists_takes_of_refused h
    exact ⟨i, ht, ht.step_followsDomain.nonFinite_iff.1 h⟩
  · exact (State.Takes.step_followsDomain ht).nonFinite_iff.2 hop
  · obtain ⟨i, ht⟩ := exists_takes_of_refused h
    exact ⟨i, ht, ht.step_followsDomain.oversized_iff.1 h⟩
  · exact (State.Takes.step_followsDomain ht).oversized_iff.2 hdom
  · by_cases ht : ∃ i, s.Takes i
    · obtain ⟨i, ht⟩ := ht
      obtain ⟨hop, hmem⟩ := h i ht
      exact ht.step_followsDomain.completes hop hmem
    · exact step_completes_of_takes_none (not_exists.1 ht)

/-- Settles O49: the step is the reset of what it took (`step_of_reset`), which constructs the device of its class
and of a block its kind. -/
theorem resetWinsOverCommand : Obligations.ResetWinsOverCommand := by
  rintro ⟨d, rsp, input, n⟩ x rest hs hr
  refine ⟨n, (step_of_reset hs hr).trans ?_⟩
  cases d with
  | bk k =>
    cases k with
    | early | midDense | lfoAllpass | rmAllpass => rfl
  | rv | dl | cf | ap | bq | lfo | rm => rfl

/-- Settles O51: an idle step only takes the response from the port (`step_of_idle`). -/
theorem idleHoldsState : Obligations.IdleHoldsState := fun _ => step_of_idle

end Sys2Proof.Proofs
end

section
/-! Proofs for `70_reset_and_hazards.md`: the values of the reset state (rule R250), its invariant (rule R253), and the
refusal of a command that would take a capacity above `CAP_MAX` (rule R262). -/

set_option Elab.async false

namespace Sys2Proof.Machine

/-! ### The reset parameters of the device (rules R12, R250) -/

/-- The shipped device right after reset. -/
def resetReverb : Reverb := mkReverb tuning resetSr resetWets resetMode params.resetLpf

theorem State.reset_device : State.reset.device = .rv resetReverb := rfl

theorem resetSr_legal : rateLegal resetSr := ⟨by decide, by decide⟩

/-- The reset rate is legal, so the clamp of the construction keeps it. -/
theorem resetReverb_sampleRate : resetReverb.sampleRate = resetSr := clampRate_of_legal resetSr_legal

/-- The reset wets are the upper bound of their range, so the clamp keeps them. -/
theorem resetReverb_wet : resetReverb.wet = resetWets := by
  have hone : clamp F.one F.zero F.one = F.one := clamp_of_inRange F.zero_le_one (F.le_refl F.one_number)
  simp only [resetReverb, mkReverb, Wets.map, resetWets, hone]

theorem resetReverb_mode : resetReverb.mode = .parallel := by
  simp [resetReverb, mkReverb, resetMode, Mode.ofInt]

/-! ### Memories that do not fit (entry U1) -/

/-- A command of the device's class with an operand in its domain is refused where a memory it sizes does not fit. -/
theorem exec_oversized {s : State} {d : Device} {i : Instr} (hd : s.device = d) (hc : i.cls = d.cls)
    (hop : operandInDomain i = true) (hmem : memoryInDomain i d = false) :
    exec i s = .refused .capacityAboveCapMax := by
  subst hd
  exact (exec_followsDomain hc).oversized_iff.2 ⟨hop, hmem⟩

end Sys2Proof.Machine

namespace Sys2Proof.Proofs

open Sys2Proof.Machine

/-- Settles O50: a block maps the construction of each unit over its entry of `TUNING`. The device stores its rate and
its wets as they are given, since both are in range (`resetReverb_sampleRate`, `resetReverb_wet`), and builds the rest
from the rate it stores. -/
theorem resetRegisterValues : Obligations.ResetRegisterValues := by
  refine ⟨fun sr => ⟨rfl, rfl, rfl, rfl⟩, resetReverb, State.reset_device, rfl, resetReverb_sampleRate,
    resetReverb_wet, resetReverb_mode, ?cutoff, ?last, ?block1, ?block2, ?block3, ?block4, ?left, ?right⟩
  case cutoff | last | block1 | block2 | block3 | block4 | left | right => rfl

/-- Settles O55: the case of the shipped device of `resetDevice_inv`, which rests on the validity of `TUNING`. -/
theorem resetMeetsInvariant : Obligations.ResetMeetsInvariant := resetDevice_inv .rv .k1

/-- Settles O59: each of these commands is of the class of the device, its domain is the finite operands, and the
memories it sizes are those said not to fit (`exec_oversized`). -/
theorem oversizedMemoryRefused : Obligations.OversizedMemoryRefused := by
  intro s a ha
  refine ⟨fun v hv hfit => ?rv, fun d hd hfit => ?dlRate, fun d c hd hfit => ?dlMax, fun c hc hfit => ?cf,
    fun f hf hfit => ?ap, fun k hk hfit => ?bk⟩
  case rv => exact exec_oversized hv rfl ha hfit
  case dlRate => exact exec_oversized hd rfl ha hfit
  case dlMax => exact exec_oversized hd rfl ha hfit
  case cf => exact exec_oversized hc rfl ha hfit
  case ap => exact exec_oversized hf rfl ha hfit
  case bk => exact exec_oversized hk rfl ha hfit

end Sys2Proof.Proofs
end
